-- ==== Sys2Proof/Word.lean ====
section
/-! DEFINITION. The bit-vector words of the Lock-In DSP block: bytes of the register window, 32-bit
command words and status words, and 64-bit register contents (R20, R40, R120, R160). -/

namespace Sys2Proof

/-- One byte of the register window (R80, R82). -/
abbrev Byte := BitVec 8

/-- A 32-bit command word or 32-bit register (R60, R120). -/
abbrev Word := BitVec 32

/-- A 64-bit register: the bit pattern of one IEEE 754 binary64 value (R12, R40, R160). -/
abbrev F64 := BitVec 64

end Sys2Proof
end

