-- ==== Sys2Proof/Syntax.lean ====
section
/-! DEFINITION. The commands of the block: one constructor of `Instr` per row of
`spec/opcode_table.json` (R125). -/

namespace Sys2Proof

/-- The two filter units; the `U` bit of a command word selects one (R1, R123). -/
inductive FilterUnit where
  | f1
  | f2
  deriving DecidableEq, Repr

/-- The two channel ports (R15, R350). -/
inductive Port where
  | ref
  | med
  deriving DecidableEq, Repr

/-- A decoded command. `u` is the filter unit of the `U` bit (R123). `n` and `fl` are the unsigned
immediate, a mathematical integer that decoding never scales or checks (R20, R122); that it fits the
8-bit field is `Instr.wf`. Real operands are not part of a command: they stay in ARG (R124). -/
inductive Instr where
  /-- R220, LOCKIN §4.1 configure -/
  | fcfg (u : FilterUnit) (n : Nat)
  /-- R221, LOCKIN §4.1 setSampleFrequency -/
  | fsetfs (u : FilterUnit)
  /-- R222, LOCKIN §4.1 setCutoffFrequency -/
  | fsetfc (u : FilterUnit)
  /-- R223, LOCKIN §4.1 setOrder -/
  | fsetord (u : FilterUnit) (n : Nat)
  /-- R224, LOCKIN §4.1 filter -/
  | ffilt (u : FilterUnit)
  /-- R265, LOCKIN §4.2 configure -/
  | pcfg (fl : Nat)
  /-- R266, LOCKIN §4.2 setSampleFrequency -/
  | psetfs
  /-- R267, LOCKIN §4.2 setReferenceFrequency -/
  | psetfr
  /-- R268, LOCKIN §4.2 shift -/
  | pshift
  /-- R290, LOCKIN §4.3 construction -/
  | cinit (n : Nat)
  /-- R291, LOCKIN §4.3 setSampleFrequency -/
  | csetfs
  /-- R292, LOCKIN §4.3 setReferenceFrequency -/
  | csetfr
  /-- R293, LOCKIN §4.3 setFilterOrder -/
  | csetord (n : Nat)
  /-- R300, LOCKIN §4.3 connect -/
  | cconn
  /-- R301, LOCKIN §4.3 acquire -/
  | cacq
  /-- R310, LOCKIN §4.3 demodulate -/
  | cdemod
  /-- R312, one turn of the loop of LOCKIN §5 -/
  | cstep
  deriving DecidableEq, Repr

/-- The value the command's IMM field carries; 0 in the formats U and Z, which do not use it (R121). -/
def Instr.imm : Instr → Nat
  | .fcfg _ n => n
  | .fsetfs _ => 0
  | .fsetfc _ => 0
  | .fsetord _ n => n
  | .ffilt _ => 0
  | .pcfg fl => fl
  | .psetfs => 0
  | .psetfr => 0
  | .pshift => 0
  | .cinit n => n
  | .csetfs => 0
  | .csetfr => 0
  | .csetord n => n
  | .cconn => 0
  | .cacq => 0
  | .cdemod => 0
  | .cstep => 0

/-- The unit the command's U field carries; F1 (U = 0) in the formats I and Z, which do not use it
(R121, R123). -/
def Instr.unit : Instr → FilterUnit
  | .fcfg u _ => u
  | .fsetfs u => u
  | .fsetfc u => u
  | .fsetord u _ => u
  | .ffilt u => u
  | .pcfg _ => .f1
  | .psetfs => .f1
  | .psetfr => .f1
  | .pshift => .f1
  | .cinit _ => .f1
  | .csetfs => .f1
  | .csetfr => .f1
  | .csetord _ => .f1
  | .cconn => .f1
  | .cacq => .f1
  | .cdemod => .f1
  | .cstep => .f1

end Sys2Proof
end

