-- ==== Sys2Proof/WellFormed.lean ====
section
/-! DEFINITION. Which commands a command word can encode: the immediate must fit the 8-bit IMM field
(R120, R128). Nothing else about a command is checked here: an order of 0 or above NMAX, or a floor
below 2, is well-formed and fails in its own rule (R122). -/

namespace Sys2Proof

/-- The order or floor fits IMM, so the assembler accepts it (R128). -/
def Instr.wf (i : Instr) : Bool :=
  decide (i.imm ≤ 255)

abbrev Instr.WellFormed (i : Instr) : Prop := i.wf = true

end Sys2Proof
end

