-- ==== Sys2Proof/Decode.lean ====
section
/-! DEFINITION. The command decoder and encoder (30_encoding.md). Decoding is total: a 32-bit word is
one row of R125 or is illegal, and the reason names the case of R127. -/

namespace Sys2Proof

/-- Why a word is no command: the four cases of R127, and a byte list too short to be a word. -/
inductive DecodeError where
  | unassignedOpcode
  | reservedBits
  | unusedUnitBit
  | unusedImmediate
  | truncated
  deriving DecidableEq, Repr

/-! ### Fields of a command word (R120) -/

/-- OPC = w[7:0]. -/
def opcOf (w : Word) : BitVec 8 := w.extractLsb' 0 8

/-- U = w[8]: F1 for 0, F2 for 1 (R123). -/
def unitOf (w : Word) : FilterUnit := if w.getLsbD 8 then .f2 else .f1

/-- RSV = w[23:9]. -/
def rsvOf (w : Word) : BitVec 15 := w.extractLsb' 9 15

/-- IMM = w[31:24], an unsigned integer (R122). -/
def immOf (w : Word) : Nat := (w.extractLsb' 24 8).toNat

/-! ### The opcode map (R125) -/

/-- One row of R125: a word encodes the row's command exactly when `w &&& mask = pattern`; `build`
makes the command from the word's U and IMM. -/
structure OpcodeRow where
  mnemonic : String
  pattern : Word
  mask : Word
  build : FilterUnit → Nat → Instr

def filterRows : List OpcodeRow :=
  [ ⟨"FCFG", 0x00000010#32, 0x00FFFEFF#32, fun u n => .fcfg u n⟩,
    ⟨"FSETFS", 0x00000011#32, 0xFFFFFEFF#32, fun u _ => .fsetfs u⟩,
    ⟨"FSETFC", 0x00000012#32, 0xFFFFFEFF#32, fun u _ => .fsetfc u⟩,
    ⟨"FSETORD", 0x00000013#32, 0x00FFFEFF#32, fun u n => .fsetord u n⟩,
    ⟨"FFILT", 0x00000014#32, 0xFFFFFEFF#32, fun u _ => .ffilt u⟩ ]

def shifterRows : List OpcodeRow :=
  [ ⟨"PCFG", 0x00000020#32, 0x00FFFFFF#32, fun _ n => .pcfg n⟩,
    ⟨"PSETFS", 0x00000021#32, 0xFFFFFFFF#32, fun _ _ => .psetfs⟩,
    ⟨"PSETFR", 0x00000022#32, 0xFFFFFFFF#32, fun _ _ => .psetfr⟩,
    ⟨"PSHIFT", 0x00000023#32, 0xFFFFFFFF#32, fun _ _ => .pshift⟩ ]

def coreRows : List OpcodeRow :=
  [ ⟨"CINIT", 0x00000030#32, 0x00FFFFFF#32, fun _ n => .cinit n⟩,
    ⟨"CSETFS", 0x00000031#32, 0xFFFFFFFF#32, fun _ _ => .csetfs⟩,
    ⟨"CSETFR", 0x00000032#32, 0xFFFFFFFF#32, fun _ _ => .csetfr⟩,
    ⟨"CSETORD", 0x00000033#32, 0x00FFFFFF#32, fun _ n => .csetord n⟩,
    ⟨"CCONN", 0x00000034#32, 0xFFFFFFFF#32, fun _ _ => .cconn⟩,
    ⟨"CACQ", 0x00000035#32, 0xFFFFFFFF#32, fun _ _ => .cacq⟩,
    ⟨"CDEMOD", 0x00000036#32, 0xFFFFFFFF#32, fun _ _ => .cdemod⟩,
    ⟨"CSTEP", 0x00000037#32, 0xFFFFFFFF#32, fun _ _ => .cstep⟩ ]

def opcodeTable : List OpcodeRow := filterRows ++ shifterRows ++ coreRows

/-- The word is of this row (R125). -/
def OpcodeRow.matchesWord (r : OpcodeRow) (w : Word) : Bool := w &&& r.mask == r.pattern

/-- Which case of R127 an illegal word falls under. -/
def illegalReason (w : Word) : DecodeError :=
  if !(opcodeTable.any fun r => r.pattern.extractLsb' 0 8 == opcOf w) then .unassignedOpcode
  else if rsvOf w != 0 then .reservedBits
  else if w.getLsbD 8 && !(filterRows.any fun r => r.pattern.extractLsb' 0 8 == opcOf w) then
    .unusedUnitBit
  else .unusedImmediate

/-- The decoder (R126). It reads no state. -/
def decodeWord (w : Word) : Except DecodeError Instr :=
  match opcodeTable.find? fun r => r.matchesWord w with
  | some r => .ok (r.build (unitOf w) (immOf w))
  | none => .error (illegalReason w)

/-! ### Bytes (R82): the byte at the lowest address holds bits [7:0] -/

def wordOfBytes (b0 b1 b2 b3 : Byte) : Word := b3 ++ b2 ++ b1 ++ b0

def bytesOfWord (w : Word) : List Byte :=
  [w.extractLsb' 0 8, w.extractLsb' 8 8, w.extractLsb' 16 8, w.extractLsb' 24 8]

/-- Decode the command word at the head of a byte list and give the rest. -/
def decodeBytes : List Byte → Except DecodeError (Instr × List Byte)
  | b0 :: b1 :: b2 :: b3 :: rest =>
    match decodeWord (wordOfBytes b0 b1 b2 b3) with
    | .ok i => .ok (i, rest)
    | .error e => .error e
  | _ => .error .truncated

/-- The instruction the decoder reads from a row's bits, laid out as CMD takes them (R82, R120). -/
def decodeTableWord (nbits w : Nat) : Option Instr :=
  match decodeBytes (bytesOfWord (BitVec.ofNat 32 (w % 2 ^ nbits))) with
  | .ok (i, _) => some i
  | .error _ => none

/-! ### The encoder (R120, R121, R125) -/

/-- The OPC of each command (R125). -/
def Instr.opc : Instr → BitVec 8
  | .fcfg _ _ => 0x10#8
  | .fsetfs _ => 0x11#8
  | .fsetfc _ => 0x12#8
  | .fsetord _ _ => 0x13#8
  | .ffilt _ => 0x14#8
  | .pcfg _ => 0x20#8
  | .psetfs => 0x21#8
  | .psetfr => 0x22#8
  | .pshift => 0x23#8
  | .cinit _ => 0x30#8
  | .csetfs => 0x31#8
  | .csetfr => 0x32#8
  | .csetord _ => 0x33#8
  | .cconn => 0x34#8
  | .cacq => 0x35#8
  | .cdemod => 0x36#8
  | .cstep => 0x37#8

/-- U = 1 for F2 (R123). -/
def FilterUnit.bit : FilterUnit → BitVec 1
  | .f1 => 0#1
  | .f2 => 1#1

/-- The command word: IMM, RSV = 0, U and OPC, from the most significant field down (R120). -/
def encodeWord (i : Instr) : Word :=
  BitVec.ofNat 8 i.imm ++ 0#15 ++ i.unit.bit ++ i.opc

/-- The command word's bytes, lowest address first (R82). -/
def encode (i : Instr) : List Byte := bytesOfWord (encodeWord i)

end Sys2Proof
end

