-- ==== Sys2Proof/Config.lean ====
section
/-! DEFINITION. What one block fixes, and the values the spec leaves free.

The block's parameters are NMAX, HMAX, Design, Hypot, Atan2, BASE and the answers of the two
acquisition sources (R10, R11, R13 to R15, R68, R80, 93_implementation_defined.md I1 to I5 and I12).
The numbers among them are the plain data `Params`. The functions among them are the constants below,
which have no body: every statement holds whatever they are. A `Params` may list rows of a design
table and may ask for the recommended, correctly rounded Hypot and Atan2, so that one particular block
can be run; at reset it does neither. -/

namespace Sys2Proof

/-- The `b[i]` that the design routine returns for order `n` and normalized cutoff `wn` (R13, D34):
`Config.designB n wn i`. A function, so equal arguments give equal coefficients. -/
opaque Config.designB : Nat → F64 → Nat → F64

/-- The `a[i]` that the design routine returns for order `n` and normalized cutoff `wn` (R13, D34). -/
opaque Config.designA : Nat → F64 → Nat → F64

/-- Which of the values R175 allows for a non-exact Hypot the block returns (R14, I4), as a function
of the larger and the smaller magnitude. Only a pattern R175 allows is ever used. -/
opaque Config.hypotChoice : F64 → F64 → F64

/-- Which of the values R176 allows for Atan2 outside its special cases the block returns (R14, I5),
as a function of `|y|` and `x`. Only a pattern R176 allows is ever used. -/
opaque Config.atan2Choice : F64 → F64 → F64

/-- The answer of a source to its `k`-th Connect or Read request that the state does not list: `true`
is `ok` (R15, R350, I12). -/
opaque Config.connectDraw : Port → Nat → Bool

/-- The answer of a source to its `k`-th Connect or Read request that the state does not list: `none`
is `fail`, `some v` the voltage `v`, any binary64 (R15, R350, R351, I12). -/
opaque Config.readDraw : Port → Nat → Option F64

/-- The oversampling floor CINIT gives the shifter (R16, D21). -/
def Config.coreFloor : Nat := 4

/-- One row of a listed design routine: the coefficients for an order, for one normalized cutoff or,
with `wn = none`, for every normalized cutoff. -/
structure DesignRow where
  order : Nat
  wn : Option F64
  b : List F64
  a : List F64
  deriving DecidableEq, Repr

/-- How Hypot and Atan2 pick among the values R175 and R176 allow. -/
inductive Estimator where
  /-- any allowed value: `Config.hypotChoice` and `Config.atan2Choice` -/
  | anyAllowed
  /-- the recommended instantiation: the correctly rounded value (R175, R176) -/
  | correctlyRounded
  deriving DecidableEq, Repr

/-- The parameters of one block (R68). They are arguments of the model, not state of the block: no
command and no reset changes them. -/
structure Params where
  /-- largest filter order (R10) -/
  nmax : Nat
  /-- largest shifter buffer (R11) -/
  hmax : Nat
  /-- address of the register window on the host's bus (R80, R91) -/
  base : Nat
  estimator : Estimator
  /-- listed values of Design; elsewhere `Config.designB` and `Config.designA` -/
  design : List DesignRow
  deriving DecidableEq, Repr

/-- The ranges R10 and R11 give NMAX and HMAX. -/
def Params.wf (p : Params) : Bool :=
  decide (1 ≤ p.nmax ∧ p.nmax ≤ 255 ∧ 1 ≤ p.hmax ∧ p.hmax ≤ 0xFFFFFF)

/-- The parameters that `State.reset` carries. DESIGN CHOICE (log 1): NMAX = 8 and HMAX = 1024, as
95_test_vectors.md §0 takes them, BASE = 0, no listed Design and no chosen Hypot or Atan2. -/
def Config.resetParams : Params :=
  { nmax := 8, hmax := 1024, base := 0, estimator := .anyAllowed, design := [] }

end Sys2Proof
end

