-- ==== Sys2Proof/Machine/Float.lean ====
section
/-! DEFINITION. The binary64 format, its rounded operations, and the exact-real checks (40_numerics.md
R160 to R171). A finite value is an integer number of units of 2^-1074, the smallest subnormal, so every
exact comparison and every exact quotient below is one of integers. -/

namespace Sys2Proof.Machine

/-! ### Format (R160) -/

/-- Sign bit, bit 63. -/
def signBit (v : F64) : Bool := v.getLsbD 63

/-- Exponent and fraction, bits [62:0], as a number. Magnitudes are ordered as these numbers are. -/
def magBits (v : F64) : Nat := (v.extractLsb' 0 63).toNat

/-- The magnitude pattern of infinity: exponent field 0x7FF, zero fraction. -/
def infBits : Nat := 0x7FF0000000000000

def isFinite (v : F64) : Bool := decide (magBits v < infBits)

def isNaN (v : F64) : Bool := decide (infBits < magBits v)

def isInf (v : F64) : Bool := decide (magBits v = infBits)

/-- A value from its sign and magnitude pattern. -/
def pack (neg : Bool) (mag : Nat) : F64 := BitVec.ofBool neg ++ BitVec.ofNat 63 mag

def posZero : F64 := 0x0000000000000000#64

def negZero : F64 := 0x8000000000000000#64

/-- The value is +0.0 or -0.0. -/
def isZero (v : F64) : Bool := decide (magBits v = 0)

/-- The NaN an operation answers. Which NaN it is cannot be observed: a computed NaN is never stored
and never reaches RES (R165, I7; log 5). -/
def nanResult : F64 := 0x7FF8000000000000#64

/-- 10.0, the divisor of R169. -/
def ten64 : F64 := 0x4024000000000000#64

/-- The units of 2^-1074 in a magnitude pattern: a subnormal's fraction, or a normal's significand
shifted by its exponent. -/
def magUnits (m : Nat) : Nat :=
  if m / 2 ^ 52 = 0 then m % 2 ^ 52 else (2 ^ 52 + m % 2 ^ 52) * 2 ^ (m / 2 ^ 52 - 1)

/-- `real(v)` in units of 2^-1074, for a finite `v` (R164). -/
def real (v : F64) : Int :=
  if signBit v then -(magUnits (magBits v) : Int) else (magUnits (magBits v) : Int)

/-- The number of units in 1.0. -/
def unitsOne : Nat := 2 ^ 1074

/-! ### Rounding (R161) -/

/-- The exponent step `e` of the binade of `num / den` units: representable values there are the
multiples of `2^e` units. -/
def binade (num den : Nat) : Nat := (num / den).log2 - 52

/-- The magnitude pattern of `num / den` units rounded to nearest, ties to even; from
2^1024 - 2^970 on it is infinity. -/
def roundMag (num den : Nat) : Nat :=
  let e := binade num den
  let d := den * 2 ^ e
  let t := num / d
  let r := num % d
  let up := decide (d < 2 * r) || (decide (2 * r = d) && decide (t % 2 = 1))
  min (e * 2 ^ 52 + (if up then t + 1 else t)) infBits

/-- `RNE` of the real with sign `neg` and magnitude `num / den` units. A nonzero real that rounds to
zero keeps its sign; the real 0 gives +0.0 when `neg` is false. -/
def rne (neg : Bool) (num den : Nat) : F64 := pack neg (roundMag num den)

/-! ### The basic operations (R162) -/

/-- Flip the sign bit. -/
def neg64 (x : F64) : F64 := x ^^^ negZero

/-- The sum of two finite values, rounded once; an exact zero sum is +0.0 unless both are -0.0. -/
def addFinite (x y : F64) : F64 :=
  let z := real x + real y
  if z = 0 then (if signBit x && signBit y then negZero else posZero)
  else rne (decide (z < 0)) z.natAbs 1

def add64 (x y : F64) : F64 :=
  if isNaN x || isNaN y then nanResult
  else if isInf x then (if isInf y && (signBit x != signBit y) then nanResult else x)
  else if isInf y then y
  else addFinite x y

/-- A difference is the sum with the second operand's sign flipped: (-0) - (+0) = -0. -/
def sub64 (x y : F64) : F64 := add64 x (neg64 y)

def mul64 (x y : F64) : F64 :=
  let s := signBit x != signBit y
  if isNaN x || isNaN y then nanResult
  else if isInf x || isInf y then (if isZero x || isZero y then nanResult else pack s infBits)
  else rne s (magUnits (magBits x) * magUnits (magBits y)) unitsOne

def div64 (x y : F64) : F64 :=
  let s := signBit x != signBit y
  if isNaN x || isNaN y then nanResult
  else if isInf x then (if isInf y then nanResult else pack s infBits)
  else if isInf y then pack s 0
  else if isZero y then (if isZero x then nanResult else pack s infBits)
  else rne s (magUnits (magBits x) * unitsOne) (magUnits (magBits y))

/-! ### Exact-real checks (R166) -/

def validFreq (v : F64) : Bool := isFinite v && decide (0 < real v)

def belowNyquist (fc fs : F64) : Bool := decide (2 * real fc < real fs)

def oversampled (fs fr : F64) (fl : Nat) : Bool := decide ((fl : Int) * real fr ≤ real fs)

/-- A settle delay CINIT takes: finite and not negative; both zeros are (R290). -/
def validSettle (v : F64) : Bool := isFinite v && decide (0 ≤ real v)

/-! ### Shifter geometry, normalized and default cutoff (R167 to R169) -/

/-- floor(real(fs) / (2 * real(fr))), for positive `fs` and `fr`. -/
def halfOf (fs fr : F64) : Nat := (real fs).toNat / (2 * (real fr).toNat)

/-- floor(real(fs) / (4 * real(fr))), for positive `fs` and `fr`. -/
def quarterOf (fs fr : F64) : Nat := (real fs).toNat / (4 * (real fr).toNat)

/-- The normalized cutoff: RNE(2 * real(fc) / real(fs)), rounded once. -/
def wnOf (fc fs : F64) : F64 := rne false (2 * (real fc).toNat * unitsOne) (real fs).toNat

/-- The core's default cutoff: the binary64 quotient fr / 10. -/
def cutoffOf (fr : F64) : F64 := div64 fr ten64

end Sys2Proof.Machine
end

