-- ==== Sys2Proof/Machine/Estimator.lean ====
section
/-! DEFINITION. Magnitude and angle: the parameters Hypot and Atan2 under the properties the spec gives
them, and the phase normalization (R14, R175 to R178).

The spec leaves open only which of the neighbouring binary64 values is returned. So each function below
first computes the allowed magnitude patterns as an interval `lo..hi`, and the correctly rounded one
among them. `Estimator.correctlyRounded` returns the latter; `Estimator.anyAllowed` returns any allowed
pattern (log 6). -/

namespace Sys2Proof.Machine

/-- π64 = RNE(π) (R176). -/
def pi64 : F64 := 0x400921FB54442D18#64

/-- −π64. -/
def negPi64 : F64 := 0xC00921FB54442D18#64

/-- h64 = RNE(π/2) (R176). -/
def halfPi64 : F64 := 0x3FF921FB54442D18#64

/-- The magnitude pattern of π64. -/
def piBits : Nat := 0x400921FB54442D18

/-- The allowed magnitude patterns `lo..hi`, and the correctly rounded one where it is known. -/
structure Allowed where
  lo : Nat
  hi : Nat
  nearest : Option Nat
  deriving DecidableEq, Repr

/-- The free pattern if it is allowed, else an allowed one. -/
def Allowed.pick (a : Allowed) (free : Nat) : Nat :=
  if a.lo = a.hi then a.lo else if a.lo ≤ free ∧ free ≤ a.hi then free else a.lo

/-- The pattern the estimator returns. Where the correctly rounded one is not known, any allowed one. -/
def Allowed.choose (a : Allowed) (e : Estimator) (free : Nat) : Nat :=
  match e, a.nearest with
  | .correctlyRounded, some m => m
  | .correctlyRounded, none => a.pick free
  | .anyAllowed, _ => a.pick free

/-! ### Hypot (R175) -/

/-- The integer square root, one bit of the result at a time from bit `k - 1` down. -/
def isqrtFrom (n : Nat) : Nat → Nat → Nat
  | 0, r => r
  | k + 1, r => if (r + 2 ^ k) * (r + 2 ^ k) ≤ n then isqrtFrom n k (r + 2 ^ k) else isqrtFrom n k r

/-- floor(sqrt n). -/
def isqrt (n : Nat) : Nat := isqrtFrom n (n.log2 / 2 + 1) 0

/-- From 2^1024 - 2^970 on, in units, a magnitude is infinite (R175 (c), R178). -/
def hypotLimit : Nat := (2 ^ 54 - 1) * 2 ^ 2044

/-- The patterns R175 allows for h = sqrt(n) units: h itself if it is a binary64 value; +Inf from the
limit on; otherwise the two binary64 values nearest h. These are the two around h, except just above a
power of two, where the value below the lower one can be nearer than the upper one, and between the
largest finite value and the limit. -/
def hypotAllowed (n : Nat) : Allowed :=
  let e := n.log2 / 2 - 52
  let t := isqrt (n / 4 ^ e)
  let m := e * 2 ^ 52 + t
  if hypotLimit * hypotLimit ≤ n then ⟨infBits, infBits, some infBits⟩
  else if t * t * 4 ^ e = n then ⟨m, m, some m⟩
  else
    let mid := (2 * t + 1) * (2 * t + 1) * 4 ^ e
    let nearest := if mid < 4 * n ∨ (mid = 4 * n ∧ t % 2 = 1) then m + 1 else m
    let ends := (magUnits (m - 1) + magUnits (m + 1)) * (magUnits (m - 1) + magUnits (m + 1))
    if m + 1 = infBits ∨ 4 * n < ends then ⟨m - 1, m, some nearest⟩
    else if 4 * n = ends then ⟨m - 1, m + 1, some nearest⟩
    else ⟨m, m + 1, some nearest⟩

/-- `Hypot(x, y)` (R14, R175). The block calls it with finite operands only. -/
def hypot (est : Estimator) (x y : F64) : F64 :=
  let mx := magBits x
  let my := magBits y
  let n := magUnits mx * magUnits mx + magUnits my * magUnits my
  let free := Config.hypotChoice (pack false (max mx my)) (pack false (min mx my))
  pack false ((hypotAllowed n).choose est (magBits free))

/-! ### Atan2 (R176)

The exact angle is enclosed between two rationals by Euler's series
atan z = z/(1+z²) · Σ s_k, s_0 = 1, s_k = s_(k-1) · (z²/(1+z²)) · 2k/(2k+1), for 0 < z ≤ 1, whose terms
at least halve. -/

/-- Bits of the fixed-point numbers of the series. -/
def seriesBits : Nat := 192

/-- 2^192, one in fixed point. -/
def fixedOne : Nat := 2 ^ 192

/-- `terms` more terms of the series: the term before them is `s`, and `acc` the sum so far. -/
def eulerSum (w : Nat) : (terms k s acc : Nat) → Nat
  | 0, _, _, acc => acc
  | terms + 1, k, s, acc =>
    let s' := s * w * (2 * k) / ((2 * k + 1) * fixedOne)
    eulerSum w terms (k + 1) s' (acc + s')

/-- The sum of the series for z = p / q in fixed point, from below; the true sum is less than
`eulerSlack` above it (log 6). -/
def eulerTotal (p q : Nat) : Nat :=
  eulerSum (p * p * fixedOne / (p * p + q * q)) 200 1 fixedOne fixedOne

/-- What truncation and the 200 terms can lose of the sum, in units of 2^-192. -/
def eulerSlack : Nat := 1024

/-- An open interval `(loNum / loDen, hiNum / hiDen)` that holds an angle, in radians. -/
structure Enclosure where
  loNum : Nat
  loDen : Nat
  hiNum : Nat
  hiDen : Nat
  deriving DecidableEq, Repr

/-- atan(p / q) for 0 < p ≤ q. It is less than p / q itself. -/
def atanEnclosure (p q : Nat) : Enclosure :=
  let s := eulerTotal p q
  let d := (p * p + q * q) * fixedOne
  let hi := p * q * (s + eulerSlack)
  if hi * q ≤ p * d then ⟨p * q * s, d, hi, d⟩ else ⟨p * q * s, d, p, q⟩

/-- π/2 in fixed point, from below: atan 1 is half the sum. The true value is less than `eulerSlack`
above it. -/
def halfPiFixed : Nat := eulerTotal 1 1

/-- `k` times π/2 plus (`neg` = false) or minus (`neg` = true) an enclosed angle, in fixed point. -/
def aroundHalfPi (k : Nat) (neg : Bool) (a : Enclosure) : Enclosure :=
  let lo := a.loNum * fixedOne / a.loDen
  let hi := a.hiNum * fixedOne / a.hiDen + 1
  if neg then ⟨k * halfPiFixed - hi, fixedOne, k * (halfPiFixed + eulerSlack) - lo, fixedOne⟩
  else ⟨k * halfPiFixed + lo, fixedOne, k * (halfPiFixed + eulerSlack) + hi, fixedOne⟩

/-- The angle of a point with ordinate `y` > 0 units and abscissa of magnitude `x` > 0 units, on the
left (`left` = true) or the right of the origin: in (0, π). -/
def angleEnclosure (y x : Nat) (left : Bool) : Enclosure :=
  if left then
    if y ≤ x then aroundHalfPi 2 true (atanEnclosure y x)
    else aroundHalfPi 1 false (atanEnclosure x y)
  else
    if y ≤ x then atanEnclosure y x else aroundHalfPi 1 true (atanEnclosure x y)

/-- The largest magnitude pattern of at most `num / den` units. -/
def floorMag (num den : Nat) : Nat :=
  let e := binade num den
  min (e * 2 ^ 52 + num / (den * 2 ^ e)) infBits

/-- The smallest magnitude pattern of at least `num / den` units. -/
def ceilMag (num den : Nat) : Nat :=
  let e := binade num den
  let d := den * 2 ^ e
  min (e * 2 ^ 52 + (if num % d = 0 then num / d else num / d + 1)) infBits

/-- `num / den` units rounded to nearest, a tie away from zero (`up`) or toward it: what a real just
above or just below the tie rounds to. -/
def nearestMag (up : Bool) (num den : Nat) : Nat :=
  let e := binade num den
  let d := den * 2 ^ e
  let t := num / d
  let r := num % d
  min (e * 2 ^ 52 + (if d < 2 * r ∨ (2 * r = d ∧ up = true) then t + 1 else t)) infBits

/-- The patterns R176 (e) and (f) allow for an enclosed angle: the two binary64 values nearest it, and
none above π64. Where the enclosure does not separate the angle from a binary64 value, the values that
could be among the two nearest. -/
def angleAllowed (a : Enclosure) : Allowed :=
  let ln := a.loNum * unitsOne
  let hn := a.hiNum * unitsOne
  let lo := floorMag ln a.loDen
  let hi := ceilMag hn a.hiDen
  let below := if 0 < lo ∧ 2 * ln < (magUnits (lo - 1) + magUnits (lo + 1)) * a.loDen then lo - 1 else lo
  let above :=
    if 2 * hn < (magUnits (lo - 1) + magUnits (lo + 1)) * a.hiDen ∧ hi = lo + 1 ∧ 0 < lo then lo else hi
  let r := nearestMag true ln a.loDen
  ⟨min below piBits, min above piBits,
    if r = nearestMag false hn a.hiDen then some (min r piBits) else none⟩

/-- `Atan2(y, x)` (R14, R176): the special cases (a) to (c), and elsewhere an allowed value for the
angle of (|y|, x) with the sign of y, which is (d). The block calls it with finite operands only. -/
def atan2 (est : Estimator) (y x : F64) : F64 :=
  let my := magBits y
  let mx := magBits x
  if my = 0 then pack (signBit y) (if signBit x then piBits else 0)
  else if mx = 0 then pack (signBit y) (magBits halfPi64)
  else
    let free := Config.atan2Choice (pack false my) x
    let a := angleAllowed (angleEnclosure (magUnits my) (magUnits mx) (signBit x))
    pack (signBit y) (a.choose est (magBits free))

/-! ### Phase normalization (R177) -/

def normPhase (p : F64) : F64 := if p = negPi64 then pi64 else p

end Sys2Proof.Machine
end

