-- ==== Sys2Proof/Machine/State.lean ====
section
/-! DEFINITION. The state of the block (10_state.md), of the agents around it as far as a step needs
them (R6), the two ways a step can stop, and the state after reset (R70). Everything is plain data.

A sequence field (`b`, `a`, `xh`, `yh`, `buf`) lists the live entries, index 0 first; an entry past the
end of the list is +0.0, which is what R47 and R51 say of the storage beyond the live entries (log 2). -/

namespace Sys2Proof.Machine

/-- The error kinds of STATUS.ERR; codes 7 to 15 are never produced and cannot be held (R401, I8). -/
inductive ErrKind where
  | none
  | invalidParameter
  | numericalInstability
  | deviceUnavailable
  | acquisitionError
  | illegalCommand
  | notConfigured
  deriving DecidableEq, Repr

/-- The values of STATUS.ERRSRC (R61). -/
inductive ErrSrc where
  | none
  | f1
  | f2
  | ps
  | core
  | ref
  | med
  | decode
  deriving DecidableEq, Repr

/-- One filter unit (R45). -/
structure Filter where
  /-- configured since reset -/
  cfg : Bool
  /-- in the fatal NumericalInstability state -/
  fault : Bool
  /-- N; 8 bits, 0 or 1..NMAX -/
  order : Nat
  /-- cutoff frequency, Hz -/
  fc : F64
  /-- sample frequency, Hz -/
  fs : F64
  /-- feed-forward coefficients b[0..] -/
  b : List F64
  /-- feedback coefficients a[0..]; a[0] is stored and never read -/
  a : List F64
  /-- input history, oldest first -/
  xh : List F64
  /-- output history, oldest first -/
  yh : List F64
  deriving DecidableEq, Repr

/-- The phase shifter (R50). -/
structure Shifter where
  /-- configured since reset -/
  cfg : Bool
  /-- sample frequency, Hz -/
  fs : F64
  /-- reference frequency, Hz -/
  fr : F64
  /-- oversampling floor; 8 bits -/
  floor : Nat
  /-- halfPeriodSamples; 24 bits -/
  half : Nat
  /-- quarterPeriodSamples; 24 bits -/
  quarter : Nat
  /-- the sliding buffer, oldest first -/
  buf : List F64
  deriving DecidableEq, Repr

/-- The core (R55). -/
structure CoreUnit where
  /-- CINIT has succeeded since reset -/
  cfg : Bool
  /-- the settle delay, seconds -/
  settle : F64
  deriving DecidableEq, Repr

/-- A source's answer to Connect (R350); `never` is a request that is never answered (I11). -/
inductive ConnectAnswer where
  | ok
  | fail
  | never
  deriving DecidableEq, Repr

/-- A source's answer to Read (R350, R351); `never` is a request that is never answered (I11). -/
inductive ReadAnswer where
  | volts (v : F64)
  | fail
  | never
  deriving DecidableEq, Repr

/-- An acquisition source as the block meets it (R15, R57, R350): the answers it has ready, next first,
and, for requests beyond those, the number of free draws made so far (log 3). This is the source
agent's, not the block's: the block keeps no connection state. -/
structure Source where
  connects : List ConnectAnswer
  reads : List ReadAnswer
  draws : Nat
  deriving DecidableEq, Repr

/-- What the outside does to the block (R6, R85, R450, R451): one access of the host to an address of
its bus, or the reset input. -/
inductive Event where
  /-- a read of `size` bytes (R22) -/
  | read (addr size : Nat)
  /-- a write of `size` bytes; a 4-byte write carries the low half of `data` (R22) -/
  | write (addr size : Nat) (data : BitVec 64)
  /-- reset is asserted between two accesses, or at power-up (R450) -/
  | reset
  /-- a write of `word` to CMD during whose execution reset is asserted (R451) -/
  | commandReset (word : Word)
  deriving DecidableEq, Repr

/-- The machine. The block's own state is `arg0` to `core`; `params` are the block's parameters (R68);
`ref` and `med` are the sources, `inputs` the accesses and resets still to come, in the order the host
issues them (R41, R95), and `hostData` what the host's last read returned. -/
structure State where
  /-- ARG[0] -/
  arg0 : F64
  /-- ARG[1] -/
  arg1 : F64
  /-- ARG[2] -/
  arg2 : F64
  /-- RES[0] -/
  res0 : F64
  /-- RES[1] -/
  res1 : F64
  /-- STATUS.ERR; the other STATUS fields are copies of unit state (R60) -/
  err : ErrKind
  /-- STATUS.ERRSRC -/
  errSrc : ErrSrc
  f1 : Filter
  f2 : Filter
  ps : Shifter
  core : CoreUnit
  params : Params
  ref : Source
  med : Source
  inputs : List Event
  hostData : Option (BitVec 64)
  deriving DecidableEq, Repr

/-- Why the machine stops with a fault. -/
inductive Fault where
  /-- Raised by `step` for a host access of a width, alignment or extent the register window does not
  take (R84). The block makes no change and the host agent is stuck (R420, I10). Safe. -/
  | busError
  /-- Raised by `step` for a host access to an address outside the 256-byte window, the block's one
  address space (R80). Safe: the block does not serve it. -/
  | outsideWindow
  /-- Raised by CCONN, CACQ and CSTEP when the asked source never answers: the command waits forever
  (R350, I11). Only reset ends it, which is `Event.commandReset` (R451). Safe. -/
  | portNeverAnswers (p : Port)
  deriving DecidableEq, Repr

/-- Why the machine refuses an instruction. -/
inductive Refusal where
  /-- Raised by an arm of `exec` whose instruction has no meaning yet; there is none. Safe. -/
  | notModelled (mnemonic : String)
  deriving DecidableEq, Repr

/-! ### The state after reset (R70) -/

def Filter.reset : Filter :=
  { cfg := false, fault := false, order := 0, fc := 0#64, fs := 0#64, b := [], a := [], xh := [],
    yh := [] }

def Shifter.reset : Shifter :=
  { cfg := false, fs := 0#64, fr := 0#64, floor := 0, half := 0, quarter := 0, buf := [] }

def CoreUnit.reset : CoreUnit := { cfg := false, settle := 0#64 }

/-- A source with no answer ready: each answer is a free draw. -/
def Source.unlisted : Source := { connects := [], reads := [], draws := 0 }

/-- The machine right after power-up: the block's state as R70 gives it. The parameters and the agents
around the block, to which reset does nothing, start as logs 1, 3 and 4 say. -/
def State.reset : State :=
  { arg0 := 0#64, arg1 := 0#64, arg2 := 0#64, res0 := 0#64, res1 := 0#64,
    err := .none, errSrc := .none,
    f1 := Filter.reset, f2 := Filter.reset, ps := Shifter.reset, core := CoreUnit.reset,
    params := Config.resetParams, ref := Source.unlisted, med := Source.unlisted,
    inputs := [], hostData := none }

end Sys2Proof.Machine
end

