-- ==== Sys2Proof/Machine/Flags.lean ====
section
/-! DEFINITION. STATUS and the other read-only registers as words (10_state.md R60 to R64), and the
codes of STATUS.ERR and STATUS.ERRSRC (R61, R401). -/

namespace Sys2Proof.Machine

/-- STATUS.ERR (R401). -/
def ErrKind.code : ErrKind → BitVec 4
  | .none => 0#4
  | .invalidParameter => 1#4
  | .numericalInstability => 2#4
  | .deviceUnavailable => 3#4
  | .acquisitionError => 4#4
  | .illegalCommand => 5#4
  | .notConfigured => 6#4

/-- STATUS.ERRSRC (R61). -/
def ErrSrc.code : ErrSrc → BitVec 3
  | .none => 0#3
  | .f1 => 1#3
  | .f2 => 2#3
  | .ps => 3#3
  | .core => 4#3
  | .ref => 5#3
  | .med => 6#3
  | .decode => 7#3

/-- STATUS (R60): from bit 31 down, 18 reserved bits, F2_FAULT, F1_FAULT, CORE_CFG, PS_CFG, F2_CFG,
F1_CFG, a reserved bit, ERRSRC and ERR. Bits [13:8] are live copies of unit state. -/
def statusWord (s : State) : Word :=
  0#18 ++ BitVec.ofBool s.f2.fault ++ BitVec.ofBool s.f1.fault ++ BitVec.ofBool s.core.cfg ++
    BitVec.ofBool s.ps.cfg ++ BitVec.ofBool s.f2.cfg ++ BitVec.ofBool s.f1.cfg ++ 0#1 ++
    s.errSrc.code ++ s.err.code

/-- CAPS = {HMAX, NMAX} (R63). -/
def capsWord (s : State) : Word := BitVec.ofNat 24 s.params.hmax ++ BitVec.ofNat 8 s.params.nmax

/-- ORDERS = {0, PS.floor, F2.order, F1.order} (R64). -/
def ordersWord (s : State) : Word :=
  0#8 ++ BitVec.ofNat 8 s.ps.floor ++ BitVec.ofNat 8 s.f2.order ++ BitVec.ofNat 8 s.f1.order

/-- PS_HALF, the 24-bit field zero-extended (R50, R64). -/
def halfWord (s : State) : Word := 0#8 ++ BitVec.ofNat 24 s.ps.half

/-- PS_QUARTER, the 24-bit field zero-extended (R50, R64). -/
def quarterWord (s : State) : Word := 0#8 ++ BitVec.ofNat 24 s.ps.quarter

/-- STATUS.ERR and STATUS.ERRSRC, written at the end of every command and nowhere else (R410). -/
def State.report (k : ErrKind) (src : ErrSrc) (s : State) : State := { s with err := k, errSrc := src }

end Sys2Proof.Machine
end

