-- ==== Sys2Proof/Machine/Operands.lean ====
section
/-! DEFINITION. What a command takes its operands from and checks them against: the selected filter
unit (R123), the ARG registers (R124), sequences of the units (R25), the validity predicates (R200,
R250) and the design routine (R201). -/

namespace Sys2Proof.Machine

/-! ### The selected filter unit (R123) -/

def State.filter (s : State) : FilterUnit → Filter
  | .f1 => s.f1
  | .f2 => s.f2

def State.setFilter (s : State) (u : FilterUnit) (f : Filter) : State :=
  match u with
  | .f1 => { s with f1 := f }
  | .f2 => { s with f2 := f }

/-- The ERRSRC value that names a filter unit (R61). -/
def unitSrc : FilterUnit → ErrSrc
  | .f1 => .f1
  | .f2 => .f2

/-- The ERRSRC value that names a channel port (R61, R352). -/
def portSrc : Port → ErrSrc
  | .ref => .ref
  | .med => .med

/-! ### Sequences (R25); an entry past the live ones is +0.0 (R47, R51) -/

/-- Entry `i`, index 0 the oldest. -/
def entry (l : List F64) (i : Nat) : F64 := l.getD i posZero

/-- `zeros(n)`. -/
def zeros (n : Nat) : List F64 := List.replicate n posZero

/-- The first `n` entries. -/
def firstEntries : Nat → List F64 → List F64
  | 0, _ => []
  | n + 1, l => l.headD posZero :: firstEntries n l.tail

/-- `l[1..n] ++ [x]`: of `n + 1` live entries the oldest is dropped and `x` is the newest (R212, R255). -/
def slide (n : Nat) (l : List F64) (x : F64) : List F64 := firstEntries n l.tail ++ [x]

/-! ### Validity (R200, R250) -/

def filterValid (p : Params) (n : Nat) (fc fs : F64) : Bool :=
  decide (1 ≤ n) && decide (n ≤ p.nmax) && validFreq fc && validFreq fs && belowNyquist fc fs

def shiftValid (p : Params) (fs fr : F64) (fl : Nat) : Bool :=
  decide (2 ≤ fl) && validFreq fs && validFreq fr && oversampled fs fr fl &&
    decide (halfOf fs fr ≤ p.hmax)

/-! ### The design routine (R13, R201) -/

/-- The listed row for an order and a normalized cutoff, if the parameters list one. -/
def designRow (p : Params) (n : Nat) (wn : F64) : Option DesignRow :=
  p.design.find? fun r => r.order == n && (r.wn == none || r.wn == some wn)

/-- `b[i]` of Design(n, wn). -/
def designB (p : Params) (n : Nat) (wn : F64) (i : Nat) : F64 :=
  match designRow p n wn with
  | some r => entry r.b i
  | none => Config.designB n wn i

/-- `a[i]` of Design(n, wn). -/
def designA (p : Params) (n : Nat) (wn : F64) (i : Nat) : F64 :=
  match designRow p n wn with
  | some r => entry r.a i
  | none => Config.designA n wn i

/-- The sequence `b[0..n]` of Design(n, wn). -/
def designBs (p : Params) (n : Nat) (wn : F64) : List F64 := (List.range (n + 1)).map (designB p n wn)

/-- The sequence `a[0..n]` of Design(n, wn). -/
def designAs (p : Params) (n : Nat) (wn : F64) : List F64 := (List.range (n + 1)).map (designA p n wn)

end Sys2Proof.Machine
end

