-- ==== Sys2Proof/Machine/Ops.lean ====
section
/-! DEFINITION. The operations the commands and the host's accesses share: ending a command (R23, R400,
R410), the channel ports (R350 to R353), reset (R450) and the register window (20_memory.md). -/

namespace Sys2Proof.Machine

abbrev Result := Host.Outcome State Fault Refusal

/-! ### The end of a command (R400, R410)

The block has no traps (R422): a raise saves nothing, changes no mode and goes nowhere. It writes the
error's code and source into STATUS, and the next command runs by its own rule (R315). -/

/-- The command completed: ERR = 0 and ERRSRC = 0. -/
def complete (s : State) : Result := .next (s.report .none .none)

/-- The command raised `k` with source `src` in state `s`, which keeps every change made before the
raise (R23). -/
def raise (k : ErrKind) (src : ErrSrc) (s : State) : Result := .next (s.report k src)

/-! ### Channel ports (R350 to R353) -/

/-- The source's next answer to Connect. -/
def Source.answerConnect (p : Port) (c : Source) : ConnectAnswer × Source :=
  match c.connects with
  | a :: rest => (a, { c with connects := rest })
  | [] => (if Config.connectDraw p c.draws then .ok else .fail, { c with draws := c.draws + 1 })

/-- The source's next answer to Read. The value is taken as given (R351). -/
def Source.answerRead (p : Port) (c : Source) : ReadAnswer × Source :=
  match c.reads with
  | a :: rest => (a, { c with reads := rest })
  | [] =>
    (match Config.readDraw p c.draws with
      | some v => .volts v
      | none => .fail,
      { c with draws := c.draws + 1 })

def State.source (s : State) : Port → Source
  | .ref => s.ref
  | .med => s.med

def State.setSource (s : State) (p : Port) (c : Source) : State :=
  match p with
  | .ref => { s with ref := c }
  | .med => { s with med := c }

/-- `Connect(port)`. The block keeps no connection state (R57): only the source has moved on. -/
def connectPort (p : Port) (s : State) : ConnectAnswer × State :=
  let r := (s.source p).answerConnect p
  (r.1, s.setSource p r.2)

/-- `Read(port)`. -/
def readPort (p : Port) (s : State) : ReadAnswer × State :=
  let r := (s.source p).answerRead p
  (r.1, s.setSource p r.2)

/-- `Wait(d)`: no state effect; the model has no time (R353, R473). -/
def waitSettle (_d : F64) (s : State) : State := s

/-! ### Reset (R450, R451) -/

/-- Reset puts every piece of the block's state at its reset value. The parameters, among them CAPS,
do not change (R63, R68), and reset asks the sources nothing (R450). -/
def State.afterReset (s : State) : State :=
  { State.reset with params := s.params, ref := s.ref, med := s.med, inputs := s.inputs,
                     hostData := s.hostData }

/-! ### The register window (R80 to R90) -/

/-- The registers of R81. -/
inductive Reg where
  | cmd
  | status
  | arg0
  | arg1
  | arg2
  | res0
  | res1
  | caps
  | f1Fc
  | f1Fs
  | f2Fc
  | f2Fs
  | psFs
  | psFr
  | coreSettle
  | orders
  | psHalf
  | psQuarter
  deriving DecidableEq, Repr

/-- Byte offset from BASE (R81). -/
def Reg.offset : Reg → Nat
  | .cmd => 0x00
  | .status => 0x04
  | .arg0 => 0x08
  | .arg1 => 0x10
  | .arg2 => 0x18
  | .res0 => 0x20
  | .res1 => 0x28
  | .caps => 0x30
  | .f1Fc => 0x40
  | .f1Fs => 0x48
  | .f2Fc => 0x50
  | .f2Fs => 0x58
  | .psFs => 0x60
  | .psFr => 0x68
  | .coreSettle => 0x70
  | .orders => 0x78
  | .psHalf => 0x7C
  | .psQuarter => 0x80

/-- Width in bytes (R81). -/
def Reg.bytes : Reg → Nat
  | .cmd => 4
  | .status => 4
  | .arg0 => 8
  | .arg1 => 8
  | .arg2 => 8
  | .res0 => 8
  | .res1 => 8
  | .caps => 4
  | .f1Fc => 8
  | .f1Fs => 8
  | .f2Fc => 8
  | .f2Fs => 8
  | .psFs => 8
  | .psFr => 8
  | .coreSettle => 8
  | .orders => 4
  | .psHalf => 4
  | .psQuarter => 4

def allRegs : List Reg :=
  [.cmd, .status, .arg0, .arg1, .arg2, .res0, .res1, .caps] ++
    [.f1Fc, .f1Fs, .f2Fc, .f2Fs, .psFs, .psFr, .coreSettle, .orders, .psHalf, .psQuarter]

/-- The register's current content, zero-extended to 64 bits (R64, R81, R85). CMD reads as 0. -/
def Reg.value (s : State) : Reg → BitVec 64
  | .cmd => 0#64
  | .status => (statusWord s).setWidth 64
  | .arg0 => s.arg0
  | .arg1 => s.arg1
  | .arg2 => s.arg2
  | .res0 => s.res0
  | .res1 => s.res1
  | .caps => (capsWord s).setWidth 64
  | .f1Fc => s.f1.fc
  | .f1Fs => s.f1.fs
  | .f2Fc => s.f2.fc
  | .f2Fs => s.f2.fs
  | .psFs => s.ps.fs
  | .psFr => s.ps.fr
  | .coreSettle => s.core.settle
  | .orders => (ordersWord s).setWidth 64
  | .psHalf => (halfWord s).setWidth 64
  | .psQuarter => (quarterWord s).setWidth 64

/-- The register that holds the byte at an offset; none in the reserved ranges (R81, R89). -/
def regAt (off : Nat) : Option Reg :=
  allRegs.find? fun r => decide (r.offset ≤ off ∧ off < r.offset + r.bytes)

/-- The `nbits` bits from byte offset `off` on: byte `k` of a register is its bits [8k+7:8k] (R82), and
the reserved ranges read as zero (R89). -/
def windowBits (s : State) (off nbits : Nat) : BitVec nbits :=
  match regAt off with
  | some r => (r.value s >>> (8 * (off - r.offset))).setWidth nbits
  | none => 0#nbits

/-- The byte at an offset of the window. -/
def windowByte (s : State) (off : Nat) : Byte := windowBits s off 8

/-- The window takes an access of `n` bytes at offset `off`: 4 or 8 bytes, naturally aligned, and within
one register or within reserved space (R83, R84, R89). -/
def accessAllowed (off n : Nat) : Bool :=
  decide (n = 4 ∨ n = 8) && decide (off % n = 0) && decide (off + n ≤ 256) &&
    match regAt off with
    | some r => decide (off + n ≤ r.offset + r.bytes)
    | none => (regAt (off + n - 1)).isNone

/-- What a read of `n` bytes returns, zero-extended (R82, R83). -/
def windowRead (s : State) (off n : Nat) : BitVec 64 :=
  if n = 8 then windowBits s off 64 else (windowBits s off 32).setWidth 64

/-- An ARG register's new content: 8 bytes change all of it, 4 bytes only the half at byte `k` (R86). -/
def writePart (v : F64) (k n : Nat) (data : BitVec 64) : F64 :=
  if n = 8 then data
  else if k = 0 then v.extractLsb' 32 32 ++ data.extractLsb' 0 32
  else data.extractLsb' 0 32 ++ v.extractLsb' 0 32

/-- A host write to a register other than CMD: ARG takes the data; a write to a read-only register or
to reserved space changes nothing (R86, R89, R90). -/
def windowWrite (s : State) (off n : Nat) (data : BitVec 64) : State :=
  match regAt off with
  | some .arg0 => { s with arg0 := writePart s.arg0 (off - Reg.offset .arg0) n data }
  | some .arg1 => { s with arg1 := writePart s.arg1 (off - Reg.offset .arg1) n data }
  | some .arg2 => { s with arg2 := writePart s.arg2 (off - Reg.offset .arg2) n data }
  | _ => s

end Sys2Proof.Machine
end

