-- ==== Sys2Proof/Machine/FilterCommands.lean ====
section
/-! DEFINITION. The filter units and their commands: FCFG, FSETFS, FSETFC, FSETORD, FFILT
(41_iir_filter.md). -/

namespace Sys2Proof.Machine

/-! ### Shared procedures (R201, R202, R211 to R214) -/

/-- `loadCoeffs(u)`: the coefficients of Design for the unit's order and normalized cutoff (R201). -/
def loadCoeffs (p : Params) (f : Filter) : Filter :=
  { f with b := designBs p f.order (wnOf f.fc f.fs), a := designAs p f.order (wnOf f.fc f.fs) }

/-- `resetHistory(u)`: every history entry +0.0 (R202). -/
def resetHistory (f : Filter) : Filter :=
  { f with xh := zeros (f.order + 1), yh := zeros (f.order + 1) }

/-- The b-sum up to term `i`: from the i = 0 term upward (R211). `xn[N]` is the newest input. -/
def bSum (b xn : List F64) (n : Nat) : Nat → F64
  | 0 => mul64 (entry b 0) (entry xn n)
  | i + 1 => add64 (bSum b xn n i) (mul64 (entry b (i + 1)) (entry xn (n - (i + 1))))

/-- The a-sum up to term `i + 1`: from the i = 1 term upward (R211). a[0] is not read (R210). -/
def aSum (a yh : List F64) (n : Nat) : Nat → F64
  | 0 => mul64 (entry a 1) (entry yh n)
  | i + 1 => add64 (aSum a yh n i) (mul64 (entry a (i + 2)) (entry yh (n + 1 - (i + 2))))

/-- The output `y` of a step: the b-sum minus the a-sum (R211). -/
def filterOutput (f : Filter) (x : F64) : F64 :=
  sub64 (bSum f.b (slide f.order f.xh x) f.order f.order) (aSum f.a f.yh f.order (f.order - 1))

/-- `commit(u, xn, y)` (R212). -/
def commitStep (f : Filter) (x y : F64) : Filter :=
  { f with xh := slide f.order f.xh x, yh := slide f.order f.yh y }

/-- `FilterStep(u, x)`: the unit after it, and its output, or none where it raises
NUMERICAL_INSTABILITY: a faulted unit is unchanged (R214), and a non-finite output only sets the fault
(R213). -/
def filterStep (f : Filter) (x : F64) : Filter × Option F64 :=
  if f.fault then (f, none)
  else if isFinite (filterOutput f x) then
    (commitStep f x (filterOutput f x), some (filterOutput f x))
  else ({ f with fault := true }, none)

/-- A unit configured from nothing, as FCFG and CINIT build it (R220, R290). -/
def configuredFilter (p : Params) (n : Nat) (fc fs : F64) (f : Filter) : Filter :=
  { resetHistory (loadCoeffs p { f with order := n, fc := fc, fs := fs }) with
    fault := false, cfg := true }

/-- A unit given another order, as FSETORD and CSETORD do (R223, R293). -/
def reorderedFilter (p : Params) (n : Nat) (f : Filter) : Filter :=
  { resetHistory (loadCoeffs p { f with order := n }) with fault := false }

/-! ### Commands -/

/-- FCFG u, N (R220). -/
def execFcfg (u : FilterUnit) (n : Nat) (s : State) : Result :=
  if filterValid s.params n s.arg0 s.arg1 then
    complete (s.setFilter u (configuredFilter s.params n s.arg0 s.arg1 (s.filter u)))
  else raise .invalidParameter (unitSrc u) s

/-- FSETFS u (R221). -/
def execFsetfs (u : FilterUnit) (s : State) : Result :=
  if (s.filter u).cfg = false then raise .notConfigured (unitSrc u) s
  else if filterValid s.params (s.filter u).order (s.filter u).fc s.arg0 then
    complete (s.setFilter u (loadCoeffs s.params { s.filter u with fs := s.arg0 }))
  else raise .invalidParameter (unitSrc u) s

/-- FSETFC u (R222). -/
def execFsetfc (u : FilterUnit) (s : State) : Result :=
  if (s.filter u).cfg = false then raise .notConfigured (unitSrc u) s
  else if filterValid s.params (s.filter u).order s.arg0 (s.filter u).fs then
    complete (s.setFilter u (loadCoeffs s.params { s.filter u with fc := s.arg0 }))
  else raise .invalidParameter (unitSrc u) s

/-- FSETORD u, N (R223). -/
def execFsetord (u : FilterUnit) (n : Nat) (s : State) : Result :=
  if (s.filter u).cfg = false then raise .notConfigured (unitSrc u) s
  else if filterValid s.params n (s.filter u).fc (s.filter u).fs then
    complete (s.setFilter u (reorderedFilter s.params n (s.filter u)))
  else raise .invalidParameter (unitSrc u) s

/-- FFILT u (R224). -/
def execFfilt (u : FilterUnit) (s : State) : Result :=
  if (s.filter u).cfg = false then raise .notConfigured (unitSrc u) s
  else
    match filterStep (s.filter u) s.arg0 with
    | (f, some y) => complete { s.setFilter u f with res0 := y }
    | (f, none) => raise .numericalInstability (unitSrc u) (s.setFilter u f)

end Sys2Proof.Machine
end

