-- ==== Sys2Proof/Machine/ShifterCommands.lean ====
section
/-! DEFINITION. The phase shifter and its commands: PCFG, PSETFS, PSETFR, PSHIFT
(42_phase_shifter.md). -/

namespace Sys2Proof.Machine

/-! ### Shared procedures (R251, R252, R255) -/

/-- `setGeometry()`: half and quarter from the frequencies (R251). -/
def setGeometry (p : Shifter) : Shifter :=
  { p with half := halfOf p.fs p.fr, quarter := quarterOf p.fs p.fr }

/-- `resetBuffer()`: every buffer entry +0.0 (R252). -/
def resetBuffer (p : Shifter) : Shifter := { p with buf := zeros p.half }

/-- `ShiftStep(x)`: the oldest entry is dropped, x is the newest, and the result is the entry `quarter`
positions before it, bit for bit (R255, conflict C1). -/
def shiftStep (p : Shifter) (x : F64) : Shifter × F64 :=
  let buf := slide (p.half - 1) p.buf x
  ({ p with buf := buf }, entry buf (p.half - 1 - p.quarter))

/-- A shifter configured from nothing, as PCFG and CINIT build it (R265, R290). -/
def configuredShifter (fs fr : F64) (fl : Nat) (p : Shifter) : Shifter :=
  { resetBuffer (setGeometry { p with fs := fs, fr := fr, floor := fl }) with cfg := true }

/-- A shifter given a sample frequency: the same value changes nothing, another one resets the buffer
(R170, R266, conflict C3). -/
def shifterWithFs (fs : F64) (p : Shifter) : Shifter :=
  if real fs = real p.fs then p else resetBuffer (setGeometry { p with fs := fs })

/-- A shifter given a reference frequency, likewise (R170, R267). -/
def shifterWithFr (fr : F64) (p : Shifter) : Shifter :=
  if real fr = real p.fr then p else resetBuffer (setGeometry { p with fr := fr })

/-! ### Commands -/

/-- PCFG fl (R265). -/
def execPcfg (fl : Nat) (s : State) : Result :=
  if shiftValid s.params s.arg0 s.arg1 fl then
    complete { s with ps := configuredShifter s.arg0 s.arg1 fl s.ps }
  else raise .invalidParameter .ps s

/-- PSETFS (R266). -/
def execPsetfs (s : State) : Result :=
  if s.ps.cfg = false then raise .notConfigured .ps s
  else if shiftValid s.params s.arg0 s.ps.fr s.ps.floor then
    complete { s with ps := shifterWithFs s.arg0 s.ps }
  else raise .invalidParameter .ps s

/-- PSETFR (R267). -/
def execPsetfr (s : State) : Result :=
  if s.ps.cfg = false then raise .notConfigured .ps s
  else if shiftValid s.params s.ps.fs s.arg0 s.ps.floor then
    complete { s with ps := shifterWithFr s.arg0 s.ps }
  else raise .invalidParameter .ps s

/-- PSHIFT (R268). -/
def execPshift (s : State) : Result :=
  if s.ps.cfg = false then raise .notConfigured .ps s
  else complete { s with ps := (shiftStep s.ps s.arg0).1, res0 := (shiftStep s.ps s.arg0).2 }

end Sys2Proof.Machine
end

