-- ==== Sys2Proof/Machine/Acquisition.lean ====
section
/-! DEFINITION. The core's channel and demodulation commands: CCONN, CACQ, CDEMOD, CSTEP
(43_lockin_core.md sections 2 and 3, 44_acquisition_interface.md). -/

namespace Sys2Proof.Machine

/-! ### Acquiring (R301) -/

/-- What AcquirePair ends in. -/
inductive Acquired where
  /-- both values, after the settle wait -/
  | pair (r m : F64) (s : State)
  /-- a Read failed: the values read are discarded and there is no wait -/
  | failed (p : Port) (s : State)
  /-- a source never answers (I11) -/
  | waits (p : Port)
  deriving DecidableEq, Repr

/-- `AcquirePair()`: the reference, then the measured source, then the settle wait (R301). -/
def acquirePair (s : State) : Acquired :=
  match readPort .ref s with
  | (.never, _) => .waits .ref
  | (.fail, s1) => .failed .ref s1
  | (.volts r, s1) =>
    match readPort .med s1 with
    | (.never, _) => .waits .med
    | (.fail, s2) => .failed .med s2
    | (.volts m, s2) => .pair r m (waitSettle s2.core.settle s2)

/-! ### Demodulating (R310) -/

/-- `Demod(r, m)` and the end of its command: the shifter, then F1, then F2 advance, and a filter that
raises leaves the earlier steps done and RES unchanged (R310, R316). -/
def demodulate (r m : F64) (s : State) : Result :=
  let sh := shiftStep s.ps r
  match filterStep s.f1 (mul64 m r) with
  | (f1, none) => raise .numericalInstability .f1 { s with ps := sh.1, f1 := f1 }
  | (f1, some i) =>
    match filterStep s.f2 (mul64 m sh.2) with
    | (f2, none) => raise .numericalInstability .f2 { s with ps := sh.1, f1 := f1, f2 := f2 }
    | (f2, some q) =>
      complete { s with
        ps := sh.1
        f1 := f1
        f2 := f2
        res0 := hypot s.params.estimator i q
        res1 := normPhase (atan2 s.params.estimator q i) }

/-! ### Commands -/

/-- CCONN (R300): REF, then MED; MED is not asked when REF fails. -/
def execCconn (s : State) : Result :=
  if s.core.cfg = false then raise .notConfigured .core s
  else
    match connectPort .ref s with
    | (.never, _) => .fault (.portNeverAnswers .ref)
    | (.fail, s1) => raise .deviceUnavailable (portSrc .ref) s1
    | (.ok, s1) =>
      match connectPort .med s1 with
      | (.never, _) => .fault (.portNeverAnswers .med)
      | (.fail, s2) => raise .deviceUnavailable (portSrc .med) s2
      | (.ok, s2) => complete s2

/-- CACQ (R301). -/
def execCacq (s : State) : Result :=
  if s.core.cfg = false then raise .notConfigured .core s
  else
    match acquirePair s with
    | .waits p => .fault (.portNeverAnswers p)
    | .failed p s1 => raise .acquisitionError (portSrc p) s1
    | .pair r m s1 => complete { s1 with res0 := r, res1 := m }

/-- CDEMOD (R310): r = ARG[0], m = ARG[1]. -/
def execCdemod (s : State) : Result :=
  if s.core.cfg = false then raise .notConfigured .core s
  else demodulate s.arg0 s.arg1 s

/-- CSTEP (R312): acquire, then demodulate; the pair is placed in no register. -/
def execCstep (s : State) : Result :=
  if s.core.cfg = false then raise .notConfigured .core s
  else
    match acquirePair s with
    | .waits p => .fault (.portNeverAnswers p)
    | .failed p s1 => raise .acquisitionError (portSrc p) s1
    | .pair r m s1 => demodulate r m s1

end Sys2Proof.Machine
end

