-- ==== Sys2Proof/Machine/CoreCommands.lean ====
section
/-! DEFINITION. The core's configuring commands: CINIT, CSETFS, CSETFR, CSETORD (43_lockin_core.md
section 1). Every check comes before any change, in the order PS, F1, F2, CORE (R415). -/

namespace Sys2Proof.Machine

/-- The state CINIT commits once its checks have passed (R290). -/
def constructedCore (n : Nat) (s : State) : State :=
  { s with
    ps := configuredShifter s.arg1 s.arg0 Config.coreFloor s.ps
    f1 := configuredFilter s.params n (cutoffOf s.arg0) s.arg1 s.f1
    f2 := configuredFilter s.params n (cutoffOf s.arg0) s.arg1 s.f2
    core := { cfg := true, settle := s.arg2 } }

/-- CINIT N (R290): fr = ARG[0], fs = ARG[1], settle = ARG[2]. -/
def execCinit (n : Nat) (s : State) : Result :=
  if shiftValid s.params s.arg1 s.arg0 Config.coreFloor = false then raise .invalidParameter .ps s
  else if filterValid s.params n (cutoffOf s.arg0) s.arg1 = false then
    raise .invalidParameter .f1 s
  else if filterValid s.params n (cutoffOf s.arg0) s.arg1 = false then
    raise .invalidParameter .f2 s
  else if validSettle s.arg2 = false then raise .invalidParameter .core s
  else complete (constructedCore n s)

/-- CSETFS (R291). -/
def execCsetfs (s : State) : Result :=
  if s.core.cfg = false then raise .notConfigured .core s
  else if shiftValid s.params s.arg0 s.ps.fr s.ps.floor = false then
    raise .invalidParameter .ps s
  else if filterValid s.params s.f1.order s.f1.fc s.arg0 = false then
    raise .invalidParameter .f1 s
  else if filterValid s.params s.f2.order s.f2.fc s.arg0 = false then
    raise .invalidParameter .f2 s
  else
    complete { s with
      ps := shifterWithFs s.arg0 s.ps
      f1 := loadCoeffs s.params { s.f1 with fs := s.arg0 }
      f2 := loadCoeffs s.params { s.f2 with fs := s.arg0 } }

/-- CSETFR (R292): the filters' cutoff follows the reference at fr / 10. -/
def execCsetfr (s : State) : Result :=
  if s.core.cfg = false then raise .notConfigured .core s
  else if shiftValid s.params s.ps.fs s.arg0 s.ps.floor = false then
    raise .invalidParameter .ps s
  else if filterValid s.params s.f1.order (cutoffOf s.arg0) s.f1.fs = false then
    raise .invalidParameter .f1 s
  else if filterValid s.params s.f2.order (cutoffOf s.arg0) s.f2.fs = false then
    raise .invalidParameter .f2 s
  else
    complete { s with
      ps := shifterWithFr s.arg0 s.ps
      f1 := loadCoeffs s.params { s.f1 with fc := cutoffOf s.arg0 }
      f2 := loadCoeffs s.params { s.f2 with fc := cutoffOf s.arg0 } }

/-- CSETORD N (R293): the shifter has no order and is not touched. -/
def execCsetord (n : Nat) (s : State) : Result :=
  if s.core.cfg = false then raise .notConfigured .core s
  else if filterValid s.params n s.f1.fc s.f1.fs = false then raise .invalidParameter .f1 s
  else if filterValid s.params n s.f2.fc s.f2.fs = false then raise .invalidParameter .f2 s
  else
    complete { s with
      f1 := reorderedFilter s.params n s.f1
      f2 := reorderedFilter s.params n s.f2 }

end Sys2Proof.Machine
end

