-- ==== Sys2Proof/Machine/Dispatch.lean ====
section
/-! DEFINITION. One arm per command (R125). -/

namespace Sys2Proof.Machine

def exec (i : Instr) (s : State) : Host.Outcome State Fault Refusal :=
  match i with
  | .fcfg u n => Sys2Proof.Machine.execFcfg u n s
  | .fsetfs u => Sys2Proof.Machine.execFsetfs u s
  | .fsetfc u => Sys2Proof.Machine.execFsetfc u s
  | .fsetord u n => Sys2Proof.Machine.execFsetord u n s
  | .ffilt u => Sys2Proof.Machine.execFfilt u s
  | .pcfg fl => Sys2Proof.Machine.execPcfg fl s
  | .psetfs => Sys2Proof.Machine.execPsetfs s
  | .psetfr => Sys2Proof.Machine.execPsetfr s
  | .pshift => Sys2Proof.Machine.execPshift s
  | .cinit n => Sys2Proof.Machine.execCinit n s
  | .csetfs => Sys2Proof.Machine.execCsetfs s
  | .csetfr => Sys2Proof.Machine.execCsetfr s
  | .csetord n => Sys2Proof.Machine.execCsetord n s
  | .cconn => Sys2Proof.Machine.execCconn s
  | .cacq => Sys2Proof.Machine.execCacq s
  | .cdemod => Sys2Proof.Machine.execCdemod s
  | .cstep => Sys2Proof.Machine.execCstep s

end Sys2Proof.Machine
end

