-- ==== Sys2Proof/Machine/Bus.lean ====
section
/-! DEFINITION. What the block does with one input: a host access to the register window, or reset
(R85 to R98, R420, R450, R451). A command is one atomic step (R97, R473). -/

namespace Sys2Proof.Machine

/-- The command word is decoded and executed; an illegal word raises ILLEGAL_COMMAND and changes
nothing but STATUS (R85, R126, R127, R402). -/
def runCommand (w : Word) (s : State) : Result :=
  match decodeWord w with
  | .ok i => exec i s
  | .error _ => raise .illegalCommand .decode s

/-- The offset in the window of an address on the host's bus (R80). -/
def windowOffset (s : State) (addr : Nat) : Option Nat :=
  if s.params.base ≤ addr ∧ addr < s.params.base + 256 then some (addr - s.params.base) else none

/-- A host read: the register's content goes to the host, and nothing else changes (R87). -/
def busRead (addr n : Nat) (s : State) : Result :=
  match windowOffset s addr with
  | none => .fault .outsideWindow
  | some off =>
    if accessAllowed off n then .next { s with hostData := some (windowRead s off n) }
    else .fault .busError

/-- A host write: to CMD it executes a command, elsewhere it stores or is ignored (R85, R86, R89, R90). -/
def busWrite (addr n : Nat) (data : BitVec 64) (s : State) : Result :=
  match windowOffset s addr with
  | none => .fault .outsideWindow
  | some off =>
    if accessAllowed off n then
      if regAt off = some .cmd then runCommand (data.setWidth 32) s
      else .next (windowWrite s off n data)
    else .fault .busError

/-- One input. A command that reset aborts leaves the reset state, whatever point it had reached, and
none of its effects (R451). -/
def takeInput (e : Event) (s : State) : Result :=
  match e with
  | .read addr n => busRead addr n s
  | .write addr n data => busWrite addr n data s
  | .reset => .next s.afterReset
  | .commandReset _ => .next s.afterReset

/-- The next input is served before any other (R95). With no input the block has nothing to do: it has
no activity of its own (R435, R452). -/
def serveNext (s : State) : Result :=
  match s.inputs with
  | [] => .next s
  | e :: rest => takeInput e { s with inputs := rest }

/-- The host's next access is a 4-byte write of `w` to CMD (R85). -/
def State.issue (s : State) (w : Word) : State :=
  { s with inputs := .write s.params.base 4 (w.setWidth 64) :: s.inputs }

end Sys2Proof.Machine
end

