-- ==== Sys2Proof/Machine/Step.lean ====
section
/-! DEFINITION. One step of the machine: the next access of the host, with a whole command inside a
write to CMD, or a reset (R85, R473). The block has no program counter and fetches nothing (R41, R98):
the next instruction is the next word the host writes to CMD. -/

namespace Sys2Proof.Machine

def step (s : State) : Host.Outcome State Fault Refusal := serveNext s

/-- The host's next access is a write to CMD of the command word `w` (its bits above `nbits` zero), so
the very next step runs it. -/
def State.withFetchWord (s : State) (nbits w : Nat) : State :=
  s.issue (BitVec.ofNat 32 (w % 2 ^ nbits))

end Sys2Proof.Machine
end

