-- ==== Sys2Proof/Machine/Assembler.lean ====
section
/-! DEFINITION. The assembler's view of the block (R128 to R130): command lines, the host's register
accesses, and the pseudo-instructions with their expansions into accesses. -/

namespace Sys2Proof.Machine

/-- An encoded operand of a command line: a filter unit or a decimal number (R128). -/
inductive AsmOperand where
  | unit (u : FilterUnit)
  | number (n : Nat)
  deriving DecidableEq, Repr

/-- A command line: the mnemonic, then the operands (R128). -/
structure AsmLine where
  mnemonic : String
  operands : List AsmOperand
  deriving DecidableEq, Repr

/-- The command a line names (R128); `PCFG` without an operand is `PCFG 4` (R130). -/
def parseLine (l : AsmLine) : Option Instr :=
  match l.operands with
  | [.unit u, .number n] =>
    if l.mnemonic = "FCFG" then some (.fcfg u n)
    else if l.mnemonic = "FSETORD" then some (.fsetord u n)
    else none
  | [.unit u] =>
    if l.mnemonic = "FSETFS" then some (.fsetfs u)
    else if l.mnemonic = "FSETFC" then some (.fsetfc u)
    else if l.mnemonic = "FFILT" then some (.ffilt u)
    else none
  | [.number n] =>
    if l.mnemonic = "PCFG" then some (.pcfg n)
    else if l.mnemonic = "CINIT" then some (.cinit n)
    else if l.mnemonic = "CSETORD" then some (.csetord n)
    else none
  | [] =>
    if l.mnemonic = "PCFG" then some (.pcfg Config.coreFloor)
    else if l.mnemonic = "PSETFS" then some .psetfs
    else if l.mnemonic = "PSETFR" then some .psetfr
    else if l.mnemonic = "PSHIFT" then some .pshift
    else if l.mnemonic = "CSETFS" then some .csetfs
    else if l.mnemonic = "CSETFR" then some .csetfr
    else if l.mnemonic = "CCONN" then some .cconn
    else if l.mnemonic = "CACQ" then some .cacq
    else if l.mnemonic = "CDEMOD" then some .cdemod
    else if l.mnemonic = "CSTEP" then some .cstep
    else none
  | _ => none

/-- The line that names a command (R128). -/
def asmLineOf : Instr → AsmLine
  | .fcfg u n => ⟨"FCFG", [.unit u, .number n]⟩
  | .fsetfs u => ⟨"FSETFS", [.unit u]⟩
  | .fsetfc u => ⟨"FSETFC", [.unit u]⟩
  | .fsetord u n => ⟨"FSETORD", [.unit u, .number n]⟩
  | .ffilt u => ⟨"FFILT", [.unit u]⟩
  | .pcfg n => ⟨"PCFG", [.number n]⟩
  | .psetfs => ⟨"PSETFS", []⟩
  | .psetfr => ⟨"PSETFR", []⟩
  | .pshift => ⟨"PSHIFT", []⟩
  | .cinit n => ⟨"CINIT", [.number n]⟩
  | .csetfs => ⟨"CSETFS", []⟩
  | .csetfr => ⟨"CSETFR", []⟩
  | .csetord n => ⟨"CSETORD", [.number n]⟩
  | .cconn => ⟨"CCONN", []⟩
  | .cacq => ⟨"CACQ", []⟩
  | .cdemod => ⟨"CDEMOD", []⟩
  | .cstep => ⟨"CSTEP", []⟩

/-- The word the assembler emits; it rejects an order or floor outside 0 to 255 (R128). -/
def assembleLine (l : AsmLine) : Option Word :=
  match parseLine l with
  | some i => if i.wf then some (encodeWord i) else none
  | none => none

/-! ### The text of a line (R128): a comment starts at `;`, operands are separated by commas -/

/-- The words of a line: maximal runs of characters other than blanks and commas. -/
def lineWords : List Char → List Char → List (List Char)
  | [], w => if w.isEmpty then [] else [w.reverse]
  | c :: cs, w =>
    if c = ';' then (if w.isEmpty then [] else [w.reverse])
    else if c = ' ' ∨ c = ',' ∨ c = '\t' then
      (if w.isEmpty then lineWords cs [] else w.reverse :: lineWords cs [])
    else lineWords cs (c :: w)

/-- A decimal number. -/
def decimalOf : List Char → Nat → Option Nat
  | [], n => some n
  | c :: cs, n =>
    if '0'.toNat ≤ c.toNat ∧ c.toNat ≤ '9'.toNat then decimalOf cs (10 * n + (c.toNat - '0'.toNat))
    else none

def operandOf (w : List Char) : Option AsmOperand :=
  if w = ['F', '1'] then some (.unit .f1)
  else if w = ['F', '2'] then some (.unit .f2)
  else (decimalOf w 0).map .number

/-- A line of text as a command line; none for a blank line or an operand that is neither a unit nor a
decimal number. -/
def lineOfText (text : List Char) : Option AsmLine :=
  match lineWords text [] with
  | [] => none
  | m :: ops => (ops.mapM operandOf).map fun os => ⟨String.ofList m, os⟩

/-! ### Register accesses and literals (R129) -/

/-- A decimal literal `digits / 10^scale` with a sign, converted by RNE (R129, R161). DESIGN CHOICE
(log 16): a literal of value zero with a minus sign is −0.0, though RNE(0) is +0.0. -/
def decimalLiteral (neg : Bool) (digits scale : Nat) : F64 :=
  rne neg (digits * unitsOne) (10 ^ scale)

/-- One line of a host program: a command line, `WR ARGk, v` or `RD <name>` (R129). -/
inductive AsmOp where
  | command (l : AsmLine)
  | wr (k : Fin 3) (v : F64)
  | rd (r : Reg)
  deriving DecidableEq, Repr

/-- The host access a line stands for; none for a command line the assembler rejects (R129). -/
def asmEvent (base : Nat) : AsmOp → Option Event
  | .command l => (assembleLine l).map fun w => .write base 4 (w.setWidth 64)
  | .wr k v => some (.write (base + 0x08 + 8 * k.val) 8 v)
  | .rd r => some (.read (base + r.offset) r.bytes)

/-! ### Pseudo-instructions (R130) -/

inductive Pseudo where
  | fconf (u : FilterUnit) (n : Nat) (fc fs : F64)
  | filt (u : FilterUnit) (x : F64)
  | pconf (fs fr : F64) (fl : Option Nat)
  | shift (x : F64)
  | init (fr fs settle : F64) (n : Nat)
  | demod (r m : F64)
  | setfs (fs : F64)
  | setfr (fr : F64)
  deriving DecidableEq, Repr

/-- The expansions of R130. -/
def expandPseudo : Pseudo → List AsmOp
  | .fconf u n fc fs => [.wr 0 fc, .wr 1 fs, .command (asmLineOf (.fcfg u n))]
  | .filt u x => [.wr 0 x, .command (asmLineOf (.ffilt u))]
  | .pconf fs fr fl => [.wr 0 fs, .wr 1 fr, .command (asmLineOf (.pcfg (fl.getD Config.coreFloor)))]
  | .shift x => [.wr 0 x, .command (asmLineOf .pshift)]
  | .init fr fs settle n =>
    [.wr 0 fr, .wr 1 fs, .wr 2 settle, .command (asmLineOf (.cinit n))]
  | .demod r m => [.wr 0 r, .wr 1 m, .command (asmLineOf .cdemod)]
  | .setfs fs => [.wr 0 fs, .command (asmLineOf .csetfs)]
  | .setfr fr => [.wr 0 fr, .command (asmLineOf .csetfr)]

/-- A whole host program as the accesses it stands for; none if the assembler rejects a line. -/
def assemble (base : Nat) (ops : List AsmOp) : Option (List Event) := ops.mapM (asmEvent base)

end Sys2Proof.Machine
end

