-- ==== Sys2Proof/Safety.lean ====
section
/-! DEFINITION. What claims are stated in terms of: the invariant of the machine, the rules on which
STATUS values occur, and short runs of one command. -/

namespace Sys2Proof.Machine

/-! ### The invariant -/

/-- A filter unit is at its reset values until it is configured (R56, R70). Once configured, its triple
is valid (R200), its coefficients are those of Design for it (R201), its histories have order + 1 live
entries (R45), and every history entry is finite (R47). -/
def Filter.Inv (p : Params) (f : Filter) : Prop :=
  (f.cfg = false → f = Filter.reset) ∧
  (f.cfg = true →
    filterValid p f.order f.fc f.fs = true ∧
    f.b = designBs p f.order (wnOf f.fc f.fs) ∧
    f.a = designAs p f.order (wnOf f.fc f.fs) ∧
    f.xh.length = f.order + 1 ∧
    f.yh.length = f.order + 1 ∧
    (∀ v ∈ f.xh, isFinite v = true) ∧
    (∀ v ∈ f.yh, isFinite v = true))

/-- The shifter is at its reset values until it is configured. Once configured, its triple is valid
(R250), its geometry is that of its frequencies (R251) and its buffer has `half` live entries. -/
def Shifter.Inv (p : Params) (h : Shifter) : Prop :=
  (h.cfg = false → h = Shifter.reset) ∧
  (h.cfg = true →
    shiftValid p h.fs h.fr h.floor = true ∧
    h.floor ≤ 255 ∧
    h.half = halfOf h.fs h.fr ∧
    h.quarter = quarterOf h.fs h.fr ∧
    h.buf.length = h.half)

/-- Which ERRSRC values occur with which ERR code (R401). -/
def srcAllowed : ErrKind → ErrSrc → Bool
  | .none, src => src == .none
  | .invalidParameter, src => [ErrSrc.f1, .f2, .ps, .core].contains src
  | .numericalInstability, src => [ErrSrc.f1, .f2].contains src
  | .deviceUnavailable, src => [ErrSrc.ref, .med].contains src
  | .acquisitionError, src => [ErrSrc.ref, .med].contains src
  | .illegalCommand, src => src == .decode
  | .notConfigured, src => [ErrSrc.f1, .f2, .ps, .core].contains src

/-- Which error codes a command can end with (R401, "raised by"); ILLEGAL_COMMAND is raised by no
command, only by an illegal word. -/
def errAllowed : Instr → ErrKind → Bool
  | .fcfg _ _, k => [ErrKind.none, .invalidParameter].contains k
  | .fsetfs _, k => [ErrKind.none, .invalidParameter, .notConfigured].contains k
  | .fsetfc _, k => [ErrKind.none, .invalidParameter, .notConfigured].contains k
  | .fsetord _ _, k => [ErrKind.none, .invalidParameter, .notConfigured].contains k
  | .ffilt _, k => [ErrKind.none, .numericalInstability, .notConfigured].contains k
  | .pcfg _, k => [ErrKind.none, .invalidParameter].contains k
  | .psetfs, k => [ErrKind.none, .invalidParameter, .notConfigured].contains k
  | .psetfr, k => [ErrKind.none, .invalidParameter, .notConfigured].contains k
  | .pshift, k => [ErrKind.none, .notConfigured].contains k
  | .cinit _, k => [ErrKind.none, .invalidParameter].contains k
  | .csetfs, k => [ErrKind.none, .invalidParameter, .notConfigured].contains k
  | .csetfr, k => [ErrKind.none, .invalidParameter, .notConfigured].contains k
  | .csetord _, k => [ErrKind.none, .invalidParameter, .notConfigured].contains k
  | .cconn, k => [ErrKind.none, .deviceUnavailable, .notConfigured].contains k
  | .cacq, k => [ErrKind.none, .acquisitionError, .notConfigured].contains k
  | .cdemod, k => [ErrKind.none, .numericalInstability, .notConfigured].contains k
  | .cstep, k =>
    [ErrKind.none, .numericalInstability, .acquisitionError, .notConfigured].contains k

/-- The machine's invariant: the parameters are in range (R10, R11), every unit keeps its own invariant,
a configured core has its units configured and a valid settle delay (R56, R290), and STATUS holds an
error and a source that belong together (R401). -/
structure State.Inv (s : State) : Prop where
  params : s.params.wf = true
  f1 : s.f1.Inv s.params
  f2 : s.f2.Inv s.params
  ps : s.ps.Inv s.params
  coreReset : s.core.cfg = false → s.core = CoreUnit.reset
  coreUnits : s.core.cfg = true →
    s.f1.cfg = true ∧ s.f2.cfg = true ∧ s.ps.cfg = true ∧ validSettle s.core.settle = true
  status : srcAllowed s.err s.errSrc = true

/-! ### Runs of one command, each with its own operand -/

/-- The outputs of PSHIFT commands with ARG[0] set to each sample in turn; the run ends early if one
does not complete. -/
def pshiftOutputs : State → List F64 → List F64
  | _, [] => []
  | s, x :: xs =>
    match exec .pshift { s with arg0 := x } with
    | .next t => if t.err = .none then t.res0 :: pshiftOutputs t xs else []
    | _ => []

/-- The outputs of FFILT commands on one unit, and the state after them; none if one does not complete
without error. -/
def ffiltRun (u : FilterUnit) : State → List F64 → Option (State × List F64)
  | s, [] => some (s, [])
  | s, x :: xs =>
    match exec (.ffilt u) { s with arg0 := x } with
    | .next t =>
      if t.err = .none then
        match ffiltRun u t xs with
        | some (t', ys) => some (t', t.res0 :: ys)
        | none => none
      else none
    | _ => none

/-! ### What a command's row of R42 names -/

/-- The command's row of R42 names this filter unit's state. -/
def writesFilter : Instr → FilterUnit → Bool
  | .fcfg u _, v => u == v
  | .fsetfs u, v => u == v
  | .fsetfc u, v => u == v
  | .fsetord u _, v => u == v
  | .ffilt u, v => u == v
  | .pcfg _, _ => false
  | .psetfs, _ => false
  | .psetfr, _ => false
  | .pshift, _ => false
  | .cinit _, _ => true
  | .csetfs, _ => true
  | .csetfr, _ => true
  | .csetord _, _ => true
  | .cconn, _ => false
  | .cacq, _ => false
  | .cdemod, _ => true
  | .cstep, _ => true

/-- The command's row of R42 names PS state. -/
def writesShifter (i : Instr) : Bool :=
  match i with
  | .pcfg _ | .psetfs | .psetfr | .pshift | .cinit _ | .csetfs | .csetfr | .cdemod | .cstep => true
  | .fcfg _ _ | .fsetfs _ | .fsetfc _ | .fsetord _ _ | .ffilt _ | .csetord _ | .cconn | .cacq => false

/-- The command's row of R42 names core state. -/
def writesCore (i : Instr) : Bool :=
  match i with
  | .cinit _ => true
  | .fcfg _ _ | .fsetfs _ | .fsetfc _ | .fsetord _ _ | .ffilt _ | .pcfg _ | .psetfs | .psetfr
  | .pshift | .csetfs | .csetfr | .csetord _ | .cconn | .cacq | .cdemod | .cstep => false

/-- The command's row of R42 names RES[0]. -/
def writesRes0 (i : Instr) : Bool :=
  match i with
  | .ffilt _ | .pshift | .cacq | .cdemod | .cstep => true
  | .fcfg _ _ | .fsetfs _ | .fsetfc _ | .fsetord _ _ | .pcfg _ | .psetfs | .psetfr
  | .cinit _ | .csetfs | .csetfr | .csetord _ | .cconn => false

/-- The command's row of R42 names RES[1]. -/
def writesRes1 (i : Instr) : Bool :=
  match i with
  | .cacq | .cdemod | .cstep => true
  | .fcfg _ _ | .fsetfs _ | .fsetfc _ | .fsetord _ _ | .ffilt _ | .pcfg _ | .psetfs | .psetfr
  | .pshift | .cinit _ | .csetfs | .csetfr | .csetord _ | .cconn => false

/-- The command issues a request on the channel ports (R350). -/
def asksPorts (i : Instr) : Bool :=
  match i with
  | .cconn | .cacq | .cstep => true
  | .fcfg _ _ | .fsetfs _ | .fsetfc _ | .fsetord _ _ | .ffilt _ | .pcfg _ | .psetfs | .psetfr
  | .pshift | .cinit _ | .csetfs | .csetfr | .csetord _ | .cdemod => false

/-- An access the window takes, from the offsets of R81: 4 bytes at every multiple of 4, or 8 bytes at
every multiple of 8 but the offsets of CMD, CAPS, ORDERS and PS_QUARTER, where a 32-bit register stands
(R83, R84, R89). -/
def takenAccess (off n : Nat) : Prop :=
  (n = 4 ∧ off % 4 = 0) ∨
  (n = 8 ∧ off % 8 = 0 ∧ off ≠ 0x00 ∧ off ≠ 0x30 ∧ off ≠ 0x78 ∧ off ≠ 0x80)

/-! ### Vocabulary of the signal claims -/

/-- Every live coefficient of the unit is finite (R230). -/
def finiteCoeffs (f : Filter) : Prop :=
  ∀ i ≤ f.order, isFinite (entry f.b i) = true ∧ isFinite (entry f.a i) = true

/-- Every history entry of the unit is +0.0 or −0.0. -/
def zeroHistory (f : Filter) : Prop :=
  (∀ v ∈ f.xh, isZero v = true) ∧ (∀ v ∈ f.yh, isZero v = true)

/-- The recursion of R210 in the order of R211: two left-to-right sums over the index i. -/
def recursionOutput (f : Filter) (x : F64) : F64 :=
  let n := f.order
  let xn := fun i => if i = 0 then x else entry f.xh (n + 1 - i)
  let yn := fun i => entry f.yh (n + 1 - i)
  let sb := (List.range n).foldl
    (fun acc i => add64 acc (mul64 (entry f.b (i + 1)) (xn (i + 1)))) (mul64 (entry f.b 0) (xn 0))
  let sa := (List.range (n - 1)).foldl
    (fun acc i => add64 acc (mul64 (entry f.a (i + 2)) (yn (i + 2)))) (mul64 (entry f.a 1) (yn 1))
  sub64 sb sa

/-- `l[1..n] ++ [x]`. -/
def pushed (n : Nat) (l : List F64) (x : F64) : List F64 :=
  (List.range n).map (fun i => entry l (i + 1)) ++ [x]

/-- The unit after a finite step with input `x` and output `y` (R212). -/
def advanced (f : Filter) (x y : F64) : Filter :=
  { f with xh := pushed f.order f.xh x, yh := pushed f.order f.yh y }

/-- The shifter after a step with input `x` (R255). -/
def advancedShifter (h : Shifter) (x : F64) : Shifter :=
  { h with buf := pushed (h.half - 1) h.buf x }

/-- What that step returns: the entry at index H − 1 − q (R255). -/
def delayedSample (h : Shifter) (x : F64) : F64 :=
  entry (pushed (h.half - 1) h.buf x) (h.half - 1 - h.quarter)

end Sys2Proof.Machine
end

