-- ==== Sys2Proof/Certificates/Slice0/Obligations.lean ====
section
/-! DEFINITION. The statements for the provers, each from the rules its docstring names. -/

open Sys2Proof Sys2Proof.Machine

/-! ### Reset -/

/-- R70, R450: the state after reset. Every sequence entry, at every index, reads +0.0. -/
def Obligations.ResetHoldsTheValuesOfTheSpec : Prop :=
  State.reset.arg0 = 0#64 ∧ State.reset.arg1 = 0#64 ∧ State.reset.arg2 = 0#64 ∧
  State.reset.res0 = 0#64 ∧ State.reset.res1 = 0#64 ∧ statusWord State.reset = 0#32 ∧
  (∀ u, (State.reset.filter u).cfg = false ∧ (State.reset.filter u).fault = false ∧
    (State.reset.filter u).order = 0 ∧ (State.reset.filter u).fc = 0#64 ∧
    (State.reset.filter u).fs = 0#64 ∧
    ∀ i, entry (State.reset.filter u).b i = 0#64 ∧ entry (State.reset.filter u).a i = 0#64 ∧
      entry (State.reset.filter u).xh i = 0#64 ∧ entry (State.reset.filter u).yh i = 0#64) ∧
  State.reset.ps.cfg = false ∧ State.reset.ps.floor = 0 ∧ State.reset.ps.fs = 0#64 ∧
  State.reset.ps.fr = 0#64 ∧ State.reset.ps.half = 0 ∧ State.reset.ps.quarter = 0 ∧
  (∀ i, entry State.reset.ps.buf i = 0#64) ∧
  State.reset.core.cfg = false ∧ State.reset.core.settle = 0#64 ∧
  capsWord State.reset =
    BitVec.ofNat 24 State.reset.params.hmax ++ BitVec.ofNat 8 State.reset.params.nmax

/-- R450, R451: asserted between accesses or while a command executes, reset leaves the reset state:
no effect of the command survives, and it writes no STATUS. CAPS does not change (R63), nor do the other
parameters (R68), and the sources are asked nothing (R450). That an answer discarded by an abort is not
among those a source has ready is the model's convention (log 3). -/
def Obligations.ResetInputLeavesTheResetState : Prop :=
  ∀ (s : State) (e : Event) (rest : List Event) (w : Word),
    s.inputs = e :: rest → (e = .reset ∨ e = .commandReset w) →
    step s = .next { State.reset with
      params := s.params, ref := s.ref, med := s.med, inputs := rest, hostData := s.hostData }

/-! ### The machine's invariant -/

/-- The invariant holds of the state after reset. NMAX and HMAX there are the model's choice (log 1). -/
def Obligations.ResetMeetsTheInvariant : Prop := State.reset.Inv

/-- Every step from a state that meets the invariant gives one that meets it: coefficients stay those of
Design, histories stay finite and of their length, the shifter's geometry stays that of its
frequencies, and STATUS stays a legal pair (R47, R51, R56, R401). -/
def Obligations.EveryStepKeepsTheInvariant : Prop :=
  ∀ s t : State, s.Inv → step s = .next t → t.Inv

/-- R47: after every step, storage above the order is +0.0 and every history entry is finite. -/
def Obligations.StorageInvariantAfterEveryStep : Prop :=
  ∀ s t : State, s.Inv → step s = .next t → ∀ u,
    (∀ i, (t.filter u).order < i →
      entry (t.filter u).b i = posZero ∧ entry (t.filter u).a i = posZero ∧
      entry (t.filter u).xh i = posZero ∧ entry (t.filter u).yh i = posZero) ∧
    (∀ i, isFinite (entry (t.filter u).xh i) = true ∧ isFinite (entry (t.filter u).yh i) = true)

/-- R51: after every step, a configured shifter has the geometry of its frequencies, in range, and
nothing but +0.0 above its live buffer. -/
def Obligations.ShifterGeometryAfterEveryStep : Prop :=
  ∀ s t : State, s.Inv → step s = .next t → t.ps.cfg = true →
    t.ps.half = halfOf t.ps.fs t.ps.fr ∧ t.ps.quarter = quarterOf t.ps.fs t.ps.fr ∧
    1 ≤ t.ps.half ∧ t.ps.half ≤ t.params.hmax ∧ t.ps.quarter + 1 ≤ t.ps.half ∧
    ∀ j, t.ps.half ≤ j → entry t.ps.buf j = posZero

/-- R56: a configured core has its three units configured, CINIT sets the four `cfg` bits together, and
a reset, and no other step, clears a `cfg` bit. -/
def Obligations.OnlyResetClearsCfgBits : Prop :=
  (∀ s t : State, s.Inv → step s = .next t → t.core.cfg = true →
    t.ps.cfg = true ∧ t.f1.cfg = true ∧ t.f2.cfg = true) ∧
  (∀ s t : State, s.inputs.head? ≠ some .reset → (∀ w, s.inputs.head? ≠ some (.commandReset w)) →
    step s = .next t →
    (s.f1.cfg = true → t.f1.cfg = true) ∧ (s.f2.cfg = true → t.f2.cfg = true) ∧
    (s.ps.cfg = true → t.ps.cfg = true) ∧ (s.core.cfg = true → t.core.cfg = true)) ∧
  (∀ (n : Nat) (s t : State), exec (.cinit n) s = .next t → t.err = .none →
    t.core.cfg = true ∧ t.ps.cfg = true ∧ t.f1.cfg = true ∧ t.f2.cfg = true) ∧
  (∀ s t : State, s.inputs.head? = some .reset → step s = .next t →
    t.f1.cfg = false ∧ t.f2.cfg = false ∧ t.ps.cfg = false ∧ t.core.cfg = false)

/-! ### Command words -/

/-- The decoder gives back every encodable command, from its word and from its bytes (R120 to R126). -/
def Obligations.DecodeOfEncodeIsTheCommand : Prop :=
  ∀ i : Instr, i.WellFormed →
    decodeWord (encodeWord i) = .ok i ∧
    ∀ rest : List Byte, decodeBytes (encode i ++ rest) = .ok (i, rest)

/-- A command has one word: what decodes to it is its encoding, and it is encodable (R120, R127). -/
def Obligations.EncodeOfDecodeIsTheWord : Prop :=
  ∀ (w : Word) (i : Instr), decodeWord w = .ok i → i.WellFormed ∧ encodeWord i = w

/-- R125, R126: the rows are those of the opcode map, a word decodes to a command exactly when it matches
the command's row, with the unit and the immediate of its fields, and no two rows match the same word. -/
def Obligations.MatchingRowIsTheOnlyOne : Prop :=
  opcodeTable.map (fun r => (r.mnemonic, r.pattern, r.mask)) =
    [("FCFG", 0x00000010#32, 0x00FFFEFF#32), ("FSETFS", 0x00000011#32, 0xFFFFFEFF#32),
     ("FSETFC", 0x00000012#32, 0xFFFFFEFF#32), ("FSETORD", 0x00000013#32, 0x00FFFEFF#32),
     ("FFILT", 0x00000014#32, 0xFFFFFEFF#32), ("PCFG", 0x00000020#32, 0x00FFFFFF#32),
     ("PSETFS", 0x00000021#32, 0xFFFFFFFF#32), ("PSETFR", 0x00000022#32, 0xFFFFFFFF#32),
     ("PSHIFT", 0x00000023#32, 0xFFFFFFFF#32), ("CINIT", 0x00000030#32, 0x00FFFFFF#32),
     ("CSETFS", 0x00000031#32, 0xFFFFFFFF#32), ("CSETFR", 0x00000032#32, 0xFFFFFFFF#32),
     ("CSETORD", 0x00000033#32, 0x00FFFFFF#32), ("CCONN", 0x00000034#32, 0xFFFFFFFF#32),
     ("CACQ", 0x00000035#32, 0xFFFFFFFF#32), ("CDEMOD", 0x00000036#32, 0xFFFFFFFF#32),
     ("CSTEP", 0x00000037#32, 0xFFFFFFFF#32)] ∧
  (∀ (u : FilterUnit) (n : Nat), opcodeTable.map (fun r => r.build u n) =
    [.fcfg u n, .fsetfs u, .fsetfc u, .fsetord u n, .ffilt u, .pcfg n, .psetfs, .psetfr, .pshift,
     .cinit n, .csetfs, .csetfr, .csetord n, .cconn, .cacq, .cdemod, .cstep]) ∧
  ∀ w : Word,
    (∀ i : Instr, decodeWord w = .ok i ↔ ∃ r ∈ opcodeTable, w &&& r.mask = r.pattern ∧
      i = r.build (if w.getLsbD 8 = true then .f2 else .f1) (w.extractLsb' 24 8).toNat) ∧
    ∀ r ∈ opcodeTable, ∀ r' ∈ opcodeTable, w &&& r.mask = r.pattern →
      w &&& r'.mask = r'.pattern → r'.mnemonic = r.mnemonic

/-- R127, R402: a word is illegal exactly in the four cases, and writing it to CMD changes nothing but
STATUS.ERR and STATUS.ERRSRC. -/
def Obligations.IllegalWordsAreTheFourCases : Prop :=
  ∀ w : Word,
    ((∃ e, decodeWord w = .error e) ↔
      opcOf w ∉ [0x10#8, 0x11#8, 0x12#8, 0x13#8, 0x14#8, 0x20#8, 0x21#8, 0x22#8, 0x23#8,
        0x30#8, 0x31#8, 0x32#8, 0x33#8, 0x34#8, 0x35#8, 0x36#8, 0x37#8] ∨
      rsvOf w ≠ 0#15 ∨
      (opcOf w ∉ [0x10#8, 0x11#8, 0x12#8, 0x13#8, 0x14#8] ∧ w.getLsbD 8 = true) ∨
      (opcOf w ∉ [0x10#8, 0x13#8, 0x20#8, 0x30#8, 0x33#8] ∧ immOf w ≠ 0)) ∧
    ∀ (s : State) (rest : List Event),
      s.inputs = .write s.params.base 4 (w.setWidth 64) :: rest → (∃ e, decodeWord w = .error e) →
      step s = .next { s with inputs := rest, err := .illegalCommand, errSrc := .decode }

/-- R131: the spec's example words. -/
def Obligations.ExampleWordsDecodeAsListed : Prop :=
  decodeWord 0x02000010#32 = .ok (.fcfg .f1 2) ∧ decodeWord 0x02000110#32 = .ok (.fcfg .f2 2) ∧
  decodeWord 0x00000111#32 = .ok (.fsetfs .f2) ∧ decodeWord 0x00000012#32 = .ok (.fsetfc .f1) ∧
  decodeWord 0x03000113#32 = .ok (.fsetord .f2 3) ∧ decodeWord 0x00000014#32 = .ok (.ffilt .f1) ∧
  decodeWord 0x00000114#32 = .ok (.ffilt .f2) ∧ decodeWord 0x04000020#32 = .ok (.pcfg 4) ∧
  decodeWord 0x00000021#32 = .ok .psetfs ∧ decodeWord 0x00000022#32 = .ok .psetfr ∧
  decodeWord 0x00000023#32 = .ok .pshift ∧ decodeWord 0x02000030#32 = .ok (.cinit 2) ∧
  decodeWord 0x00000031#32 = .ok .csetfs ∧ decodeWord 0x00000032#32 = .ok .csetfr ∧
  decodeWord 0x01000033#32 = .ok (.csetord 1) ∧ decodeWord 0x00000034#32 = .ok .cconn ∧
  decodeWord 0x00000035#32 = .ok .cacq ∧ decodeWord 0x00000036#32 = .ok .cdemod ∧
  decodeWord 0x00000037#32 = .ok .cstep ∧
  ∀ w ∈ [0x00000000#32, 0x00000123#32, 0x01000014#32, 0x00000210#32, 0x00000038#32],
    ∃ e, decodeWord w = .error e

/-- The assembler emits a command's word, from the line R128 gives it, and rejects an order or floor above
255; `PCFG` alone is `PCFG 4` (R130). -/
def Obligations.AssemblerEmitsTheEncodedWord : Prop :=
  (∀ i : Instr, i.imm ≤ 255 → assembleLine (asmLineOf i) = some (encodeWord i)) ∧
  (∀ i : Instr, 255 < i.imm → assembleLine (asmLineOf i) = none) ∧
  assembleLine ⟨"PCFG", []⟩ = some 0x04000020#32

/-! ### The register window -/

/-- R85: a 4-byte write to CMD executes the command its word decodes to, within the one step; a read of
CMD returns 0 and has no effect. -/
def Obligations.WriteToCmdRunsTheDecodedCommand : Prop :=
  (∀ (s : State) (w : Word) (i : Instr) (rest : List Event),
    s.inputs = .write s.params.base 4 (w.setWidth 64) :: rest → decodeWord w = .ok i →
    step s = exec i { s with inputs := rest }) ∧
  (∀ (s : State) (rest : List Event), s.inputs = .read s.params.base 4 :: rest →
    step s = .next { s with inputs := rest, hostData := some 0#64 }) ∧
  (∀ (s : State) (w : Nat) (i : Instr), w < 2 ^ 32 → decodeWord (BitVec.ofNat 32 w) = .ok i →
    step (s.withFetchWord 32 w) = exec i s)

/-- R63, R64, R81, R87: a read of a register gives the host its current content and changes nothing
else. -/
def Obligations.ReadGivesTheRegister : Prop :=
  ∀ (s : State) (rest : List Event) (off n : Nat) (v : BitVec 64),
    (off, n, v) ∈
      [(0x00, 4, 0#64), (0x04, 4, (statusWord s).setWidth 64), (0x08, 8, s.arg0), (0x10, 8, s.arg1),
       (0x18, 8, s.arg2), (0x20, 8, s.res0), (0x28, 8, s.res1),
       (0x30, 4, 0#32 ++ (BitVec.ofNat 24 s.params.hmax ++ BitVec.ofNat 8 s.params.nmax))] ++
      [(0x40, 8, s.f1.fc), (0x48, 8, s.f1.fs), (0x50, 8, s.f2.fc), (0x58, 8, s.f2.fs),
       (0x60, 8, s.ps.fs), (0x68, 8, s.ps.fr), (0x70, 8, s.core.settle),
       (0x78, 4, 0#40 ++ (BitVec.ofNat 8 s.ps.floor ++ BitVec.ofNat 8 s.f2.order ++
          BitVec.ofNat 8 s.f1.order)),
       (0x7C, 4, 0#40 ++ BitVec.ofNat 24 s.ps.half),
       (0x80, 4, 0#40 ++ BitVec.ofNat 24 s.ps.quarter)] →
    s.inputs = .read (s.params.base + off) n :: rest →
    step s = .next { s with inputs := rest, hostData := some v }

/-- R82, R83: byte k of a register is its bits [8k+7:8k], every byte of a read is that byte of the window,
and a 4-byte read of a 64-bit register returns the half at its offset. -/
def Obligations.WindowIsLittleEndian : Prop :=
  (∀ (s : State) (r : Reg) (k : Nat), k < r.bytes →
    windowByte s (r.offset + k) = (r.value s).extractLsb' (8 * k) 8) ∧
  (∀ (s : State) (off n k : Nat), accessAllowed off n = true → k < n →
    (windowRead s off n).extractLsb' (8 * k) 8 = windowByte s (off + k)) ∧
  (∀ (s : State) (r : Reg), r.bytes = 8 →
    windowRead s r.offset 4 = ((r.value s).extractLsb' 0 32).setWidth 64 ∧
    windowRead s (r.offset + 4) 4 = ((r.value s).extractLsb' 32 32).setWidth 64)

/-- R83, R84, R420: an access of another width, alignment or extent is a bus error, read or write; every
other read completes. That alignment is taken of the offset from BASE, for every BASE, is the model's
choice (log 8). -/
def Obligations.IllFormedAccessIsABusError : Prop :=
  ∀ (s : State) (rest : List Event) (off n : Nat) (d : BitVec 64), off < 256 →
    (¬ takenAccess off n →
      (s.inputs = .read (s.params.base + off) n :: rest → step s = .fault .busError) ∧
      (s.inputs = .write (s.params.base + off) n d :: rest → step s = .fault .busError)) ∧
    (takenAccess off n → s.inputs = .read (s.params.base + off) n :: rest →
      step s = .next { s with inputs := rest, hostData := some (windowRead s off n) })

/-- A step with no input changes nothing: the block has no activity of its own (R435). An access to an
address outside the window is none of the block's, and the machine stops at it. Both are the model's
conventions (log 4). -/
def Obligations.IdleAndForeignAccesses : Prop :=
  ∀ (s : State) (rest : List Event) (a n : Nat) (d : BitVec 64),
    (s.inputs = [] → step s = .next s) ∧
    ((a < s.params.base ∨ s.params.base + 256 ≤ a) →
      (s.inputs = .read a n :: rest → step s = .fault .outsideWindow) ∧
      (s.inputs = .write a n d :: rest → step s = .fault .outsideWindow))

/-- R86: an 8-byte write changes all of an ARG register and a 4-byte write one half; the rest of the
window reads as before. Nothing but a host write to ARG or a reset changes an ARG register. -/
def Obligations.OnlyHostWritesChangeArg : Prop :=
  (∀ (s : State) (rest : List Event) (d : BitVec 64),
    (s.inputs = .write (s.params.base + 0x08) 8 d :: rest →
      step s = .next { s with inputs := rest, arg0 := d }) ∧
    (s.inputs = .write (s.params.base + 0x10) 8 d :: rest →
      step s = .next { s with inputs := rest, arg1 := d }) ∧
    (s.inputs = .write (s.params.base + 0x18) 8 d :: rest →
      step s = .next { s with inputs := rest, arg2 := d }) ∧
    (s.inputs = .write (s.params.base + 0x08) 4 d :: rest →
      step s = .next { s with inputs := rest,
                              arg0 := s.arg0.extractLsb' 32 32 ++ d.extractLsb' 0 32 }) ∧
    (s.inputs = .write (s.params.base + 0x0C) 4 d :: rest →
      step s = .next { s with inputs := rest,
                              arg0 := d.extractLsb' 0 32 ++ s.arg0.extractLsb' 0 32 }) ∧
    (s.inputs = .write (s.params.base + 0x10) 4 d :: rest →
      step s = .next { s with inputs := rest,
                              arg1 := s.arg1.extractLsb' 32 32 ++ d.extractLsb' 0 32 }) ∧
    (s.inputs = .write (s.params.base + 0x14) 4 d :: rest →
      step s = .next { s with inputs := rest,
                              arg1 := d.extractLsb' 0 32 ++ s.arg1.extractLsb' 0 32 }) ∧
    (s.inputs = .write (s.params.base + 0x18) 4 d :: rest →
      step s = .next { s with inputs := rest,
                              arg2 := s.arg2.extractLsb' 32 32 ++ d.extractLsb' 0 32 }) ∧
    (s.inputs = .write (s.params.base + 0x1C) 4 d :: rest →
      step s = .next { s with inputs := rest,
                              arg2 := d.extractLsb' 0 32 ++ s.arg2.extractLsb' 0 32 })) ∧
  (∀ (s t : State) (rest : List Event) (off n : Nat) (d : BitVec 64),
    0x08 ≤ off → off < 0x20 → s.inputs = .write (s.params.base + off) n d :: rest →
    step s = .next t →
    ∀ a, a < off ∨ off + n ≤ a → windowByte t a = windowByte s a) ∧
  (∀ s t : State, s.inputs.head? ≠ some .reset → (∀ w, s.inputs.head? ≠ some (.commandReset w)) →
    (∀ off n d, 0x08 ≤ off → off < 0x20 →
      s.inputs.head? ≠ some (.write (s.params.base + off) n d)) →
    step s = .next t → t.arg0 = s.arg0 ∧ t.arg1 = s.arg1 ∧ t.arg2 = s.arg2)

/-- R89, R90: a write to a read-only register or to reserved space completes and changes nothing, and
reserved space reads as zero. -/
def Obligations.ReadOnlyAndReservedIgnoreWrites : Prop :=
  (∀ (s : State) (rest : List Event) (off n : Nat) (d : BitVec 64),
    takenAccess off n → (off = 0x04 ∨ (0x20 ≤ off ∧ off < 256)) →
    s.inputs = .write (s.params.base + off) n d :: rest →
    step s = .next { s with inputs := rest }) ∧
  (∀ (s : State) (rest : List Event) (off n : Nat),
    takenAccess off n → ((0x34 ≤ off ∧ off < 0x40) ∨ (0x84 ≤ off ∧ off < 256)) →
    s.inputs = .read (s.params.base + off) n :: rest →
    step s = .next { s with inputs := rest, hostData := some 0#64 })

/-! ### STATUS -/

/-- R60, R61: the fields of STATUS, its reserved bits, its value at reset, that neither a read nor a host
write outside CMD changes ERR or ERRSRC, and that a host write to STATUS is ignored. -/
def Obligations.StatusHasTheFieldsOfTheSpec : Prop :=
  (∀ s : State,
    (statusWord s).extractLsb' 0 4 = s.err.code ∧ (statusWord s).extractLsb' 4 3 = s.errSrc.code ∧
    (statusWord s).getLsbD 7 = false ∧ (statusWord s).getLsbD 8 = s.f1.cfg ∧
    (statusWord s).getLsbD 9 = s.f2.cfg ∧ (statusWord s).getLsbD 10 = s.ps.cfg ∧
    (statusWord s).getLsbD 11 = s.core.cfg ∧ (statusWord s).getLsbD 12 = s.f1.fault ∧
    (statusWord s).getLsbD 13 = s.f2.fault ∧ (statusWord s).extractLsb' 14 18 = 0#18) ∧
  ([ErrSrc.none, .f1, .f2, .ps, .core, .ref, .med, .decode].map ErrSrc.code =
    [0#3, 1#3, 2#3, 3#3, 4#3, 5#3, 6#3, 7#3]) ∧
  ([ErrKind.none, .invalidParameter, .numericalInstability, .deviceUnavailable, .acquisitionError,
      .illegalCommand, .notConfigured].map ErrKind.code = [0#4, 1#4, 2#4, 3#4, 4#4, 5#4, 6#4]) ∧
  (∀ (s t : State) (rest : List Event) (a n : Nat) (d : BitVec 64),
    (s.inputs = .read a n :: rest ∨ (s.inputs = .write a n d :: rest ∧ a ≠ s.params.base)) →
    step s = .next t → t.err = s.err ∧ t.errSrc = s.errSrc) ∧
  statusWord State.reset = 0#32 ∧
  (∀ (s : State) (rest : List Event) (d : BitVec 64),
    s.inputs = .write (s.params.base + 0x04) 4 d :: rest → step s = .next { s with inputs := rest })

/-- R401: a command ends with one of the codes the table says it raises, and the source goes with the
code. -/
def Obligations.CommandsEndWithTheirOwnCodes : Prop :=
  ∀ (i : Instr) (s t : State), exec i s = .next t →
    errAllowed i t.err = true ∧ srcAllowed t.err t.errSrc = true

/-- R62: which commands set and clear each flag, that they do when they succeed, that NUMERICAL_INSTABILITY
leaves the unit's fault set, and that reset clears every flag. -/
def Obligations.FlagsChangeOnlyAsListed : Prop :=
  (∀ (i : Instr) (s t : State), exec i s = .next t →
    (∀ u, (t.filter u).cfg ≠ (s.filter u).cfg →
      (t.filter u).cfg = true ∧ t.err = .none ∧
      ((∃ n, i = .fcfg u n) ∨ (∃ n, i = .cinit n))) ∧
    (t.ps.cfg ≠ s.ps.cfg →
      t.ps.cfg = true ∧ t.err = .none ∧ ((∃ n, i = .pcfg n) ∨ (∃ n, i = .cinit n))) ∧
    (t.core.cfg ≠ s.core.cfg → t.core.cfg = true ∧ t.err = .none ∧ ∃ n, i = .cinit n) ∧
    (∀ u, (s.filter u).fault = false → (t.filter u).fault = true →
      t.err = .numericalInstability ∧ t.errSrc = unitSrc u ∧
      (i = .ffilt u ∨ i = .cdemod ∨ i = .cstep)) ∧
    (∀ u, (s.filter u).fault = true → (t.filter u).fault = false →
      t.err = .none ∧ (t.filter u).xh = zeros ((t.filter u).order + 1) ∧
      (t.filter u).yh = zeros ((t.filter u).order + 1) ∧
      ((∃ n, i = .fcfg u n) ∨ (∃ n, i = .fsetord u n) ∨ (∃ n, i = .cinit n) ∨
        (∃ n, i = .csetord n))) ∧
    (∀ u n, i = .fcfg u n → t.err = .none → (t.filter u).cfg = true ∧ (t.filter u).fault = false) ∧
    (∀ u n, i = .fsetord u n → t.err = .none → (t.filter u).fault = false) ∧
    (∀ n, i = .pcfg n → t.err = .none → t.ps.cfg = true) ∧
    (∀ n, i = .cinit n → t.err = .none → t.core.cfg = true ∧ t.ps.cfg = true ∧
      ∀ u, (t.filter u).cfg = true ∧ (t.filter u).fault = false) ∧
    (∀ n, i = .csetord n → t.err = .none → ∀ u, (t.filter u).fault = false) ∧
    (∀ u, t.err = .numericalInstability → t.errSrc = unitSrc u → (t.filter u).fault = true)) ∧
  (∀ (s : State) (rest : List Event), s.inputs = .reset :: rest →
    ∃ v, step s = .next v ∧ v.core.cfg = false ∧ v.ps.cfg = false ∧
      ∀ u, (v.filter u).cfg = false ∧ (v.filter u).fault = false)

/-! ### Frames and errors -/

/-- R42: what a command's row does not name keeps its value, completed or not. The window bytes of CMD,
ARG, CAPS and reserved space read as before any command. -/
def Obligations.CommandsChangeOnlyWhatTheirRowNames : Prop :=
  ∀ (i : Instr) (s t : State), exec i s = .next t →
    (t.arg0 = s.arg0 ∧ t.arg1 = s.arg1 ∧ t.arg2 = s.arg2) ∧
    (t.params = s.params ∧ t.inputs = s.inputs ∧ t.hostData = s.hostData) ∧
    (∀ u, writesFilter i u = false → t.filter u = s.filter u) ∧
    (writesShifter i = false → t.ps = s.ps) ∧
    (writesCore i = false → t.core = s.core) ∧
    (writesRes0 i = false → t.res0 = s.res0) ∧
    (writesRes1 i = false → t.res1 = s.res1) ∧
    (asksPorts i = false → t.ref = s.ref ∧ t.med = s.med) ∧
    (∀ off, off < 0x04 ∨ (0x08 ≤ off ∧ off < 0x20) ∨ (0x30 ≤ off ∧ off < 0x40) ∨ 0x84 ≤ off →
      windowByte t off = windowByte s off)

/-- R411, R412: on error RES keeps its values, and no command writes an ARG register. An error other than
NUMERICAL_INSTABILITY changes no unit, core or RES state: the state is as before but for STATUS and for the
answers taken from the sources. -/
def Obligations.ErrorsKeepResAndTheUnits : Prop :=
  ∀ (i : Instr) (s t : State), exec i s = .next t →
    (t.err ≠ .none → t.res0 = s.res0 ∧ t.res1 = s.res1) ∧
    (t.arg0 = s.arg0 ∧ t.arg1 = s.arg1 ∧ t.arg2 = s.arg2) ∧
    (t.err ≠ .none → t.err ≠ .numericalInstability →
      t = { s with err := t.err, errSrc := t.errSrc, ref := t.ref, med := t.med })

/-! ### Filter commands -/

/-- R220. -/
def Obligations.FcfgConfiguresTheUnit : Prop :=
  ∀ (u : FilterUnit) (n : Nat) (s : State),
    (filterValid s.params n s.arg0 s.arg1 = true →
      exec (.fcfg u n) s = .next { s.setFilter u
        { cfg := true, fault := false, order := n, fc := s.arg0, fs := s.arg1,
          b := designBs s.params n (wnOf s.arg0 s.arg1),
          a := designAs s.params n (wnOf s.arg0 s.arg1),
          xh := zeros (n + 1), yh := zeros (n + 1) } with err := .none, errSrc := .none }) ∧
    (filterValid s.params n s.arg0 s.arg1 = false →
      exec (.fcfg u n) s = .next { s with err := .invalidParameter, errSrc := unitSrc u })

/-- R221: the histories and the fault are kept. -/
def Obligations.FsetfsReloadsTheCoefficients : Prop :=
  ∀ (u : FilterUnit) (s : State),
    ((s.filter u).cfg = false →
      exec (.fsetfs u) s = .next { s with err := .notConfigured, errSrc := unitSrc u }) ∧
    ((s.filter u).cfg = true →
      filterValid s.params (s.filter u).order (s.filter u).fc s.arg0 = false →
      exec (.fsetfs u) s = .next { s with err := .invalidParameter, errSrc := unitSrc u }) ∧
    ((s.filter u).cfg = true →
      filterValid s.params (s.filter u).order (s.filter u).fc s.arg0 = true →
      exec (.fsetfs u) s = .next { s.setFilter u { s.filter u with
        fs := s.arg0
        b := designBs s.params (s.filter u).order (wnOf (s.filter u).fc s.arg0)
        a := designAs s.params (s.filter u).order (wnOf (s.filter u).fc s.arg0) } with
          err := .none, errSrc := .none })

/-- R222: the histories and the fault are kept. -/
def Obligations.FsetfcReloadsTheCoefficients : Prop :=
  ∀ (u : FilterUnit) (s : State),
    ((s.filter u).cfg = false →
      exec (.fsetfc u) s = .next { s with err := .notConfigured, errSrc := unitSrc u }) ∧
    ((s.filter u).cfg = true →
      filterValid s.params (s.filter u).order s.arg0 (s.filter u).fs = false →
      exec (.fsetfc u) s = .next { s with err := .invalidParameter, errSrc := unitSrc u }) ∧
    ((s.filter u).cfg = true →
      filterValid s.params (s.filter u).order s.arg0 (s.filter u).fs = true →
      exec (.fsetfc u) s = .next { s.setFilter u { s.filter u with
        fc := s.arg0
        b := designBs s.params (s.filter u).order (wnOf s.arg0 (s.filter u).fs)
        a := designAs s.params (s.filter u).order (wnOf s.arg0 (s.filter u).fs) } with
          err := .none, errSrc := .none })

/-- R223: the histories are reset and the fault is cleared. -/
def Obligations.FsetordResetsTheHistories : Prop :=
  ∀ (u : FilterUnit) (n : Nat) (s : State),
    ((s.filter u).cfg = false →
      exec (.fsetord u n) s = .next { s with err := .notConfigured, errSrc := unitSrc u }) ∧
    ((s.filter u).cfg = true →
      filterValid s.params n (s.filter u).fc (s.filter u).fs = false →
      exec (.fsetord u n) s = .next { s with err := .invalidParameter, errSrc := unitSrc u }) ∧
    ((s.filter u).cfg = true →
      filterValid s.params n (s.filter u).fc (s.filter u).fs = true →
      exec (.fsetord u n) s = .next { s.setFilter u { s.filter u with
        order := n
        fault := false
        b := designBs s.params n (wnOf (s.filter u).fc (s.filter u).fs)
        a := designAs s.params n (wnOf (s.filter u).fc (s.filter u).fs)
        xh := zeros (n + 1)
        yh := zeros (n + 1) } with err := .none, errSrc := .none })

/-- R211 to R214, R224: the recursion in its order, the commit of a finite output, and the fault. A faulted
unit, and a non-finite output, change at most the fault bit. -/
def Obligations.FfiltAppliesTheRecursion : Prop :=
  ∀ (u : FilterUnit) (s : State),
    ((s.filter u).cfg = false →
      exec (.ffilt u) s = .next { s with err := .notConfigured, errSrc := unitSrc u }) ∧
    ((s.filter u).cfg = true →
      ((s.filter u).fault = true ∨ isFinite (recursionOutput (s.filter u) s.arg0) = false) →
      exec (.ffilt u) s = .next { s.setFilter u { s.filter u with fault := true } with
        err := .numericalInstability, errSrc := unitSrc u }) ∧
    ((s.filter u).cfg = true → (s.filter u).fault = false →
      isFinite (recursionOutput (s.filter u) s.arg0) = true →
      exec (.ffilt u) s = .next { s.setFilter u
        (advanced (s.filter u) s.arg0 (recursionOutput (s.filter u) s.arg0)) with
          res0 := recursionOutput (s.filter u) s.arg0, err := .none, errSrc := .none })

/-! ### Shifter commands -/

/-- R265. -/
def Obligations.PcfgConfiguresTheShifter : Prop :=
  ∀ (fl : Nat) (s : State),
    (shiftValid s.params s.arg0 s.arg1 fl = true →
      exec (.pcfg fl) s = .next { s with
        ps := { cfg := true, fs := s.arg0, fr := s.arg1, floor := fl, half := halfOf s.arg0 s.arg1,
                quarter := quarterOf s.arg0 s.arg1, buf := zeros (halfOf s.arg0 s.arg1) }
        err := .none, errSrc := .none }) ∧
    (shiftValid s.params s.arg0 s.arg1 fl = false →
      exec (.pcfg fl) s = .next { s with err := .invalidParameter, errSrc := .ps })

/-- R266: the same value changes nothing; another one resets the buffer. -/
def Obligations.PsetfsResetsTheBufferOnAChange : Prop :=
  ∀ s : State,
    (s.ps.cfg = false → exec .psetfs s = .next { s with err := .notConfigured, errSrc := .ps }) ∧
    (s.ps.cfg = true → shiftValid s.params s.arg0 s.ps.fr s.ps.floor = false →
      exec .psetfs s = .next { s with err := .invalidParameter, errSrc := .ps }) ∧
    (s.ps.cfg = true → shiftValid s.params s.arg0 s.ps.fr s.ps.floor = true →
      real s.arg0 = real s.ps.fs →
      exec .psetfs s = .next { s with err := .none, errSrc := .none }) ∧
    (s.ps.cfg = true → shiftValid s.params s.arg0 s.ps.fr s.ps.floor = true →
      real s.arg0 ≠ real s.ps.fs →
      exec .psetfs s = .next { s with
        ps := { s.ps with fs := s.arg0, half := halfOf s.arg0 s.ps.fr,
                          quarter := quarterOf s.arg0 s.ps.fr, buf := zeros (halfOf s.arg0 s.ps.fr) }
        err := .none, errSrc := .none })

/-- R267: the same value changes nothing; another one resets the buffer. -/
def Obligations.PsetfrResetsTheBufferOnAChange : Prop :=
  ∀ s : State,
    (s.ps.cfg = false → exec .psetfr s = .next { s with err := .notConfigured, errSrc := .ps }) ∧
    (s.ps.cfg = true → shiftValid s.params s.ps.fs s.arg0 s.ps.floor = false →
      exec .psetfr s = .next { s with err := .invalidParameter, errSrc := .ps }) ∧
    (s.ps.cfg = true → shiftValid s.params s.ps.fs s.arg0 s.ps.floor = true →
      real s.arg0 = real s.ps.fr →
      exec .psetfr s = .next { s with err := .none, errSrc := .none }) ∧
    (s.ps.cfg = true → shiftValid s.params s.ps.fs s.arg0 s.ps.floor = true →
      real s.arg0 ≠ real s.ps.fr →
      exec .psetfr s = .next { s with
        ps := { s.ps with fr := s.arg0, half := halfOf s.ps.fs s.arg0,
                          quarter := quarterOf s.ps.fs s.arg0, buf := zeros (halfOf s.ps.fs s.arg0) }
        err := .none, errSrc := .none })

/-- R255, R268: it never fails on a configured shifter, for any x. -/
def Obligations.PshiftReturnsTheDelayedSample : Prop :=
  ∀ s : State,
    (s.ps.cfg = false → exec .pshift s = .next { s with err := .notConfigured, errSrc := .ps }) ∧
    (s.ps.cfg = true →
      exec .pshift s = .next { s with ps := advancedShifter s.ps s.arg0,
                                      res0 := delayedSample s.ps s.arg0,
                                      err := .none, errSrc := .none })

/-! ### Core commands -/

/-- R290: the checks in the order PS, F1 (F2's is the same), CORE; nothing changes on error. -/
def Obligations.CinitConstructsTheCore : Prop :=
  ∀ (n : Nat) (s : State),
    (shiftValid s.params s.arg1 s.arg0 4 = false →
      exec (.cinit n) s = .next { s with err := .invalidParameter, errSrc := .ps }) ∧
    (shiftValid s.params s.arg1 s.arg0 4 = true →
      filterValid s.params n (cutoffOf s.arg0) s.arg1 = false →
      exec (.cinit n) s = .next { s with err := .invalidParameter, errSrc := .f1 }) ∧
    (shiftValid s.params s.arg1 s.arg0 4 = true →
      filterValid s.params n (cutoffOf s.arg0) s.arg1 = true →
      (isFinite s.arg2 = false ∨ real s.arg2 < 0) →
      exec (.cinit n) s = .next { s with err := .invalidParameter, errSrc := .core }) ∧
    (shiftValid s.params s.arg1 s.arg0 4 = true →
      filterValid s.params n (cutoffOf s.arg0) s.arg1 = true →
      isFinite s.arg2 = true → 0 ≤ real s.arg2 →
      exec (.cinit n) s = .next { s with
        ps := { cfg := true, fs := s.arg1, fr := s.arg0, floor := 4, half := halfOf s.arg1 s.arg0,
                quarter := quarterOf s.arg1 s.arg0, buf := zeros (halfOf s.arg1 s.arg0) }
        f1 := { cfg := true, fault := false, order := n, fc := cutoffOf s.arg0, fs := s.arg1,
                b := designBs s.params n (wnOf (cutoffOf s.arg0) s.arg1),
                a := designAs s.params n (wnOf (cutoffOf s.arg0) s.arg1),
                xh := zeros (n + 1), yh := zeros (n + 1) }
        f2 := { cfg := true, fault := false, order := n, fc := cutoffOf s.arg0, fs := s.arg1,
                b := designBs s.params n (wnOf (cutoffOf s.arg0) s.arg1),
                a := designAs s.params n (wnOf (cutoffOf s.arg0) s.arg1),
                xh := zeros (n + 1), yh := zeros (n + 1) }
        core := { cfg := true, settle := s.arg2 }
        err := .none, errSrc := .none })

/-- R291: all checks before any change, in the order PS, F1, F2; histories and faults are kept. -/
def Obligations.CsetfsSetsAllThreeUnits : Prop :=
  ∀ s : State,
    (s.core.cfg = false → exec .csetfs s = .next { s with err := .notConfigured, errSrc := .core }) ∧
    (s.core.cfg = true → shiftValid s.params s.arg0 s.ps.fr s.ps.floor = false →
      exec .csetfs s = .next { s with err := .invalidParameter, errSrc := .ps }) ∧
    (s.core.cfg = true → shiftValid s.params s.arg0 s.ps.fr s.ps.floor = true →
      filterValid s.params s.f1.order s.f1.fc s.arg0 = false →
      exec .csetfs s = .next { s with err := .invalidParameter, errSrc := .f1 }) ∧
    (s.core.cfg = true → shiftValid s.params s.arg0 s.ps.fr s.ps.floor = true →
      filterValid s.params s.f1.order s.f1.fc s.arg0 = true →
      filterValid s.params s.f2.order s.f2.fc s.arg0 = false →
      exec .csetfs s = .next { s with err := .invalidParameter, errSrc := .f2 }) ∧
    (s.core.cfg = true → shiftValid s.params s.arg0 s.ps.fr s.ps.floor = true →
      filterValid s.params s.f1.order s.f1.fc s.arg0 = true →
      filterValid s.params s.f2.order s.f2.fc s.arg0 = true →
      exec .csetfs s = .next { s with
        ps := if real s.arg0 = real s.ps.fs then s.ps else
          { s.ps with fs := s.arg0, half := halfOf s.arg0 s.ps.fr,
                      quarter := quarterOf s.arg0 s.ps.fr, buf := zeros (halfOf s.arg0 s.ps.fr) }
        f1 := { s.f1 with fs := s.arg0
                          b := designBs s.params s.f1.order (wnOf s.f1.fc s.arg0)
                          a := designAs s.params s.f1.order (wnOf s.f1.fc s.arg0) }
        f2 := { s.f2 with fs := s.arg0
                          b := designBs s.params s.f2.order (wnOf s.f2.fc s.arg0)
                          a := designAs s.params s.f2.order (wnOf s.f2.fc s.arg0) }
        err := .none, errSrc := .none })

/-- R292: the filters' cutoff follows the reference at fr / 10. -/
def Obligations.CsetfrSetsShifterAndCutoffs : Prop :=
  ∀ s : State,
    (s.core.cfg = false → exec .csetfr s = .next { s with err := .notConfigured, errSrc := .core }) ∧
    (s.core.cfg = true → shiftValid s.params s.ps.fs s.arg0 s.ps.floor = false →
      exec .csetfr s = .next { s with err := .invalidParameter, errSrc := .ps }) ∧
    (s.core.cfg = true → shiftValid s.params s.ps.fs s.arg0 s.ps.floor = true →
      filterValid s.params s.f1.order (cutoffOf s.arg0) s.f1.fs = false →
      exec .csetfr s = .next { s with err := .invalidParameter, errSrc := .f1 }) ∧
    (s.core.cfg = true → shiftValid s.params s.ps.fs s.arg0 s.ps.floor = true →
      filterValid s.params s.f1.order (cutoffOf s.arg0) s.f1.fs = true →
      filterValid s.params s.f2.order (cutoffOf s.arg0) s.f2.fs = false →
      exec .csetfr s = .next { s with err := .invalidParameter, errSrc := .f2 }) ∧
    (s.core.cfg = true → shiftValid s.params s.ps.fs s.arg0 s.ps.floor = true →
      filterValid s.params s.f1.order (cutoffOf s.arg0) s.f1.fs = true →
      filterValid s.params s.f2.order (cutoffOf s.arg0) s.f2.fs = true →
      exec .csetfr s = .next { s with
        ps := if real s.arg0 = real s.ps.fr then s.ps else
          { s.ps with fr := s.arg0, half := halfOf s.ps.fs s.arg0,
                      quarter := quarterOf s.ps.fs s.arg0, buf := zeros (halfOf s.ps.fs s.arg0) }
        f1 := { s.f1 with fc := cutoffOf s.arg0
                          b := designBs s.params s.f1.order (wnOf (cutoffOf s.arg0) s.f1.fs)
                          a := designAs s.params s.f1.order (wnOf (cutoffOf s.arg0) s.f1.fs) }
        f2 := { s.f2 with fc := cutoffOf s.arg0
                          b := designBs s.params s.f2.order (wnOf (cutoffOf s.arg0) s.f2.fs)
                          a := designAs s.params s.f2.order (wnOf (cutoffOf s.arg0) s.f2.fs) }
        err := .none, errSrc := .none })

/-- R293: both filters are reset to the order; the shifter is not touched. -/
def Obligations.CsetordResetsBothFilters : Prop :=
  ∀ (n : Nat) (s : State),
    (s.core.cfg = false →
      exec (.csetord n) s = .next { s with err := .notConfigured, errSrc := .core }) ∧
    (s.core.cfg = true → filterValid s.params n s.f1.fc s.f1.fs = false →
      exec (.csetord n) s = .next { s with err := .invalidParameter, errSrc := .f1 }) ∧
    (s.core.cfg = true → filterValid s.params n s.f1.fc s.f1.fs = true →
      filterValid s.params n s.f2.fc s.f2.fs = false →
      exec (.csetord n) s = .next { s with err := .invalidParameter, errSrc := .f2 }) ∧
    (s.core.cfg = true → filterValid s.params n s.f1.fc s.f1.fs = true →
      filterValid s.params n s.f2.fc s.f2.fs = true →
      exec (.csetord n) s = .next { s with
        f1 := { s.f1 with order := n, fault := false
                          b := designBs s.params n (wnOf s.f1.fc s.f1.fs)
                          a := designAs s.params n (wnOf s.f1.fc s.f1.fs)
                          xh := zeros (n + 1), yh := zeros (n + 1) }
        f2 := { s.f2 with order := n, fault := false
                          b := designBs s.params n (wnOf s.f2.fc s.f2.fs)
                          a := designAs s.params n (wnOf s.f2.fc s.f2.fs)
                          xh := zeros (n + 1), yh := zeros (n + 1) }
        err := .none, errSrc := .none })

/-- R300, R352: REF is asked first, and MED only when REF answered ok; `c` and `d` are the sources after
their answers. A source that never answers leaves the command waiting (I11). -/
def Obligations.CconnAsksRefThenMed : Prop :=
  ∀ (s : State) (c d : Source),
    (s.core.cfg = false → exec .cconn s = .next { s with err := .notConfigured, errSrc := .core }) ∧
    (s.core.cfg = true → s.ref.answerConnect .ref = (.fail, c) →
      exec .cconn s = .next { s with ref := c, err := .deviceUnavailable, errSrc := .ref }) ∧
    (s.core.cfg = true → s.ref.answerConnect .ref = (.ok, c) →
      s.med.answerConnect .med = (.fail, d) →
      exec .cconn s =
        .next { s with ref := c, med := d, err := .deviceUnavailable, errSrc := .med }) ∧
    (s.core.cfg = true → s.ref.answerConnect .ref = (.ok, c) →
      s.med.answerConnect .med = (.ok, d) →
      exec .cconn s = .next { s with ref := c, med := d, err := .none, errSrc := .none }) ∧
    (s.core.cfg = true → s.ref.answerConnect .ref = (.never, c) →
      exec .cconn s = .fault (.portNeverAnswers .ref)) ∧
    (s.core.cfg = true → s.ref.answerConnect .ref = (.ok, c) →
      s.med.answerConnect .med = (.never, d) →
      exec .cconn s = .fault (.portNeverAnswers .med))

/-- R301, R351, R352: the two reads in order, values taken as given. -/
def Obligations.CacqReadsRefThenMed : Prop :=
  ∀ (s : State) (c d : Source) (r m : F64),
    (s.core.cfg = false → exec .cacq s = .next { s with err := .notConfigured, errSrc := .core }) ∧
    (s.core.cfg = true → s.ref.answerRead .ref = (.fail, c) →
      exec .cacq s = .next { s with ref := c, err := .acquisitionError, errSrc := .ref }) ∧
    (s.core.cfg = true → s.ref.answerRead .ref = (.volts r, c) →
      s.med.answerRead .med = (.fail, d) →
      exec .cacq s =
        .next { s with ref := c, med := d, err := .acquisitionError, errSrc := .med }) ∧
    (s.core.cfg = true → s.ref.answerRead .ref = (.volts r, c) →
      s.med.answerRead .med = (.volts m, d) →
      exec .cacq s = .next { s with ref := c, med := d, res0 := r, res1 := m,
                                    err := .none, errSrc := .none }) ∧
    (s.core.cfg = true → s.ref.answerRead .ref = (.never, c) →
      exec .cacq s = .fault (.portNeverAnswers .ref)) ∧
    (s.core.cfg = true → s.ref.answerRead .ref = (.volts r, c) →
      s.med.answerRead .med = (.never, d) →
      exec .cacq s = .fault (.portNeverAnswers .med))

/-- R350, I12: an answer is the next one the source has ready or, with none ready, a free draw, which is
ok or fail for Connect and any binary64 or fail for Read. The list of ready answers and the count of
draws are the model's own (log 3). -/
def Obligations.SourcesAnswerInOrder : Prop :=
  ∀ (p : Port) (c : Source),
    (∀ a rest, c.connects = a :: rest → c.answerConnect p = (a, { c with connects := rest })) ∧
    (∀ a rest, c.reads = a :: rest → c.answerRead p = (a, { c with reads := rest })) ∧
    (c.connects = [] →
      c.answerConnect p = (if Config.connectDraw p c.draws then .ok else .fail,
        { c with draws := c.draws + 1 })) ∧
    (c.reads = [] →
      c.answerRead p = (match Config.readDraw p c.draws with
        | some v => .volts v
        | none => .fail, { c with draws := c.draws + 1 }))

/-- R310, R316: the shifter, then F1 on m × r, then F2 on m × s; the partial effects of a failing step;
magnitude and phase of the two outputs. -/
def Obligations.CdemodDemodulatesThePair : Prop :=
  ∀ s : State,
    let i := recursionOutput s.f1 (mul64 s.arg1 s.arg0)
    let q := recursionOutput s.f2 (mul64 s.arg1 (delayedSample s.ps s.arg0))
    (s.core.cfg = false → exec .cdemod s = .next { s with err := .notConfigured, errSrc := .core }) ∧
    (s.core.cfg = true → (s.f1.fault = true ∨ isFinite i = false) →
      exec .cdemod s = .next { s with
        ps := advancedShifter s.ps s.arg0, f1 := { s.f1 with fault := true }
        err := .numericalInstability, errSrc := .f1 }) ∧
    (s.core.cfg = true → s.f1.fault = false → isFinite i = true →
      (s.f2.fault = true ∨ isFinite q = false) →
      exec .cdemod s = .next { s with
        ps := advancedShifter s.ps s.arg0, f1 := advanced s.f1 (mul64 s.arg1 s.arg0) i
        f2 := { s.f2 with fault := true }, err := .numericalInstability, errSrc := .f2 }) ∧
    (s.core.cfg = true → s.f1.fault = false → isFinite i = true → s.f2.fault = false →
      isFinite q = true →
      exec .cdemod s = .next { s with
        ps := advancedShifter s.ps s.arg0, f1 := advanced s.f1 (mul64 s.arg1 s.arg0) i
        f2 := advanced s.f2 (mul64 s.arg1 (delayedSample s.ps s.arg0)) q
        res0 := hypot s.params.estimator i q
        res1 := normPhase (atan2 s.params.estimator q i), err := .none, errSrc := .none })

/-- R312: an acquisition error ends the command with no unit touched; otherwise the pair is demodulated as
CDEMOD does, and is placed in no register. -/
def Obligations.CstepAcquiresAndDemodulates : Prop :=
  ∀ (s : State) (c d : Source) (r m : F64),
    let i := recursionOutput s.f1 (mul64 m r)
    let q := recursionOutput s.f2 (mul64 m (delayedSample s.ps r))
    (s.core.cfg = false → exec .cstep s = .next { s with err := .notConfigured, errSrc := .core }) ∧
    (s.core.cfg = true → s.ref.answerRead .ref = (.fail, c) →
      exec .cstep s = .next { s with ref := c, err := .acquisitionError, errSrc := .ref }) ∧
    (s.core.cfg = true → s.ref.answerRead .ref = (.volts r, c) →
      s.med.answerRead .med = (.fail, d) →
      exec .cstep s =
        .next { s with ref := c, med := d, err := .acquisitionError, errSrc := .med }) ∧
    (s.core.cfg = true → s.ref.answerRead .ref = (.volts r, c) →
      s.med.answerRead .med = (.volts m, d) →
      ((s.f1.fault = true ∨ isFinite i = false) →
        exec .cstep s = .next { s with
          ref := c, med := d, ps := advancedShifter s.ps r, f1 := { s.f1 with fault := true }
          err := .numericalInstability, errSrc := .f1 }) ∧
      (s.f1.fault = false → isFinite i = true → (s.f2.fault = true ∨ isFinite q = false) →
        exec .cstep s = .next { s with
          ref := c, med := d, ps := advancedShifter s.ps r, f1 := advanced s.f1 (mul64 m r) i
          f2 := { s.f2 with fault := true }, err := .numericalInstability, errSrc := .f2 }) ∧
      (s.f1.fault = false → isFinite i = true → s.f2.fault = false → isFinite q = true →
        exec .cstep s = .next { s with
          ref := c, med := d, ps := advancedShifter s.ps r, f1 := advanced s.f1 (mul64 m r) i
          f2 := advanced s.f2 (mul64 m (delayedSample s.ps r)) q
          res0 := hypot s.params.estimator i q
          res1 := normPhase (atan2 s.params.estimator q i), err := .none, errSrc := .none })) ∧
    (s.core.cfg = true → s.ref.answerRead .ref = (.never, c) →
      exec .cstep s = .fault (.portNeverAnswers .ref)) ∧
    (s.core.cfg = true → s.ref.answerRead .ref = (.volts r, c) →
      s.med.answerRead .med = (.never, d) →
      exec .cstep s = .fault (.portNeverAnswers .med))

/-- R312's corner case: CACQ, then CDEMOD on the pair it gave, has the same effect on the units as CSTEP,
and the same results. -/
def Obligations.CstepIsCacqThenCdemod : Prop :=
  ∀ s t v : State, exec .cacq s = .next t → t.err = .none →
    exec .cdemod { t with arg0 := t.res0, arg1 := t.res1 } = .next v →
    ∃ w, exec .cstep s = .next w ∧ w.ps = v.ps ∧ w.f1 = v.f1 ∧ w.f2 = v.f2 ∧ w.core = v.core ∧
      w.ref = v.ref ∧ w.med = v.med ∧ w.err = v.err ∧ w.errSrc = v.errSrc ∧
      (v.err = .none → w.res0 = v.res0 ∧ w.res1 = v.res1) ∧
      (v.err ≠ .none → w.res0 = s.res0 ∧ w.res1 = s.res1)

/-! ### Derived properties of the spec -/

/-- R260: from a zeroed buffer, the k-th PSHIFT (k from 0) returns the input q places before it, and +0.0
for the first q. -/
def Obligations.PshiftDelaysByTheQuarter : Prop :=
  ∀ (s : State) (xs : List F64), s.ps.cfg = true → s.ps.quarter + 1 ≤ s.ps.half →
    s.ps.buf = zeros s.ps.half →
    (pshiftOutputs s xs).length = xs.length ∧
    ∀ k, k < xs.length →
      entry (pshiftOutputs s xs) k =
        if s.ps.quarter ≤ k then entry xs (k - s.ps.quarter) else posZero

/-- R46: after a run of FFILT from zero histories, entry N − i of each history is the input, or the
output, i places before the last. -/
def Obligations.HistoriesHoldTheLastSamples : Prop :=
  ∀ (u : FilterUnit) (s t : State) (xs ys : List F64),
    (s.filter u).xh = zeros ((s.filter u).order + 1) →
    (s.filter u).yh = zeros ((s.filter u).order + 1) →
    ffiltRun u s xs = some (t, ys) →
    (t.filter u).order = (s.filter u).order ∧ ys.length = xs.length ∧
    ∀ i, i ≤ (s.filter u).order →
      entry (t.filter u).xh ((s.filter u).order - i) =
        (if i < xs.length then entry xs (xs.length - 1 - i) else posZero) ∧
      entry (t.filter u).yh ((s.filter u).order - i) =
        (if i < ys.length then entry ys (ys.length - 1 - i) else posZero)

/-- R230: with finite coefficients, from zero histories, zero inputs give zero outputs for ever, and the
unit never faults. -/
def Obligations.ZeroInputsGiveZeroOutputs : Prop :=
  ∀ (u : FilterUnit) (s : State) (xs : List F64),
    (s.filter u).cfg = true → (s.filter u).fault = false → 1 ≤ (s.filter u).order →
    finiteCoeffs (s.filter u) →
    (s.filter u).xh = zeros ((s.filter u).order + 1) →
    (s.filter u).yh = zeros ((s.filter u).order + 1) →
    (∀ x ∈ xs, isZero x = true) →
    ∃ t ys, ffiltRun u s xs = some (t, ys) ∧ (∀ y ∈ ys, isZero y = true) ∧
      (t.filter u).fault = false

/-- R232: two units configured alike, with equal histories, give equal outputs on equal inputs and stay
equal. -/
def Obligations.EqualUnitsStayEqual : Prop :=
  ∀ s : State, s.Inv → s.f1.cfg = true → s.f2.cfg = true → s.f1.order = s.f2.order →
    s.f1.fc = s.f2.fc → s.f1.fs = s.f2.fs → s.f1.xh = s.f2.xh → s.f1.yh = s.f2.yh →
    s.f1.fault = s.f2.fault →
    ∃ t v, exec (.ffilt .f1) s = .next t ∧ exec (.ffilt .f2) s = .next v ∧
      t.f1 = v.f2 ∧ t.res0 = v.res0 ∧ t.err = v.err

/-- R320: a CSETFS that repeats the sample frequency of all three units leaves the block unchanged. -/
def Obligations.SameSampleFrequencyChangesNothing : Prop :=
  ∀ s : State, s.Inv → s.core.cfg = true → s.arg0 = s.ps.fs → s.arg0 = s.f1.fs → s.arg0 = s.f2.fs →
    exec .csetfs s = .next { s with err := .none, errSrc := .none }

/-- R321: with finite coefficients, zero histories, a zero measured sample and a finite reference, both
filter outputs are zeros, the magnitude is exactly +0.0, the phase is Q when I is +0.0 and π64 when it is
−0.0, no filter faults, and the histories stay zero. -/
def Obligations.ZeroMeasuredGivesZeroMagnitude : Prop :=
  ∀ s : State, s.Inv → s.core.cfg = true → s.f1.fault = false → s.f2.fault = false →
    finiteCoeffs s.f1 → finiteCoeffs s.f2 → zeroHistory s.f1 → zeroHistory s.f2 →
    (∀ v ∈ s.ps.buf, isFinite v = true) → isFinite s.arg0 = true → isZero s.arg1 = true →
    let i := recursionOutput s.f1 (mul64 s.arg1 s.arg0)
    let q := recursionOutput s.f2 (mul64 s.arg1 (delayedSample s.ps s.arg0))
    isZero i = true ∧ isZero q = true ∧
    ∃ t, exec .cdemod s = .next t ∧ t.err = .none ∧ t.res0 = posZero ∧
      t.res1 = (if signBit i = true then pi64 else q) ∧
      zeroHistory t.f1 ∧ zeroHistory t.f2 ∧ t.f1.fault = false ∧ t.f2.fault = false ∧
      (∀ v ∈ t.ps.buf, isFinite v = true)

/-- R213's corner case: a NaN or infinite input faults the unit. -/
def Obligations.NonFiniteInputFaultsTheUnit : Prop :=
  ∀ (u : FilterUnit) (s : State), (s.filter u).cfg = true → isFinite s.arg0 = false →
    exec (.ffilt u) s = .next { s.setFilter u { s.filter u with fault := true } with
      err := .numericalInstability, errSrc := unitSrc u }

/-- R165, R177, R178: a successful CDEMOD or CSTEP leaves a magnitude that is not negative and no NaN, and a
phase of at most π64 in magnitude, never −π64. -/
def Obligations.MagnitudeAndPhaseAreInRange : Prop :=
  ∀ (i : Instr) (s t : State), (i = .cdemod ∨ i = .cstep) → exec i s = .next t → t.err = .none →
    signBit t.res0 = false ∧ isNaN t.res0 = false ∧
    magBits t.res1 ≤ magBits pi64 ∧ t.res1 ≠ negPi64

/-! ### Numbers -/

/-- R161: the rounded magnitude is infinite exactly from 2^1024 − 2^970 on; below that it is the nearest
binary64 value, and between two equally near the one with the even fraction. The real is `num / den`
units of 2^-1074. A zero real gives +0.0, and the sign is kept. -/
def Obligations.RoundingIsToNearestEven : Prop :=
  ∀ num den : Nat, 0 < den →
    (roundMag num den = infBits ↔ (2 ^ 54 - 1) * 2 ^ 2044 * den ≤ num) ∧
    (roundMag num den < infBits → ∀ k, k < infBits → k ≠ roundMag num den →
      |(magUnits (roundMag num den) : Int) * den - num| ≤ |(magUnits k : Int) * den - num| ∧
      (|(magUnits (roundMag num den) : Int) * den - num| = |(magUnits k : Int) * den - num| →
        roundMag num den % 2 = 0)) ∧
    rne false 0 den = posZero ∧
    (∀ b, signBit (rne b num den) = b ∧ magBits (rne b num den) = roundMag num den)

/-- R162: the basic operations: rounded exact results, signed zeros, NaN and infinity, with the infinite
operand on either side. The quotients that R162 does not list one by one are those of IEEE 754, which it
names. -/
def Obligations.BasicOperationsFollowTheStandard : Prop :=
  (∀ x y : F64, isFinite x = true → isFinite y = true →
    (real x + real y ≠ 0 →
      add64 x y = rne (decide (real x + real y < 0)) (real x + real y).natAbs 1) ∧
    (real x - real y ≠ 0 →
      sub64 x y = rne (decide (real x - real y < 0)) (real x - real y).natAbs 1) ∧
    (real x + real y = 0 →
      add64 x y = if signBit x = true ∧ signBit y = true then negZero else posZero) ∧
    (real x - real y = 0 →
      sub64 x y = if signBit x = true ∧ signBit y = false then negZero else posZero) ∧
    mul64 x y = rne (signBit x != signBit y) (real x * real y).natAbs (2 ^ 1074) ∧
    (real y ≠ 0 →
      div64 x y = rne (signBit x != signBit y) ((real x).natAbs * 2 ^ 1074) (real y).natAbs)) ∧
  (∀ x y : F64, isNaN x = true ∨ isNaN y = true →
    isNaN (add64 x y) = true ∧ isNaN (sub64 x y) = true ∧ isNaN (mul64 x y) = true ∧
    isNaN (div64 x y) = true) ∧
  (∀ x y : F64, isInf x = true → isInf y = true →
    (signBit x ≠ signBit y → isNaN (add64 x y) = true ∧ sub64 x y = x) ∧
    (signBit x = signBit y → add64 x y = x ∧ isNaN (sub64 x y) = true) ∧
    mul64 x y = pack (signBit x != signBit y) infBits ∧ isNaN (div64 x y) = true) ∧
  (∀ x y : F64, isInf x = true → isFinite y = true →
    add64 x y = x ∧ add64 y x = x ∧ sub64 x y = x ∧ sub64 y x = neg64 x ∧
    (isZero y = true → isNaN (mul64 x y) = true ∧ isNaN (mul64 y x) = true) ∧
    (isZero y = false → mul64 x y = pack (signBit x != signBit y) infBits ∧
      mul64 y x = pack (signBit x != signBit y) infBits) ∧
    div64 x y = pack (signBit x != signBit y) infBits ∧
    div64 y x = pack (signBit x != signBit y) 0) ∧
  (∀ x y : F64, isFinite x = true → isZero y = true →
    (isZero x = true → isNaN (div64 x y) = true) ∧
    (isZero x = false → div64 x y = pack (signBit x != signBit y) infBits))

/-- R166: a valid frequency is one with sign 0, not zero and not infinite or NaN; a cutoff equal to half
the sample frequency is not below it, and a sample frequency equal to floor times the reference is
enough. -/
def Obligations.FrequencyChecksAreExact : Prop :=
  (∀ v : F64, validFreq v = true ↔ signBit v = false ∧ 0 < magBits v ∧ magBits v < infBits) ∧
  (∀ fc fs : F64, 2 * real fc = real fs → belowNyquist fc fs = false) ∧
  (∀ (fs fr : F64) (fl : Nat), real fs = fl * real fr → oversampled fs fr fl = true) ∧
  (∀ v w : F64, validFreq v = true → validFreq w = true → (real v = real w ↔ v = w))

/-- R168: below Nyquist, the normalized cutoff lies in [0, 1]; it is +0.0 exactly when 2·fc/fs is at most
2^-1075, and 1.0 exactly when 2·fc/fs is at least 1 − 2^-54. -/
def Obligations.NormalizedCutoffIsInTheUnitInterval : Prop :=
  ∀ fc fs : F64, validFreq fc = true → validFreq fs = true → belowNyquist fc fs = true →
    signBit (wnOf fc fs) = false ∧ magBits (wnOf fc fs) ≤ 0x3FF0000000000000 ∧
    (magBits (wnOf fc fs) = 0 ↔ 2 * real fc * 2 ^ 1075 ≤ real fs) ∧
    (magBits (wnOf fc fs) = 0x3FF0000000000000 ↔
      (2 ^ 54 - 1) * real fs ≤ 2 ^ 54 * (2 * real fc))

/-- R290's corner case: what the core's shifter check accepts leaves the default cutoff below Nyquist, so
the filter check fails only for the order or for a cutoff that rounded to zero. -/
def Obligations.CoreCutoffIsBelowNyquist : Prop :=
  ∀ (p : Params) (n : Nat) (fs fr : F64), shiftValid p fs fr 4 = true →
    belowNyquist (cutoffOf fr) fs = true ∧
    (filterValid p n (cutoffOf fr) fs = false ↔ n < 1 ∨ p.nmax < n ∨ isZero (cutoffOf fr) = true)

/-- R175 (a), (b), (d): Hypot depends on the magnitudes only, in either order; it is exact where the exact
value is a binary64 value, and never negative or a NaN. -/
def Obligations.HypotIsSymmetricAndExactWhereItCanBe : Prop :=
  ∀ (e : Estimator) (x y : F64), isFinite x = true → isFinite y = true →
    hypot e x y = hypot e y x ∧
    hypot e x y = hypot e (pack false (magBits x)) (pack false (magBits y)) ∧
    (∀ k, k < infBits → real x * real x + real y * real y = (magUnits k : Int) * magUnits k →
      hypot e x y = pack false k) ∧
    signBit (hypot e x y) = false ∧ isNaN (hypot e x y) = false

/-- R175 (c), R178: Hypot is +Inf from 2^1024 − 2^970 on, and otherwise finite and one of the two binary64
values nearest the exact value: all finite values but at most one are at least as far from it. -/
def Obligations.HypotIsOneOfTheTwoNearest : Prop :=
  ∀ (e : Estimator) (x y : F64), isFinite x = true → isFinite y = true →
    let h : ℝ := Real.sqrt ((real x : ℝ) * real x + (real y : ℝ) * real y)
    ((2 ^ 54 - 1) * 2 ^ 2044 ≤ h → hypot e x y = pack false infBits) ∧
    (h < (2 ^ 54 - 1) * 2 ^ 2044 → isFinite (hypot e x y) = true ∧
      ∃ u : F64, ∀ v : F64, isFinite v = true → real v ≠ real u →
        |(real (hypot e x y) : ℝ) - h| ≤ |(real v : ℝ) - h|)

/-- R176 (a) to (d), (f): the special cases of Atan2, its oddness in y and its range. -/
def Obligations.Atan2SpecialCases : Prop :=
  ∀ (e : Estimator) (y x : F64), isFinite y = true → isFinite x = true →
    (isZero y = true → signBit x = false → atan2 e y x = y) ∧
    (isZero y = true → signBit x = true →
      atan2 e y x = if signBit y = true then negPi64 else pi64) ∧
    (isZero y = false → isZero x = true →
      atan2 e y x = if signBit y = true then neg64 halfPi64 else halfPi64) ∧
    atan2 e (neg64 y) x = neg64 (atan2 e y x) ∧
    magBits (atan2 e y x) ≤ magBits pi64
end

