-- ==== Sys2Proof/Laws/Float.lean ====
section
/-! SUPPORT. Laws of the binary64 format and its operations: sign and magnitude of a packed value, and
how a non-finite operand carries through (R160 to R165). -/

namespace Sys2Proof.Machine

/-! ### Sign and magnitude -/

@[simp] theorem signBit_pack (b : Bool) (m : Nat) : signBit (pack b m) = b := by
  simp only [signBit, pack, BitVec.getLsbD_append]
  simp

theorem magBits_pack {b : Bool} {m : Nat} (h : m < 2 ^ 63) : magBits (pack b m) = m := by
  have : (pack b m).toNat = b.toNat * 2 ^ 63 + m := by
    simp only [pack, BitVec.toNat_append, BitVec.toNat_ofNat, BitVec.toNat_ofBool]
    rw [Nat.shiftLeft_eq, Nat.mod_eq_of_lt h, Nat.mul_comm, ← Nat.two_pow_add_eq_or_of_lt h,
      Nat.mul_comm]
  simp only [magBits, BitVec.extractLsb'_toNat, Nat.shiftRight_zero, this]
  cases b <;> simp <;> omega

theorem magBits_lt (v : F64) : magBits v < 2 ^ 63 := (v.extractLsb' 0 63).isLt

theorem toNat_eq (v : F64) : v.toNat = (signBit v).toNat * 2 ^ 63 + magBits v := by
  have h1 : magBits v = v.toNat % 2 ^ 63 := by
    simp [magBits, BitVec.extractLsb'_toNat]
  have h2 : (signBit v).toNat = v.toNat / 2 ^ 63 := by
    have hv := v.isLt
    rw [signBit, BitVec.getLsbD, Nat.testBit_eq_decide_div_mod_eq]
    have : v.toNat / 2 ^ 63 < 2 := by omega
    by_cases hd : v.toNat / 2 ^ 63 = 1
    · rw [hd]; decide
    · have h0 : v.toNat / 2 ^ 63 = 0 := by omega
      rw [h0]; decide
  omega

/-- A value is its sign and its magnitude. -/
theorem eq_of_sign_mag {v w : F64} (hs : signBit v = signBit w) (hm : magBits v = magBits w) :
    v = w := by
  apply BitVec.eq_of_toNat_eq
  rw [toNat_eq v, toNat_eq w, hs, hm]

theorem pack_sign_mag (v : F64) : pack (signBit v) (magBits v) = v :=
  eq_of_sign_mag (signBit_pack _ _) (magBits_pack (magBits_lt v))

theorem infBits_lt : infBits < 2 ^ 63 := by decide

/-! ### Classes -/

theorem isFinite_iff (v : F64) : isFinite v = true ↔ magBits v < infBits := by simp [isFinite]

theorem isNaN_iff (v : F64) : isNaN v = true ↔ infBits < magBits v := by simp [isNaN]

theorem isInf_iff (v : F64) : isInf v = true ↔ magBits v = infBits := by simp [isInf]

/-- A value that is not finite is a NaN or an infinity. -/
theorem not_finite_cases {v : F64} (h : isFinite v = false) : isNaN v = true ∨ isInf v = true := by
  simp only [isFinite, decide_eq_false_iff_not] at h
  simp only [isNaN, isInf, decide_eq_true_eq]
  omega

theorem finite_classes {v : F64} (h : isFinite v = true) : isNaN v = false ∧ isInf v = false := by
  simp only [isFinite, decide_eq_true_eq] at h
  simp only [isNaN, isInf, decide_eq_false_iff_not]
  omega

@[simp] theorem nanResult_not_finite : isFinite nanResult = false := by decide

@[simp] theorem nanResult_isNaN : isNaN nanResult = true := by decide

theorem pack_inf_not_finite (b : Bool) : isFinite (pack b infBits) = false := by
  simp [isFinite, magBits_pack infBits_lt]

@[simp] theorem posZero_finite : isFinite posZero = true := by decide

@[simp] theorem posZero_isZero : isZero posZero = true := by decide

@[simp] theorem negZero_isZero : isZero negZero = true := by decide

theorem isZero_finite {v : F64} (h : isZero v = true) : isFinite v = true := by
  simp only [isZero, decide_eq_true_eq] at h
  simp [isFinite, h, infBits]

/-! ### Flipping the sign -/

@[simp] theorem magBits_neg64 (v : F64) : magBits (neg64 v) = magBits v := by
  have : (neg64 v).extractLsb' 0 63 = v.extractLsb' 0 63 := by
    apply BitVec.eq_of_getLsbD_eq
    intro i hi
    simp only [neg64, negZero, BitVec.getLsbD_extractLsb', BitVec.getLsbD_xor]
    have : (0x8000000000000000#64).getLsbD (0 + i) = false := by
      have : ∀ j : Fin 63, (0x8000000000000000#64).getLsbD (0 + j.val) = false := by decide
      exact this ⟨i, hi⟩
    rw [this]; simp
  simp [magBits, this]

@[simp] theorem signBit_neg64 (v : F64) : signBit (neg64 v) = !signBit v := by
  simp [signBit, neg64, negZero]

@[simp] theorem isFinite_neg64 (v : F64) : isFinite (neg64 v) = isFinite v := by simp [isFinite]

@[simp] theorem isZero_neg64 (v : F64) : isZero (neg64 v) = isZero v := by simp [isZero]

/-! ### A finite result has finite operands (R165) -/

theorem add64_finite {x y : F64} (h : isFinite (add64 x y) = true) :
    isFinite x = true ∧ isFinite y = true := by
  unfold add64 at h
  split at h
  · simp at h
  · rename_i hn
    simp only [Bool.or_eq_true, not_or, Bool.not_eq_true] at hn
    split at h
    · rename_i hx
      split at h
      · simp at h
      · simp only [isFinite_iff] at h; simp only [isInf_iff] at hx; omega
    · rename_i hx
      split at h
      · rename_i hy
        simp only [isFinite_iff] at h; simp only [isInf_iff] at hy; omega
      · rename_i hy
        simp only [isNaN, isInf, decide_eq_false_iff_not, decide_eq_true_eq] at hn hx hy
        simp only [isFinite_iff]
        omega

theorem sub64_finite {x y : F64} (h : isFinite (sub64 x y) = true) :
    isFinite x = true ∧ isFinite y = true := by
  simpa using add64_finite h

theorem mul64_finite {x y : F64} (h : isFinite (mul64 x y) = true) :
    isFinite x = true ∧ isFinite y = true := by
  unfold mul64 at h
  simp only at h
  split at h
  · simp at h
  · rename_i hn
    split at h
    · split at h
      · simp at h
      · simp [pack_inf_not_finite] at h
    · rename_i hi
      simp only [Bool.or_eq_true, not_or, isNaN_iff, isInf_iff] at hn hi
      simp only [isFinite_iff]
      omega

/-! ### Rounding -/

theorem roundMag_le (num den : Nat) : roundMag num den ≤ infBits := by
  simp only [roundMag]
  exact Nat.min_le_right _ _

theorem roundMag_lt (num den : Nat) : roundMag num den < 2 ^ 63 :=
  lt_of_le_of_lt (roundMag_le num den) infBits_lt

@[simp] theorem roundMag_zero (den : Nat) : roundMag 0 den = 0 := by
  simp [roundMag, binade]

@[simp] theorem magBits_rne (b : Bool) (num den : Nat) : magBits (rne b num den) = roundMag num den :=
  magBits_pack (roundMag_lt num den)

@[simp] theorem signBit_rne (b : Bool) (num den : Nat) : signBit (rne b num den) = b :=
  signBit_pack _ _

/-! ### Zeros (R162) -/

theorem magUnits_zero : magUnits 0 = 0 := by decide

theorem real_zero {v : F64} (h : isZero v = true) : real v = 0 := by
  simp only [isZero, decide_eq_true_eq] at h
  simp [real, h, magUnits_zero]

/-- A zero times a finite value is a zero. -/
theorem mul64_isZero_right {x y : F64} (hx : isFinite x = true) (hy : isZero y = true) :
    isZero (mul64 x y) = true := by
  have hyf := finite_classes (isZero_finite hy)
  have hxf := finite_classes hx
  simp only [isZero, decide_eq_true_eq] at hy
  simp [mul64, hyf, hxf, hy, isZero, magUnits_zero]

theorem mul64_isZero_left {x y : F64} (hx : isZero x = true) (hy : isFinite y = true) :
    isZero (mul64 x y) = true := by
  have hxf := finite_classes (isZero_finite hx)
  have hyf := finite_classes hy
  simp only [isZero, decide_eq_true_eq] at hx
  simp [mul64, hyf, hxf, hx, isZero, magUnits_zero]

/-- A sum of zeros is a zero. -/
theorem add64_isZero {x y : F64} (hx : isZero x = true) (hy : isZero y = true) :
    isZero (add64 x y) = true := by
  have hxf := finite_classes (isZero_finite hx)
  have hyf := finite_classes (isZero_finite hy)
  simp only [add64, hxf, hyf, addFinite, real_zero hx, real_zero hy]
  cases signBit x <;> cases signBit y <;> simp

theorem sub64_isZero {x y : F64} (hx : isZero x = true) (hy : isZero y = true) :
    isZero (sub64 x y) = true :=
  add64_isZero hx (by simpa using hy)

/-! ### Commutativity -/

theorem add64_comm_of_not_nan {x y : F64} (hx : isNaN x = false) (hy : isNaN y = false) :
    add64 x y = add64 y x := by
  by_cases hxi : isInf x = true <;> by_cases hyi : isInf y = true
  · by_cases hs : signBit x = signBit y
    · have : x = y := eq_of_sign_mag hs (by rw [isInf_iff] at hxi hyi; omega)
      rw [this]
    · have hs' : ¬signBit y = signBit x := fun h => hs h.symm
      simp [add64, hx, hy, hxi, hyi, hs, hs']
  · simp [add64, hx, hy, hxi, hyi]
  · simp [add64, hx, hy, hxi, hyi]
  · simp [add64, hx, hy, hxi, hyi, addFinite, Int.add_comm, Bool.and_comm]

theorem add64_comm (x y : F64) : add64 x y = add64 y x := by
  by_cases hx : isNaN x = true
  · simp [add64, hx]
  by_cases hy : isNaN y = true
  · simp [add64, hy]
  exact add64_comm_of_not_nan (by simpa using hx) (by simpa using hy)

theorem mul64_comm (x y : F64) : mul64 x y = mul64 y x := by
  have h1 : (signBit x != signBit y) = (signBit y != signBit x) := by
    cases signBit x <;> cases signBit y <;> rfl
  simp only [mul64, Bool.or_comm (isNaN x), Bool.or_comm (isInf x), Bool.or_comm (isZero x), h1,
    Nat.mul_comm (magUnits (magBits x))]

/-! ### Frequencies -/

theorem validFreq_finite {v : F64} (h : validFreq v = true) : isFinite v = true := by
  simp only [validFreq, Bool.and_eq_true] at h; exact h.1

theorem validFreq_pos {v : F64} (h : validFreq v = true) : 0 < real v := by
  simp only [validFreq, Bool.and_eq_true, decide_eq_true_eq] at h; exact h.2

/-! ### The order of magnitudes, and equal real values (R160, R170) -/

/-- A larger magnitude pattern stands for more units. -/
theorem magUnits_strictMono {m n : Nat} (h : m < n) : magUnits m < magUnits n := by
  unfold magUnits
  have h52 : (2 : Nat) ^ 52 = 4503599627370496 := by norm_num
  rw [h52]
  by_cases hm : m / 4503599627370496 = 0
  · rw [if_pos hm]
    by_cases hn : n / 4503599627370496 = 0
    · rw [if_pos hn]; omega
    · rw [if_neg hn]
      have : 1 ≤ 2 ^ (n / 4503599627370496 - 1) := Nat.one_le_two_pow
      nlinarith [Nat.mod_lt m (by norm_num : 4503599627370496 > 0),
        Nat.zero_le (n % 4503599627370496)]
  · rw [if_neg hm]
    have hn : n / 4503599627370496 ≠ 0 := by omega
    rw [if_neg hn]
    by_cases he : m / 4503599627370496 = n / 4503599627370496
    · rw [he]
      exact Nat.mul_lt_mul_of_pos_right (by omega) (by positivity)
    · have hlt : m / 4503599627370496 < n / 4503599627370496 := by omega
      have hp : 2 ^ (m / 4503599627370496 - 1) * 2 ≤ 2 ^ (n / 4503599627370496 - 1) := by
        rw [← pow_succ]
        exact Nat.pow_le_pow_right (by norm_num) (by omega)
      have h1 : 4503599627370496 + m % 4503599627370496 < 4503599627370496 * 2 := by omega
      have hpos : 0 < 2 ^ (m / 4503599627370496 - 1) := by positivity
      calc (4503599627370496 + m % 4503599627370496) * 2 ^ (m / 4503599627370496 - 1)
          < 4503599627370496 * 2 * 2 ^ (m / 4503599627370496 - 1) :=
            Nat.mul_lt_mul_of_pos_right h1 hpos
        _ = 4503599627370496 * (2 ^ (m / 4503599627370496 - 1) * 2) := by ring
        _ ≤ (4503599627370496 + n % 4503599627370496) * 2 ^ (n / 4503599627370496 - 1) :=
            Nat.mul_le_mul (by omega) hp

theorem magUnits_injective : Function.Injective magUnits := by
  intro m n h
  rcases lt_trichotomy m n with hl | rfl | hl
  · exact absurd h (ne_of_lt (magUnits_strictMono hl))
  · rfl
  · exact absurd h.symm (ne_of_lt (magUnits_strictMono hl))

/-- A positive real value has sign bit 0. -/
theorem signBit_of_real_pos {v : F64} (h : 0 < real v) : signBit v = false := by
  by_contra hs
  simp only [Bool.not_eq_false] at hs
  simp only [real, hs, if_true] at h
  omega

theorem real_of_signBit_false {v : F64} (h : signBit v = false) : real v = magUnits (magBits v) := by
  simp [real, h]

/-- Positive values with the same real value are the same bits (R170). -/
theorem eq_of_real_eq {v w : F64} (hv : 0 < real v) (h : real v = real w) : v = w := by
  have hsv := signBit_of_real_pos hv
  have hsw := signBit_of_real_pos (h ▸ hv)
  rw [real_of_signBit_false hsv, real_of_signBit_false hsw] at h
  exact eq_of_sign_mag (hsv.trans hsw.symm) (magUnits_injective (by exact_mod_cast h))

end Sys2Proof.Machine
end

