-- ==== Sys2Proof/Laws/Sequences.lean ====
section
/-! SUPPORT. Laws of the histories and the buffer as sequences: entries, zeros and the sliding window
(R25, R202, R212, R252, R255). -/

namespace Sys2Proof.Machine

@[simp] theorem entry_nil (i : Nat) : entry [] i = posZero := rfl

theorem entry_of_lt {l : List F64} {i : Nat} (h : i < l.length) : entry l i = l[i] := by
  simp [entry, List.getD, h]

theorem entry_of_ge {l : List F64} {i : Nat} (h : l.length ≤ i) : entry l i = posZero := by
  simp [entry, List.getD, h]

theorem entry_mem_or_zero (l : List F64) (i : Nat) : entry l i ∈ l ∨ entry l i = posZero := by
  by_cases h : i < l.length
  · exact .inl (by rw [entry_of_lt h]; exact List.getElem_mem h)
  · exact .inr (entry_of_ge (by omega))

@[simp] theorem entry_zeros (n i : Nat) : entry (zeros n) i = posZero := by
  by_cases h : i < n
  · rw [entry_of_lt (by simpa [zeros] using h)]; simp [zeros]
  · exact entry_of_ge (by simpa [zeros] using h)

@[simp] theorem length_zeros (n : Nat) : (zeros n).length = n := by simp [zeros]

theorem mem_zeros {n : Nat} {v : F64} (h : v ∈ zeros n) : v = posZero := by
  simp only [zeros, List.mem_replicate] at h; exact h.2

@[simp] theorem length_firstEntries (n : Nat) (l : List F64) : (firstEntries n l).length = n := by
  induction n generalizing l with
  | zero => rfl
  | succ n ih => simp [firstEntries, ih]

theorem entry_tail (l : List F64) (i : Nat) : entry l.tail i = entry l (i + 1) := by
  cases l <;> simp [entry]

theorem entry_firstEntries {n i : Nat} (h : i < n) (l : List F64) :
    entry (firstEntries n l) i = entry l i := by
  induction n generalizing l i with
  | zero => omega
  | succ n ih =>
    cases i with
    | zero => cases l <;> simp [firstEntries, entry]
    | succ i =>
      have := ih (i := i) (by omega) l.tail
      rw [entry_tail] at this
      simpa [firstEntries, entry] using this

theorem firstEntries_eq_map (n : Nat) (l : List F64) :
    firstEntries n l = (List.range n).map (entry l) := by
  apply List.ext_getElem (by simp)
  intro i h1 h2
  have hi : i < n := by simpa using h1
  have := entry_firstEntries hi l
  rw [entry_of_lt h1] at this
  simpa using this

/-- The slid sequence, entry by entry: entries 1..n of the old one, then the newest. -/
theorem slide_eq (n : Nat) (l : List F64) (x : F64) :
    slide n l x = (List.range n).map (fun i => entry l (i + 1)) ++ [x] := by
  have : entry l.tail = fun i => entry l (i + 1) := funext (entry_tail l)
  rw [slide, firstEntries_eq_map, this]

@[simp] theorem length_slide (n : Nat) (l : List F64) (x : F64) : (slide n l x).length = n + 1 := by
  simp [slide]

@[simp] theorem entry_slide_last (n : Nat) (l : List F64) (x : F64) : entry (slide n l x) n = x := by
  rw [entry_of_lt (by simp)]; simp [slide]

theorem entry_slide_lt {n i : Nat} (h : i < n) (l : List F64) (x : F64) :
    entry (slide n l x) i = entry l (i + 1) := by
  rw [entry_of_lt (by simp; omega), ← entry_tail, ← entry_firstEntries h l.tail,
    entry_of_lt (by simpa using h)]
  simp [slide, List.getElem_append_left, h]

theorem mem_slide {n : Nat} {l : List F64} {x v : F64} (h : v ∈ slide n l x) :
    v ∈ l ∨ v = posZero ∨ v = x := by
  rw [slide_eq, List.mem_append, List.mem_map, List.mem_singleton] at h
  rcases h with ⟨i, -, rfl⟩ | rfl
  · rcases entry_mem_or_zero l (i + 1) with h | h
    · exact .inl h
    · exact .inr (.inl h)
  · exact .inr (.inr rfl)

/-- A property of every old entry, of +0.0 and of the newest value holds of every new entry. -/
theorem forall_slide {P : F64 → Prop} {n : Nat} {l : List F64} {x : F64} (hl : ∀ v ∈ l, P v)
    (h0 : P posZero) (hx : P x) : ∀ v ∈ slide n l x, P v := by
  intro v hv
  rcases mem_slide hv with h | rfl | rfl
  · exact hl v h
  · exact h0
  · exact hx

@[simp] theorem length_designBs (p : Params) (n : Nat) (wn : F64) : (designBs p n wn).length = n + 1 := by
  simp [designBs]

@[simp] theorem length_designAs (p : Params) (n : Nat) (wn : F64) : (designAs p n wn).length = n + 1 := by
  simp [designAs]

theorem entry_designBs {p : Params} {n i : Nat} {wn : F64} (h : i ≤ n) :
    entry (designBs p n wn) i = designB p n wn i := by
  rw [entry_of_lt (by simp; omega)]; simp [designBs]

theorem entry_designAs {p : Params} {n i : Nat} {wn : F64} (h : i ≤ n) :
    entry (designAs p n wn) i = designA p n wn i := by
  rw [entry_of_lt (by simp; omega)]; simp [designAs]

end Sys2Proof.Machine
end

