-- ==== Sys2Proof/Laws/Filter.lean ====
section
/-! SUPPORT. What the filter unit's procedures can do, said once each (R201, R202, R211 to R214). -/

namespace Sys2Proof.Machine

/-! ### One step -/

/-- Everything FilterStep can end in: a faulted unit is unchanged; a finite output is committed; any
other output only sets the fault. -/
theorem filterStep_cases (f : Filter) (x : F64) :
    (f.fault = true ∧ filterStep f x = (f, none)) ∨
    (f.fault = false ∧ isFinite (filterOutput f x) = true ∧
      filterStep f x = (commitStep f x (filterOutput f x), some (filterOutput f x))) ∨
    (f.fault = false ∧ isFinite (filterOutput f x) = false ∧
      filterStep f x = ({ f with fault := true }, none)) := by
  unfold filterStep
  cases hf : f.fault
  · cases hy : isFinite (filterOutput f x) <;> simp
  · simp

/-- A step that gives an output committed it. -/
theorem filterStep_some {f g : Filter} {x y : F64} (h : filterStep f x = (g, some y)) :
    f.fault = false ∧ isFinite y = true ∧ y = filterOutput f x ∧ g = commitStep f x y := by
  rcases filterStep_cases f x with ⟨-, h'⟩ | ⟨hf, hy, h'⟩ | ⟨-, -, h'⟩ <;> rw [h'] at h
  · simp at h
  · simp only [Prod.mk.injEq, Option.some.injEq] at h
    obtain ⟨rfl, rfl⟩ := h
    exact ⟨hf, hy, rfl, rfl⟩
  · simp at h

/-- A step that raises leaves the unit as it was, but faulted. -/
theorem filterStep_none {f g : Filter} {x : F64} (h : filterStep f x = (g, none)) :
    g = { f with fault := true } := by
  rcases filterStep_cases f x with ⟨hf, h'⟩ | ⟨-, -, h'⟩ | ⟨-, -, h'⟩ <;> rw [h'] at h
  · simp only [Prod.mk.injEq] at h
    rw [← h.1, ← hf]
  · simp at h
  · simp only [Prod.mk.injEq] at h
    exact h.1.symm

/-! ### The recursion -/

theorem bSum_eq_foldl (b xn : List F64) (n k : Nat) :
    bSum b xn n k =
      (List.range k).foldl (fun acc i => add64 acc (mul64 (entry b (i + 1)) (entry xn (n - (i + 1)))))
        (mul64 (entry b 0) (entry xn n)) := by
  induction k with
  | zero => rfl
  | succ k ih => rw [List.range_succ, List.foldl_append, ← ih]; rfl

theorem aSum_eq_foldl (a yh : List F64) (n k : Nat) :
    aSum a yh n k =
      (List.range k).foldl
        (fun acc i => add64 acc (mul64 (entry a (i + 2)) (entry yh (n + 1 - (i + 2)))))
        (mul64 (entry a 1) (entry yh n)) := by
  induction k with
  | zero => rfl
  | succ k ih => rw [List.range_succ, List.foldl_append, ← ih]; rfl

/-- A finite output needs a finite newest input: the first term of the b-sum reads it. -/
theorem bSum_finite {b xn : List F64} {n k : Nat} (h : isFinite (bSum b xn n k) = true) :
    isFinite (entry xn n) = true := by
  induction k with
  | zero => exact (mul64_finite h).2
  | succ k ih => exact ih (add64_finite h).1

theorem filterOutput_finite {f : Filter} {x : F64} (h : isFinite (filterOutput f x) = true) :
    isFinite x = true := by
  have := bSum_finite (sub64_finite h).1
  simpa using this

/-- The step's output is the recursion of R210, summed in the order of R211. -/
theorem filterOutput_eq_recursion (f : Filter) (x : F64) : filterOutput f x = recursionOutput f x := by
  have hb : bSum f.b (slide f.order f.xh x) f.order f.order =
      (List.range f.order).foldl
        (fun acc i => add64 acc (mul64 (entry f.b (i + 1))
          (if i + 1 = 0 then x else entry f.xh (f.order + 1 - (i + 1)))))
        (mul64 (entry f.b 0) (if 0 = 0 then x else entry f.xh (f.order + 1 - 0))) := by
    rw [bSum_eq_foldl, entry_slide_last, if_pos rfl]
    apply List.foldl_ext
    intro acc i hi
    have hi' : i < f.order := by simpa using hi
    rw [entry_slide_lt (by omega), if_neg (by omega)]
    congr 3
    omega
  rw [filterOutput, hb, aSum_eq_foldl]
  rfl

/-- The commit of a step, written with the entries it keeps. -/
theorem commitStep_eq_advanced (f : Filter) (x y : F64) : commitStep f x y = advanced f x y := by
  simp only [commitStep, advanced, pushed, slide_eq]

/-- Where the step raises: a faulted unit, or a recursion with a non-finite value (R213, R214). -/
theorem filterStep_raises {f : Filter} {x : F64}
    (h : f.fault = true ∨ isFinite (recursionOutput f x) = false) :
    filterStep f x = ({ f with fault := true }, none) := by
  rw [← filterOutput_eq_recursion] at h
  rcases filterStep_cases f x with ⟨hf, h'⟩ | ⟨hf, hy, -⟩ | ⟨-, -, h'⟩
  · rw [h', ← hf]
  · simp_all
  · exact h'

/-- Where the step completes: a healthy unit whose recursion is finite (R212). -/
theorem filterStep_completes {f : Filter} {x : F64} (hf : f.fault = false)
    (hy : isFinite (recursionOutput f x) = true) :
    filterStep f x = (advanced f x (recursionOutput f x), some (recursionOutput f x)) := by
  rw [← filterOutput_eq_recursion] at hy ⊢
  rw [← commitStep_eq_advanced]
  rcases filterStep_cases f x with ⟨hf', -⟩ | ⟨-, -, h'⟩ | ⟨-, hy', -⟩
  · simp_all
  · exact h'
  · simp_all

/-! ### Fields of the procedures -/

section fields
variable (p : Params) (n : Nat) (fc fs : F64) (f : Filter) (x y : F64)
@[simp] theorem loadCoeffs_cfg : (loadCoeffs p f).cfg = f.cfg := rfl
@[simp] theorem loadCoeffs_fault : (loadCoeffs p f).fault = f.fault := rfl
@[simp] theorem loadCoeffs_order : (loadCoeffs p f).order = f.order := rfl
@[simp] theorem loadCoeffs_fc : (loadCoeffs p f).fc = f.fc := rfl
@[simp] theorem loadCoeffs_fs : (loadCoeffs p f).fs = f.fs := rfl
@[simp] theorem loadCoeffs_xh : (loadCoeffs p f).xh = f.xh := rfl
@[simp] theorem loadCoeffs_yh : (loadCoeffs p f).yh = f.yh := rfl
@[simp] theorem loadCoeffs_b :
    (loadCoeffs p f).b = designBs p f.order (wnOf f.fc f.fs) := rfl
@[simp] theorem loadCoeffs_a :
    (loadCoeffs p f).a = designAs p f.order (wnOf f.fc f.fs) := rfl
@[simp] theorem commitStep_cfg : (commitStep f x y).cfg = f.cfg := rfl
@[simp] theorem commitStep_fault : (commitStep f x y).fault = f.fault := rfl
@[simp] theorem commitStep_order : (commitStep f x y).order = f.order := rfl
@[simp] theorem commitStep_fc : (commitStep f x y).fc = f.fc := rfl
@[simp] theorem commitStep_fs : (commitStep f x y).fs = f.fs := rfl
@[simp] theorem commitStep_b : (commitStep f x y).b = f.b := rfl
@[simp] theorem commitStep_a : (commitStep f x y).a = f.a := rfl
@[simp] theorem commitStep_xh : (commitStep f x y).xh = slide f.order f.xh x := rfl
@[simp] theorem commitStep_yh : (commitStep f x y).yh = slide f.order f.yh y := rfl
end fields

/-- The unit FCFG and CINIT build, field by field. -/
theorem configuredFilter_eq (p : Params) (n : Nat) (fc fs : F64) (f : Filter) :
    configuredFilter p n fc fs f =
      { cfg := true, fault := false, order := n, fc := fc, fs := fs,
        b := designBs p n (wnOf fc fs), a := designAs p n (wnOf fc fs),
        xh := zeros (n + 1), yh := zeros (n + 1) } := rfl

/-- The unit FSETORD and CSETORD build, field by field. -/
theorem reorderedFilter_eq (p : Params) (n : Nat) (f : Filter) :
    reorderedFilter p n f =
      { cfg := f.cfg, fault := false, order := n, fc := f.fc, fs := f.fs,
        b := designBs p n (wnOf f.fc f.fs), a := designAs p n (wnOf f.fc f.fs),
        xh := zeros (n + 1), yh := zeros (n + 1) } := rfl

/-! ### The unit's invariant -/

theorem filterReset_inv (p : Params) : Filter.Inv p Filter.reset :=
  ⟨fun _ => rfl, fun h => by simp [Filter.reset] at h⟩

theorem configuredFilter_inv {p : Params} {n : Nat} {fc fs : F64} (f : Filter)
    (h : filterValid p n fc fs = true) : Filter.Inv p (configuredFilter p n fc fs f) := by
  rw [configuredFilter_eq]
  refine ⟨fun h => by simp at h, fun _ => ⟨h, rfl, rfl, by simp, by simp, ?_, ?_⟩⟩ <;>
    exact fun v hv => by rw [mem_zeros hv]; simp

theorem reorderedFilter_inv {p : Params} {n : Nat} {f : Filter} (hc : f.cfg = true)
    (h : filterValid p n f.fc f.fs = true) : Filter.Inv p (reorderedFilter p n f) := by
  rw [reorderedFilter_eq]
  refine ⟨fun h => by simp [hc] at h, fun _ => ⟨h, rfl, rfl, by simp, by simp, ?_, ?_⟩⟩ <;>
    exact fun v hv => by rw [mem_zeros hv]; simp

/-- A new frequency keeps the unit's invariant: the triple was checked and the coefficients reloaded. -/
theorem loadCoeffs_inv {p : Params} {f g : Filter} (hi : Filter.Inv p f) (hc : f.cfg = true)
    (hcfg : g.cfg = f.cfg) (ho : g.order = f.order) (hx : g.xh = f.xh) (hy : g.yh = f.yh)
    (h : filterValid p g.order g.fc g.fs = true) : Filter.Inv p (loadCoeffs p g) := by
  obtain ⟨-, -, -, hxl, hyl, hxf, hyf⟩ := hi.2 hc
  refine ⟨fun h0 => by simp [hcfg, hc] at h0, fun _ => ⟨h, rfl, rfl, ?_, ?_, ?_, ?_⟩⟩ <;>
    simp_all

theorem faulted_inv {p : Params} {f : Filter} (hi : Filter.Inv p f) (hc : f.cfg = true) :
    Filter.Inv p { f with fault := true } :=
  ⟨fun h0 => by simp [hc] at h0, fun _ => hi.2 hc⟩

theorem commitStep_inv {p : Params} {f : Filter} {x y : F64} (hi : Filter.Inv p f)
    (hc : f.cfg = true) (hx : isFinite x = true) (hy : isFinite y = true) :
    Filter.Inv p (commitStep f x y) := by
  obtain ⟨hv, hb, ha, hxl, hyl, hxf, hyf⟩ := hi.2 hc
  exact ⟨fun h0 => by simp [hc] at h0, fun _ => ⟨hv, hb, ha, by simp, by simp,
    forall_slide hxf posZero_finite hx, forall_slide hyf posZero_finite hy⟩⟩

theorem filterStep_inv {p : Params} {f g : Filter} {x : F64} {y : Option F64}
    (hi : Filter.Inv p f) (hc : f.cfg = true) (h : filterStep f x = (g, y)) :
    Filter.Inv p g ∧ g.cfg = true := by
  cases y with
  | none => rw [filterStep_none h]; exact ⟨faulted_inv hi hc, hc⟩
  | some y =>
    obtain ⟨-, hy, hyo, rfl⟩ := filterStep_some h
    exact ⟨commitStep_inv hi hc (filterOutput_finite (hyo ▸ hy)) hy, hc⟩

end Sys2Proof.Machine
end

