-- ==== Sys2Proof/Laws/Shifter.lean ====
section
/-! SUPPORT. What the shifter's procedures can do, said once each (R250 to R255). -/

namespace Sys2Proof.Machine

section fields
variable (p : Shifter) (x fs fr : F64) (fl : Nat)
@[simp] theorem shiftStep_cfg : (shiftStep p x).1.cfg = p.cfg := rfl
@[simp] theorem shiftStep_fs : (shiftStep p x).1.fs = p.fs := rfl
@[simp] theorem shiftStep_fr : (shiftStep p x).1.fr = p.fr := rfl
@[simp] theorem shiftStep_floor : (shiftStep p x).1.floor = p.floor := rfl
@[simp] theorem shiftStep_half : (shiftStep p x).1.half = p.half := rfl
@[simp] theorem shiftStep_quarter : (shiftStep p x).1.quarter = p.quarter := rfl
@[simp] theorem shiftStep_buf : (shiftStep p x).1.buf = slide (p.half - 1) p.buf x := rfl
theorem shiftStep_out :
    (shiftStep p x).2 = entry (slide (p.half - 1) p.buf x) (p.half - 1 - p.quarter) := rfl

/-- A step's shifter and sample, written with the entries it keeps. -/
theorem shiftStep_eq_advanced : shiftStep p x = (advancedShifter p x, delayedSample p x) := by
  simp only [shiftStep, advancedShifter, delayedSample, pushed, slide_eq]

/-- The shifter PCFG and CINIT build, field by field. -/
theorem configuredShifter_eq :
    configuredShifter fs fr fl p =
      { cfg := true, fs := fs, fr := fr, floor := fl, half := halfOf fs fr,
        quarter := quarterOf fs fr, buf := zeros (halfOf fs fr) } := rfl
end fields

/-! ### Geometry (R167, R250, R251) -/

theorem shiftValid_parts {p : Params} {fs fr : F64} {fl : Nat} (h : shiftValid p fs fr fl = true) :
    2 ≤ fl ∧ validFreq fs = true ∧ validFreq fr = true ∧ (fl : Int) * real fr ≤ real fs ∧
      halfOf fs fr ≤ p.hmax := by
  simp only [shiftValid, oversampled, Bool.and_eq_true, decide_eq_true_eq] at h
  exact ⟨h.1.1.1.1, h.1.1.1.2, h.1.1.2, h.1.2, h.2⟩

/-- floor(r/4) = floor(floor(r/2)/2). -/
theorem quarterOf_eq (fs fr : F64) : quarterOf fs fr = halfOf fs fr / 2 := by
  have : 4 * (real fr).toNat = 2 * (real fr).toNat * 2 := by omega
  rw [quarterOf, halfOf, this, Nat.div_div_eq_div_mul]

theorem halfOf_pos {p : Params} {fs fr : F64} {fl : Nat} (h : shiftValid p fs fr fl = true) :
    1 ≤ halfOf fs fr := by
  obtain ⟨h2, -, hfr, hle, -⟩ := shiftValid_parts h
  have hr := validFreq_pos hfr
  have h3 : 2 * real fr ≤ real fs := by
    have : (2 : Int) * real fr ≤ (fl : Int) * real fr :=
      mul_le_mul_of_nonneg_right (by exact_mod_cast h2) (le_of_lt hr)
    omega
  rw [halfOf, Nat.one_le_div_iff (by omega)]
  omega

theorem quarterOf_lt {p : Params} {fs fr : F64} {fl : Nat} (h : shiftValid p fs fr fl = true) :
    quarterOf fs fr + 1 ≤ halfOf fs fr := by
  have := halfOf_pos h
  rw [quarterOf_eq]; omega

end Sys2Proof.Machine
end

