-- ==== Sys2Proof/Laws/State.lean ====
section
/-! SUPPORT. One lemma per field per update of the state, true by rfl, so that no proof unfolds a record
update, and the accessors of the two filter units and the two sources. -/

namespace Sys2Proof.Machine

/-! ### Ending a command -/

section report
variable (s : State) (k : ErrKind) (src : ErrSrc)
@[simp] theorem report_arg0 : (s.report k src).arg0 = s.arg0 := rfl
@[simp] theorem report_arg1 : (s.report k src).arg1 = s.arg1 := rfl
@[simp] theorem report_arg2 : (s.report k src).arg2 = s.arg2 := rfl
@[simp] theorem report_res0 : (s.report k src).res0 = s.res0 := rfl
@[simp] theorem report_res1 : (s.report k src).res1 = s.res1 := rfl
@[simp] theorem report_err : (s.report k src).err = k := rfl
@[simp] theorem report_errSrc : (s.report k src).errSrc = src := rfl
@[simp] theorem report_f1 : (s.report k src).f1 = s.f1 := rfl
@[simp] theorem report_f2 : (s.report k src).f2 = s.f2 := rfl
@[simp] theorem report_ps : (s.report k src).ps = s.ps := rfl
@[simp] theorem report_core : (s.report k src).core = s.core := rfl
@[simp] theorem report_params : (s.report k src).params = s.params := rfl
@[simp] theorem report_ref : (s.report k src).ref = s.ref := rfl
@[simp] theorem report_med : (s.report k src).med = s.med := rfl
@[simp] theorem report_inputs : (s.report k src).inputs = s.inputs := rfl
@[simp] theorem report_hostData : (s.report k src).hostData = s.hostData := rfl
@[simp] theorem report_filter (u : FilterUnit) : (s.report k src).filter u = s.filter u := by
  cases u <;> rfl
end report

/-! ### The two filter units -/

section setFilter
variable (s : State) (u : FilterUnit) (f : Filter)
@[simp] theorem setFilter_arg0 : (s.setFilter u f).arg0 = s.arg0 := by cases u <;> rfl
@[simp] theorem setFilter_arg1 : (s.setFilter u f).arg1 = s.arg1 := by cases u <;> rfl
@[simp] theorem setFilter_arg2 : (s.setFilter u f).arg2 = s.arg2 := by cases u <;> rfl
@[simp] theorem setFilter_res0 : (s.setFilter u f).res0 = s.res0 := by cases u <;> rfl
@[simp] theorem setFilter_res1 : (s.setFilter u f).res1 = s.res1 := by cases u <;> rfl
@[simp] theorem setFilter_err : (s.setFilter u f).err = s.err := by cases u <;> rfl
@[simp] theorem setFilter_errSrc : (s.setFilter u f).errSrc = s.errSrc := by cases u <;> rfl
@[simp] theorem setFilter_ps : (s.setFilter u f).ps = s.ps := by cases u <;> rfl
@[simp] theorem setFilter_core : (s.setFilter u f).core = s.core := by cases u <;> rfl
@[simp] theorem setFilter_params : (s.setFilter u f).params = s.params := by cases u <;> rfl
@[simp] theorem setFilter_ref : (s.setFilter u f).ref = s.ref := by cases u <;> rfl
@[simp] theorem setFilter_med : (s.setFilter u f).med = s.med := by cases u <;> rfl
@[simp] theorem setFilter_inputs : (s.setFilter u f).inputs = s.inputs := by cases u <;> rfl
@[simp] theorem setFilter_hostData : (s.setFilter u f).hostData = s.hostData := by cases u <;> rfl
@[simp] theorem setFilter_filter_same : (s.setFilter u f).filter u = f := by cases u <;> rfl
@[simp] theorem setFilter_f1_f1 : (s.setFilter .f1 f).f1 = f := rfl
@[simp] theorem setFilter_f1_f2 : (s.setFilter .f1 f).f2 = s.f2 := rfl
@[simp] theorem setFilter_f2_f1 : (s.setFilter .f2 f).f1 = s.f1 := rfl
@[simp] theorem setFilter_f2_f2 : (s.setFilter .f2 f).f2 = f := rfl
@[simp] theorem filter_f1 : s.filter .f1 = s.f1 := rfl
@[simp] theorem filter_f2 : s.filter .f2 = s.f2 := rfl
end setFilter

theorem setFilter_filter_other {s : State} {u v : FilterUnit} {f : Filter} (h : v ≠ u) :
    (s.setFilter u f).filter v = s.filter v := by
  cases u <;> cases v <;> first | rfl | exact absurd rfl h

/-! ### The two sources -/

section setSource
variable (s : State) (p : Port) (c : Source)
@[simp] theorem setSource_arg0 : (s.setSource p c).arg0 = s.arg0 := by cases p <;> rfl
@[simp] theorem setSource_arg1 : (s.setSource p c).arg1 = s.arg1 := by cases p <;> rfl
@[simp] theorem setSource_arg2 : (s.setSource p c).arg2 = s.arg2 := by cases p <;> rfl
@[simp] theorem setSource_res0 : (s.setSource p c).res0 = s.res0 := by cases p <;> rfl
@[simp] theorem setSource_res1 : (s.setSource p c).res1 = s.res1 := by cases p <;> rfl
@[simp] theorem setSource_err : (s.setSource p c).err = s.err := by cases p <;> rfl
@[simp] theorem setSource_errSrc : (s.setSource p c).errSrc = s.errSrc := by cases p <;> rfl
@[simp] theorem setSource_f1 : (s.setSource p c).f1 = s.f1 := by cases p <;> rfl
@[simp] theorem setSource_f2 : (s.setSource p c).f2 = s.f2 := by cases p <;> rfl
@[simp] theorem setSource_ps : (s.setSource p c).ps = s.ps := by cases p <;> rfl
@[simp] theorem setSource_core : (s.setSource p c).core = s.core := by cases p <;> rfl
@[simp] theorem setSource_params : (s.setSource p c).params = s.params := by cases p <;> rfl
@[simp] theorem setSource_inputs : (s.setSource p c).inputs = s.inputs := by cases p <;> rfl
@[simp] theorem setSource_hostData : (s.setSource p c).hostData = s.hostData := by cases p <;> rfl
@[simp] theorem setSource_ref_ref : (s.setSource .ref c).ref = c := rfl
@[simp] theorem setSource_ref_med : (s.setSource .ref c).med = s.med := rfl
@[simp] theorem setSource_med_ref : (s.setSource .med c).ref = s.ref := rfl
@[simp] theorem setSource_med_med : (s.setSource .med c).med = c := rfl
@[simp] theorem source_ref : s.source .ref = s.ref := rfl
@[simp] theorem source_med : s.source .med = s.med := rfl
@[simp] theorem setSource_filter (u : FilterUnit) : (s.setSource p c).filter u = s.filter u := by
  cases p <;> cases u <;> rfl
end setSource

/-! ### Reset -/

section afterReset
variable (s : State)
@[simp] theorem afterReset_f1 : s.afterReset.f1 = Filter.reset := rfl
@[simp] theorem afterReset_f2 : s.afterReset.f2 = Filter.reset := rfl
@[simp] theorem afterReset_ps : s.afterReset.ps = Shifter.reset := rfl
@[simp] theorem afterReset_core : s.afterReset.core = CoreUnit.reset := rfl
@[simp] theorem afterReset_err : s.afterReset.err = .none := rfl
@[simp] theorem afterReset_errSrc : s.afterReset.errSrc = .none := rfl
@[simp] theorem afterReset_params : s.afterReset.params = s.params := rfl
@[simp] theorem afterReset_inputs : s.afterReset.inputs = s.inputs := rfl
end afterReset

/-! ### Ends of commands as outcomes -/

theorem complete_eq (s : State) : complete s = .next { s with err := .none, errSrc := .none } := rfl

theorem raise_eq (k : ErrKind) (src : ErrSrc) (s : State) :
    raise k src s = .next { s with err := k, errSrc := src } := rfl

@[simp] theorem complete_next_iff {s t : State} :
    complete s = Host.Outcome.next t ↔ t = s.report .none .none := by
  simp [complete, eq_comm]

@[simp] theorem raise_next_iff {k : ErrKind} {src : ErrSrc} {s t : State} :
    raise k src s = Host.Outcome.next t ↔ t = s.report k src := by
  simp [raise, eq_comm]

end Sys2Proof.Machine
end

