-- ==== Sys2Proof/Laws/Commands.lean ====
section
/-! SUPPORT. Everything each command can do: if it answers a next state, which state that is. Later
proofs take these apart and never unfold a command. -/

namespace Sys2Proof.Machine

/-! ### Ports -/

theorem connectPort_eq (p : Port) (s : State) :
    connectPort p s = (((s.source p).answerConnect p).1, s.setSource p ((s.source p).answerConnect p).2) :=
  rfl

theorem readPort_eq (p : Port) (s : State) :
    readPort p s = (((s.source p).answerRead p).1, s.setSource p ((s.source p).answerRead p).2) := rfl

/-- The state as it is, but for the sources. -/
def State.withSources (s : State) (c d : Source) : State := { s with ref := c, med := d }

section withSources
variable (s : State) (c d : Source)
@[simp] theorem withSources_arg0 : (s.withSources c d).arg0 = s.arg0 := rfl
@[simp] theorem withSources_arg1 : (s.withSources c d).arg1 = s.arg1 := rfl
@[simp] theorem withSources_arg2 : (s.withSources c d).arg2 = s.arg2 := rfl
@[simp] theorem withSources_res0 : (s.withSources c d).res0 = s.res0 := rfl
@[simp] theorem withSources_res1 : (s.withSources c d).res1 = s.res1 := rfl
@[simp] theorem withSources_f1 : (s.withSources c d).f1 = s.f1 := rfl
@[simp] theorem withSources_f2 : (s.withSources c d).f2 = s.f2 := rfl
@[simp] theorem withSources_filter (u : FilterUnit) : (s.withSources c d).filter u = s.filter u := by
  cases u <;> rfl
@[simp] theorem withSources_ps : (s.withSources c d).ps = s.ps := rfl
@[simp] theorem withSources_core : (s.withSources c d).core = s.core := rfl
@[simp] theorem withSources_params : (s.withSources c d).params = s.params := rfl
@[simp] theorem withSources_inputs : (s.withSources c d).inputs = s.inputs := rfl
@[simp] theorem withSources_hostData : (s.withSources c d).hostData = s.hostData := rfl
@[simp] theorem withSources_ref : (s.withSources c d).ref = c := rfl
@[simp] theorem withSources_med : (s.withSources c d).med = d := rfl
end withSources

/-- AcquirePair changes nothing but the sources, and a failure leaves the later source unasked (R301). -/
theorem acquirePair_cases (s : State) :
    (∃ r m, acquirePair s =
      .pair r m (s.withSources (s.ref.answerRead .ref).2 (s.med.answerRead .med).2) ∧
      (s.ref.answerRead .ref).1 = .volts r ∧ (s.med.answerRead .med).1 = .volts m) ∨
    acquirePair s = .failed .ref (s.withSources (s.ref.answerRead .ref).2 s.med) ∨
    acquirePair s =
      .failed .med (s.withSources (s.ref.answerRead .ref).2 (s.med.answerRead .med).2) ∨
    ∃ p, acquirePair s = .waits p := by
  unfold acquirePair
  rw [readPort_eq]
  rcases hr : (s.source .ref).answerRead .ref with ⟨a, c⟩
  simp only [source_ref] at hr
  cases a with
  | volts r =>
    simp only [readPort_eq]
    rcases hm : ((s.setSource .ref c).source .med).answerRead .med with ⟨b, d⟩
    simp only [source_med, setSource_ref_med] at hm
    cases b with
    | volts m => exact .inl ⟨r, m, by simp [hr, hm, waitSettle]; rfl, by rw [hr], by rw [hm]⟩
    | fail => exact .inr (.inr (.inl (by simp [hr, hm]; rfl)))
    | never => exact .inr (.inr (.inr ⟨.med, by simp⟩))
  | fail => exact .inr (.inl (by simp [hr]; rfl))
  | never => exact .inr (.inr (.inr ⟨.ref, by simp⟩))

/-! ### Filter commands -/

theorem execFcfg_next {u : FilterUnit} {n : Nat} {s t : State} (h : execFcfg u n s = .next t) :
    (filterValid s.params n s.arg0 s.arg1 = true ∧
      t = (s.setFilter u (configuredFilter s.params n s.arg0 s.arg1 (s.filter u))).report .none .none) ∨
    t = s.report .invalidParameter (unitSrc u) := by
  unfold execFcfg at h
  split at h
  · exact .inl ⟨‹_›, complete_next_iff.mp h⟩
  · exact .inr (raise_next_iff.mp h)

theorem execFsetfs_next {u : FilterUnit} {s t : State} (h : execFsetfs u s = .next t) :
    t = s.report .notConfigured (unitSrc u) ∨
    ((s.filter u).cfg = true ∧
      filterValid s.params (s.filter u).order (s.filter u).fc s.arg0 = true ∧
      t = (s.setFilter u (loadCoeffs s.params { s.filter u with fs := s.arg0 })).report .none .none) ∨
    t = s.report .invalidParameter (unitSrc u) := by
  unfold execFsetfs at h
  split at h
  · exact .inl (raise_next_iff.mp h)
  · split at h
    · exact .inr (.inl ⟨eq_true_of_ne_false ‹_›, ‹_›, complete_next_iff.mp h⟩)
    · exact .inr (.inr (raise_next_iff.mp h))

theorem execFsetfc_next {u : FilterUnit} {s t : State} (h : execFsetfc u s = .next t) :
    t = s.report .notConfigured (unitSrc u) ∨
    ((s.filter u).cfg = true ∧
      filterValid s.params (s.filter u).order s.arg0 (s.filter u).fs = true ∧
      t = (s.setFilter u (loadCoeffs s.params { s.filter u with fc := s.arg0 })).report .none .none) ∨
    t = s.report .invalidParameter (unitSrc u) := by
  unfold execFsetfc at h
  split at h
  · exact .inl (raise_next_iff.mp h)
  · split at h
    · exact .inr (.inl ⟨eq_true_of_ne_false ‹_›, ‹_›, complete_next_iff.mp h⟩)
    · exact .inr (.inr (raise_next_iff.mp h))

theorem execFsetord_next {u : FilterUnit} {n : Nat} {s t : State} (h : execFsetord u n s = .next t) :
    t = s.report .notConfigured (unitSrc u) ∨
    ((s.filter u).cfg = true ∧
      filterValid s.params n (s.filter u).fc (s.filter u).fs = true ∧
      t = (s.setFilter u (reorderedFilter s.params n (s.filter u))).report .none .none) ∨
    t = s.report .invalidParameter (unitSrc u) := by
  unfold execFsetord at h
  split at h
  · exact .inl (raise_next_iff.mp h)
  · split at h
    · exact .inr (.inl ⟨eq_true_of_ne_false ‹_›, ‹_›, complete_next_iff.mp h⟩)
    · exact .inr (.inr (raise_next_iff.mp h))

theorem execFfilt_next {u : FilterUnit} {s t : State} (h : execFfilt u s = .next t) :
    t = s.report .notConfigured (unitSrc u) ∨
    ((s.filter u).cfg = true ∧ ∃ f y, filterStep (s.filter u) s.arg0 = (f, some y) ∧
      t = { s.setFilter u f with res0 := y, err := .none, errSrc := .none }) ∨
    ((s.filter u).cfg = true ∧ ∃ f, filterStep (s.filter u) s.arg0 = (f, none) ∧
      t = (s.setFilter u f).report .numericalInstability (unitSrc u)) := by
  unfold execFfilt at h
  split at h
  · exact .inl (raise_next_iff.mp h)
  · have hc : (s.filter u).cfg = true := eq_true_of_ne_false ‹_›
    rcases hs : filterStep (s.filter u) s.arg0 with ⟨f, _ | y⟩ <;> rw [hs] at h
    · exact .inr (.inr ⟨hc, f, rfl, raise_next_iff.mp h⟩)
    · exact .inr (.inl ⟨hc, f, y, rfl, complete_next_iff.mp h⟩)

/-! ### Shifter commands -/

theorem execPcfg_next {fl : Nat} {s t : State} (h : execPcfg fl s = .next t) :
    (shiftValid s.params s.arg0 s.arg1 fl = true ∧
      t = { s with ps := configuredShifter s.arg0 s.arg1 fl s.ps, err := .none, errSrc := .none }) ∨
    t = s.report .invalidParameter .ps := by
  unfold execPcfg at h
  split at h
  · exact .inl ⟨‹_›, complete_next_iff.mp h⟩
  · exact .inr (raise_next_iff.mp h)

theorem execPsetfs_next {s t : State} (h : execPsetfs s = .next t) :
    t = s.report .notConfigured .ps ∨
    (s.ps.cfg = true ∧ shiftValid s.params s.arg0 s.ps.fr s.ps.floor = true ∧
      t = { s with ps := shifterWithFs s.arg0 s.ps, err := .none, errSrc := .none }) ∨
    t = s.report .invalidParameter .ps := by
  unfold execPsetfs at h
  split at h
  · exact .inl (raise_next_iff.mp h)
  · split at h
    · exact .inr (.inl ⟨eq_true_of_ne_false ‹_›, ‹_›, complete_next_iff.mp h⟩)
    · exact .inr (.inr (raise_next_iff.mp h))

theorem execPsetfr_next {s t : State} (h : execPsetfr s = .next t) :
    t = s.report .notConfigured .ps ∨
    (s.ps.cfg = true ∧ shiftValid s.params s.ps.fs s.arg0 s.ps.floor = true ∧
      t = { s with ps := shifterWithFr s.arg0 s.ps, err := .none, errSrc := .none }) ∨
    t = s.report .invalidParameter .ps := by
  unfold execPsetfr at h
  split at h
  · exact .inl (raise_next_iff.mp h)
  · split at h
    · exact .inr (.inl ⟨eq_true_of_ne_false ‹_›, ‹_›, complete_next_iff.mp h⟩)
    · exact .inr (.inr (raise_next_iff.mp h))

theorem execPshift_next {s t : State} (h : execPshift s = .next t) :
    t = s.report .notConfigured .ps ∨
    (s.ps.cfg = true ∧
      t = { s with ps := (shiftStep s.ps s.arg0).1, res0 := (shiftStep s.ps s.arg0).2,
                   err := .none, errSrc := .none }) := by
  unfold execPshift at h
  split at h
  · exact .inl (raise_next_iff.mp h)
  · exact .inr ⟨eq_true_of_ne_false ‹_›, complete_next_iff.mp h⟩

/-! ### Core commands -/

theorem execCinit_next {n : Nat} {s t : State} (h : execCinit n s = .next t) :
    (∃ src, src ∈ [ErrSrc.ps, .f1, .core] ∧ t = s.report .invalidParameter src) ∨
    (shiftValid s.params s.arg1 s.arg0 Config.coreFloor = true ∧
      filterValid s.params n (cutoffOf s.arg0) s.arg1 = true ∧ validSettle s.arg2 = true ∧
      t = (constructedCore n s).report .none .none) := by
  unfold execCinit at h
  split at h
  · exact .inl ⟨.ps, by simp, raise_next_iff.mp h⟩
  · split at h
    · exact .inl ⟨.f1, by simp, raise_next_iff.mp h⟩
    · split at h
      · exact .inl ⟨.core, by simp, raise_next_iff.mp h⟩
      · exact .inr ⟨by simp_all, by simp_all, by simp_all, complete_next_iff.mp h⟩

theorem execCsetfs_next {s t : State} (h : execCsetfs s = .next t) :
    t = s.report .notConfigured .core ∨
    (∃ src, src ∈ [ErrSrc.ps, .f1, .f2] ∧ t = s.report .invalidParameter src) ∨
    (s.core.cfg = true ∧ shiftValid s.params s.arg0 s.ps.fr s.ps.floor = true ∧
      filterValid s.params s.f1.order s.f1.fc s.arg0 = true ∧
      filterValid s.params s.f2.order s.f2.fc s.arg0 = true ∧
      t = { s with ps := shifterWithFs s.arg0 s.ps
                   f1 := loadCoeffs s.params { s.f1 with fs := s.arg0 }
                   f2 := loadCoeffs s.params { s.f2 with fs := s.arg0 }
                   err := .none, errSrc := .none }) := by
  unfold execCsetfs at h
  split at h
  · exact .inl (raise_next_iff.mp h)
  · split at h
    · exact .inr (.inl ⟨.ps, by simp, raise_next_iff.mp h⟩)
    · split at h
      · exact .inr (.inl ⟨.f1, by simp, raise_next_iff.mp h⟩)
      · split at h
        · exact .inr (.inl ⟨.f2, by simp, raise_next_iff.mp h⟩)
        · exact .inr (.inr ⟨by simp_all, by simp_all, by simp_all, by simp_all, complete_next_iff.mp h⟩)

theorem execCsetfr_next {s t : State} (h : execCsetfr s = .next t) :
    t = s.report .notConfigured .core ∨
    (∃ src, src ∈ [ErrSrc.ps, .f1, .f2] ∧ t = s.report .invalidParameter src) ∨
    (s.core.cfg = true ∧ shiftValid s.params s.ps.fs s.arg0 s.ps.floor = true ∧
      filterValid s.params s.f1.order (cutoffOf s.arg0) s.f1.fs = true ∧
      filterValid s.params s.f2.order (cutoffOf s.arg0) s.f2.fs = true ∧
      t = { s with ps := shifterWithFr s.arg0 s.ps
                   f1 := loadCoeffs s.params { s.f1 with fc := cutoffOf s.arg0 }
                   f2 := loadCoeffs s.params { s.f2 with fc := cutoffOf s.arg0 }
                   err := .none, errSrc := .none }) := by
  unfold execCsetfr at h
  split at h
  · exact .inl (raise_next_iff.mp h)
  · split at h
    · exact .inr (.inl ⟨.ps, by simp, raise_next_iff.mp h⟩)
    · split at h
      · exact .inr (.inl ⟨.f1, by simp, raise_next_iff.mp h⟩)
      · split at h
        · exact .inr (.inl ⟨.f2, by simp, raise_next_iff.mp h⟩)
        · exact .inr (.inr ⟨by simp_all, by simp_all, by simp_all, by simp_all, complete_next_iff.mp h⟩)

theorem execCsetord_next {n : Nat} {s t : State} (h : execCsetord n s = .next t) :
    t = s.report .notConfigured .core ∨
    (∃ src, src ∈ [ErrSrc.f1, .f2] ∧ t = s.report .invalidParameter src) ∨
    (s.core.cfg = true ∧ filterValid s.params n s.f1.fc s.f1.fs = true ∧
      filterValid s.params n s.f2.fc s.f2.fs = true ∧
      t = { s with f1 := reorderedFilter s.params n s.f1
                   f2 := reorderedFilter s.params n s.f2
                   err := .none, errSrc := .none }) := by
  unfold execCsetord at h
  split at h
  · exact .inl (raise_next_iff.mp h)
  · split at h
    · exact .inr (.inl ⟨.f1, by simp, raise_next_iff.mp h⟩)
    · split at h
      · exact .inr (.inl ⟨.f2, by simp, raise_next_iff.mp h⟩)
      · exact .inr (.inr ⟨by simp_all, by simp_all, by simp_all, complete_next_iff.mp h⟩)

/-! ### Channel commands -/

theorem execCconn_next {s t : State} (h : execCconn s = .next t) :
    t = s.report .notConfigured .core ∨
    (s.core.cfg = true ∧ ∃ c d,
      (t = (s.withSources c d).report .deviceUnavailable .ref ∨
        t = (s.withSources c d).report .deviceUnavailable .med ∨
        t = (s.withSources c d).report .none .none)) := by
  unfold execCconn at h
  split at h
  · exact .inl (raise_next_iff.mp h)
  · refine .inr ⟨eq_true_of_ne_false ‹_›, ?_⟩
    rw [connectPort_eq] at h
    rcases hr : (s.source .ref).answerConnect .ref with ⟨a, c⟩
    rw [hr] at h
    cases a with
    | ok =>
      simp only [connectPort_eq] at h
      rcases hm : ((s.setSource .ref c).source .med).answerConnect .med with ⟨b, d⟩
      rw [hm] at h
      refine ⟨c, d, ?_⟩
      cases b with
      | ok => exact .inr (.inr (complete_next_iff.mp h))
      | fail => exact .inr (.inl (raise_next_iff.mp h))
      | never => simp at h
    | fail => exact ⟨c, s.med, .inl (raise_next_iff.mp h)⟩
    | never => simp at h

/-- What a demodulation ends in: F1 raises, F2 raises, or both complete (R316). -/
theorem demodulate_next {r m : F64} {s t : State} (h : demodulate r m s = .next t) :
    (∃ f1, filterStep s.f1 (mul64 m r) = (f1, none) ∧
      t = { s with ps := (shiftStep s.ps r).1, f1 := f1, err := .numericalInstability,
                   errSrc := .f1 }) ∨
    (∃ f1 i f2, filterStep s.f1 (mul64 m r) = (f1, some i) ∧
      filterStep s.f2 (mul64 m (shiftStep s.ps r).2) = (f2, none) ∧
      t = { s with ps := (shiftStep s.ps r).1, f1 := f1, f2 := f2, err := .numericalInstability,
                   errSrc := .f2 }) ∨
    (∃ f1 i f2 q, filterStep s.f1 (mul64 m r) = (f1, some i) ∧
      filterStep s.f2 (mul64 m (shiftStep s.ps r).2) = (f2, some q) ∧
      t = { s with ps := (shiftStep s.ps r).1, f1 := f1, f2 := f2,
                   res0 := hypot s.params.estimator i q,
                   res1 := normPhase (atan2 s.params.estimator q i),
                   err := .none, errSrc := .none }) := by
  unfold demodulate at h
  rcases h1 : filterStep s.f1 (mul64 m r) with ⟨f1, _ | i⟩ <;> simp only [h1] at h
  · exact .inl ⟨f1, rfl, raise_next_iff.mp h⟩
  · rcases h2 : filterStep s.f2 (mul64 m (shiftStep s.ps r).2) with ⟨f2, _ | q⟩ <;>
      simp only [h2] at h
    · exact .inr (.inl ⟨f1, i, f2, rfl, rfl, raise_next_iff.mp h⟩)
    · exact .inr (.inr ⟨f1, i, f2, q, rfl, rfl, complete_next_iff.mp h⟩)

theorem execCacq_next {s t : State} (h : execCacq s = .next t) :
    t = s.report .notConfigured .core ∨
    (s.core.cfg = true ∧ ∃ c d,
      ((∃ r m, acquirePair s = .pair r m (s.withSources c d) ∧
          t = { s.withSources c d with res0 := r, res1 := m, err := .none, errSrc := .none }) ∨
        t = (s.withSources c d).report .acquisitionError .ref ∨
        t = (s.withSources c d).report .acquisitionError .med)) := by
  unfold execCacq at h
  split at h
  · exact .inl (raise_next_iff.mp h)
  · refine .inr ⟨eq_true_of_ne_false ‹_›, ?_⟩
    rcases acquirePair_cases s with ⟨r, m, ha, -, -⟩ | ha | ha | ⟨p, ha⟩ <;> simp only [ha] at h
    · exact ⟨_, _, .inl ⟨r, m, ha, complete_next_iff.mp h⟩⟩
    · exact ⟨_, _, .inr (.inl (raise_next_iff.mp h))⟩
    · exact ⟨_, _, .inr (.inr (raise_next_iff.mp h))⟩
    · simp at h

theorem execCdemod_next {s t : State} (h : execCdemod s = .next t) :
    t = s.report .notConfigured .core ∨
    (s.core.cfg = true ∧ demodulate s.arg0 s.arg1 s = .next t) := by
  unfold execCdemod at h
  split at h
  · exact .inl (raise_next_iff.mp h)
  · exact .inr ⟨eq_true_of_ne_false ‹_›, h⟩

theorem execCstep_next {s t : State} (h : execCstep s = .next t) :
    t = s.report .notConfigured .core ∨
    (s.core.cfg = true ∧ ∃ c d,
      ((∃ r m, acquirePair s = .pair r m (s.withSources c d) ∧
          demodulate r m (s.withSources c d) = .next t) ∨
        t = (s.withSources c d).report .acquisitionError .ref ∨
        t = (s.withSources c d).report .acquisitionError .med)) := by
  unfold execCstep at h
  split at h
  · exact .inl (raise_next_iff.mp h)
  · refine .inr ⟨eq_true_of_ne_false ‹_›, ?_⟩
    rcases acquirePair_cases s with ⟨r, m, ha, -, -⟩ | ha | ha | ⟨p, ha⟩ <;> simp only [ha] at h
    · exact ⟨_, _, .inl ⟨r, m, ha, h⟩⟩
    · exact ⟨_, _, .inr (.inl (raise_next_iff.mp h))⟩
    · exact ⟨_, _, .inr (.inr (raise_next_iff.mp h))⟩
    · simp at h

end Sys2Proof.Machine
end

