-- ==== Sys2Proof/Laws/Decode.lean ====
section
/-! SUPPORT. Laws of command words: a word is its fields, an encoded command has the fields it was made
from, and what it means for a word to match a row (R120 to R125). -/

namespace Sys2Proof

/-! ### Fields (R120) -/

/-- A word is its four fields. -/
theorem word_fields (w : Word) :
    w = w.extractLsb' 24 8 ++ rsvOf w ++ w.extractLsb' 8 1 ++ opcOf w := by
  apply BitVec.eq_of_getLsbD_eq
  intro i hi
  simp only [rsvOf, opcOf, BitVec.getLsbD_append, BitVec.getLsbD_extractLsb']
  split
  · simp [*]
  · split
    · simp [show i = 8 by omega]
    · split
      · rw [show 9 + (i - 8 - 1) = i by omega]; simp; omega
      · rw [show 24 + (i - 8 - 1 - 15) = i by omega]; simp; omega

theorem append_inj {m n : Nat} {a b : BitVec m} {c d : BitVec n} (h : a ++ c = b ++ d) :
    a = b ∧ c = d := by
  have hl := congrArg (fun x => x.extractLsb' n m) h
  have hr := congrArg (fun x => x.extractLsb' 0 n) h
  simp only [BitVec.extractLsb'_append_eq_left, BitVec.extractLsb'_append_eq_right] at hl hr
  exact ⟨hl, hr⟩

theorem fields_of_append (mi : BitVec 8) (r : BitVec 15) (u : BitVec 1) (o : BitVec 8) :
    (mi ++ r ++ u ++ o).extractLsb' 24 8 = mi ∧ rsvOf (mi ++ r ++ u ++ o) = r ∧
      (mi ++ r ++ u ++ o).extractLsb' 8 1 = u ∧ opcOf (mi ++ r ++ u ++ o) = o := by
  have h := append_inj (word_fields (mi ++ r ++ u ++ o))
  have h1 := append_inj h.1
  have h2 := append_inj h1.1
  exact ⟨h2.1.symm, h2.2.symm, h1.2.symm, h.2.symm⟩

/-- The U bit is the unit the word selects (R123). -/
theorem unitOf_bit (w : Word) : (unitOf w).bit = w.extractLsb' 8 1 := by
  apply BitVec.eq_of_getLsbD_eq
  intro i hi
  obtain rfl : i = 0 := by omega
  rw [BitVec.getLsbD_extractLsb', Nat.add_zero, unitOf]
  cases w.getLsbD 8 <;> decide

theorem bit_injective {u v : FilterUnit} (h : u.bit = v.bit) : u = v := by
  revert h
  cases u <;> cases v <;> decide

theorem unitOf_f2_iff (w : Word) : unitOf w = .f2 ↔ w.getLsbD 8 = true := by
  unfold unitOf
  cases w.getLsbD 8 <;> simp

/-- IMM as a field is IMM as a number (R122). -/
theorem ofNat_immOf (w : Word) : BitVec.ofNat 8 (immOf w) = w.extractLsb' 24 8 :=
  BitVec.ofNat_toNat ..

theorem immOf_le (w : Word) : immOf w ≤ 255 := by
  have := (w.extractLsb' 24 8).isLt
  simp only [immOf]
  omega

theorem immOf_eq_zero (w : Word) : immOf w = 0 ↔ w.extractLsb' 24 8 = 0#8 := by
  rw [← ofNat_immOf]
  have := immOf_le w
  constructor
  · intro h; rw [h]
  · intro h
    have h' := congrArg BitVec.toNat h
    simp at h'
    omega

/-! ### The fields of an encoded command -/

theorem opcOf_encodeWord (i : Instr) : opcOf (encodeWord i) = i.opc :=
  (fields_of_append ..).2.2.2

theorem rsvOf_encodeWord (i : Instr) : rsvOf (encodeWord i) = 0#15 := (fields_of_append ..).2.1

theorem unitOf_encodeWord (i : Instr) : unitOf (encodeWord i) = i.unit :=
  bit_injective ((unitOf_bit _).trans (fields_of_append ..).2.2.1)

theorem immOf_encodeWord {i : Instr} (h : i.WellFormed) : immOf (encodeWord i) = i.imm := by
  have h' : i.imm ≤ 255 := by simpa [Instr.WellFormed, Instr.wf] using h
  rw [immOf, encodeWord, (fields_of_append ..).1, BitVec.toNat_ofNat]
  omega

/-- A word with a command's fields is the command's word. -/
theorem encodeWord_of_fields {w : Word} {i : Instr} (ho : i.opc = opcOf w) (hr : rsvOf w = 0#15)
    (hu : i.unit = unitOf w) (hi : i.imm = immOf w) : encodeWord i = w := by
  rw [encodeWord, ho, hu, hi, ofNat_immOf, unitOf_bit, ← hr]
  exact (word_fields w).symm

/-! ### Matching a row (R125), one lemma per format -/

theorem mask_iff (w : Word) (mi : BitVec 8) (mu : BitVec 1) (o : BitVec 8) :
    w &&& (mi ++ 0x7FFF#15 ++ mu ++ 0xFF#8) = 0#8 ++ 0#15 ++ 0#1 ++ o ↔
      w.extractLsb' 24 8 &&& mi = 0#8 ∧ rsvOf w = 0#15 ∧ w.extractLsb' 8 1 &&& mu = 0#1 ∧
        opcOf w = o := by
  have hr : rsvOf w &&& 0x7FFF#15 = rsvOf w := BitVec.and_allOnes (w := 15)
  have ho : opcOf w &&& 0xFF#8 = opcOf w := BitVec.and_allOnes (w := 8)
  constructor
  · intro h
    rw [word_fields w, BitVec.and_append, BitVec.and_append, BitVec.and_append, hr, ho] at h
    have h0 := append_inj h
    have h1 := append_inj h0.1
    have h2 := append_inj h1.1
    exact ⟨h2.1, h2.2, h1.2, h0.2⟩
  · rintro ⟨h1, h2, h3, h4⟩
    rw [word_fields w, BitVec.and_append, BitVec.and_append, BitVec.and_append, hr, ho, h1, h2, h3, h4]

/-- Format UI: both U and IMM are operands. -/
theorem match_ui (w : Word) (o : BitVec 8) :
    w &&& 0x00FFFEFF#32 = 0#24 ++ o ↔ rsvOf w = 0#15 ∧ opcOf w = o := by
  have h := mask_iff w 0#8 0#1 o
  rw [BitVec.and_zero, BitVec.and_zero] at h
  simpa using h

/-- Format U: IMM is zero. -/
theorem match_u (w : Word) (o : BitVec 8) :
    w &&& 0xFFFFFEFF#32 = 0#24 ++ o ↔ immOf w = 0 ∧ rsvOf w = 0#15 ∧ opcOf w = o := by
  have h := mask_iff w 0xFF#8 0#1 o
  rw [BitVec.and_zero, show w.extractLsb' 24 8 &&& 0xFF#8 = w.extractLsb' 24 8 from
    BitVec.and_allOnes (w := 8), ← immOf_eq_zero] at h
  simpa using h

theorem unit_f1_iff (w : Word) : unitOf w = .f1 ↔ w.extractLsb' 8 1 = 0#1 := by
  rw [← unitOf_bit]
  cases unitOf w <;> decide

/-- Format I: U is zero. -/
theorem match_i (w : Word) (o : BitVec 8) :
    w &&& 0x00FFFFFF#32 = 0#24 ++ o ↔ rsvOf w = 0#15 ∧ unitOf w = .f1 ∧ opcOf w = o := by
  have h := mask_iff w 0#8 1#1 o
  rw [BitVec.and_zero, show w.extractLsb' 8 1 &&& 1#1 = w.extractLsb' 8 1 from
    BitVec.and_allOnes (w := 1), ← unit_f1_iff] at h
  simpa using h

/-- Format Z: both are zero. -/
theorem match_z (w : Word) (o : BitVec 8) :
    w &&& 0xFFFFFFFF#32 = 0#24 ++ o ↔
      immOf w = 0 ∧ rsvOf w = 0#15 ∧ unitOf w = .f1 ∧ opcOf w = o := by
  have h := mask_iff w 0xFF#8 1#1 o
  rw [show w.extractLsb' 8 1 &&& 1#1 = w.extractLsb' 8 1 from BitVec.and_allOnes (w := 1),
    show w.extractLsb' 24 8 &&& 0xFF#8 = w.extractLsb' 24 8 from BitVec.and_allOnes (w := 8),
    ← immOf_eq_zero, ← unit_f1_iff] at h
  simpa using h

end Sys2Proof
end

