-- ==== Sys2Proof/Laws/Estimator.lean ====
section
/-! SUPPORT. Laws of the estimator: the integer square root, and that a pick stays among the allowed
patterns (R175 to R178). -/

namespace Sys2Proof.Machine

/-! ### The integer square root -/

theorem isqrtFrom_spec (n : Nat) : ∀ k r, r * r ≤ n → n < (r + 2 ^ k) * (r + 2 ^ k) →
    isqrtFrom n k r * isqrtFrom n k r ≤ n ∧ n < (isqrtFrom n k r + 1) * (isqrtFrom n k r + 1) := by
  intro k
  induction k with
  | zero => intro r h1 h2; exact ⟨h1, by simpa [isqrtFrom] using h2⟩
  | succ k ih =>
    intro r h1 h2
    rw [isqrtFrom]
    split
    · rename_i h
      exact ih _ h (by rwa [Nat.add_assoc, ← two_mul, ← pow_succ'])
    · rename_i h
      exact ih _ h1 (by omega)

/-- `isqrt n` is the floor of the square root of `n`. -/
theorem isqrt_spec (n : Nat) : isqrt n * isqrt n ≤ n ∧ n < (isqrt n + 1) * (isqrt n + 1) := by
  refine isqrtFrom_spec n _ 0 (by simp) ?_
  rw [Nat.zero_add, ← pow_add]
  exact lt_of_lt_of_le Nat.lt_log2_self (Nat.pow_le_pow_right (by norm_num) (by omega))

theorem isqrt_lt {n m : Nat} (h : n < m * m) : isqrt n < m := by
  have := (isqrt_spec n).1
  by_contra hc
  have : m * m ≤ isqrt n * isqrt n := Nat.mul_le_mul (by omega) (by omega)
  omega

/-! ### A pick is allowed -/

/-- Whatever the free pattern and the estimator, the choice keeps an upper bound the allowed patterns
have. -/
theorem choose_le {a : Allowed} {b : Nat} (hlo : a.lo ≤ b) (hhi : a.hi ≤ b)
    (hn : ∀ m, a.nearest = some m → m ≤ b) (e : Estimator) (free : Nat) : a.choose e free ≤ b := by
  have hp : a.pick free ≤ b := by
    unfold Allowed.pick
    split
    · exact hlo
    · split <;> omega
  unfold Allowed.choose
  split
  · exact hn _ ‹_›
  · exact hp
  · exact hp

/-- No angle is above π64 (R176 (f)). -/
theorem angleAllowed_le (a : Enclosure) (e : Estimator) (free : Nat) :
    (angleAllowed a).choose e free ≤ piBits := by
  apply choose_le
  · exact Nat.min_le_right _ _
  · exact Nat.min_le_right _ _
  · intro m hm
    simp only [angleAllowed] at hm
    split at hm
    · simp only [Option.some.injEq] at hm
      rw [← hm]
      exact Nat.min_le_right _ _
    · simp at hm

/-! ### Hypot -/

/-- The significand and the binade of h = sqrt(n) units, below the limit: `t` is under 2^53 and the
binade under that of infinity. -/
theorem hypot_significand {n : Nat} (h : n < hypotLimit * hypotLimit) :
    isqrt (n / 4 ^ (n.log2 / 2 - 52)) < 2 ^ 53 ∧ n.log2 / 2 - 52 ≤ 2045 := by
  constructor
  · apply isqrt_lt
    rw [Nat.div_lt_iff_lt_mul (by positivity), ← pow_add, show (4 : Nat) = 2 ^ 2 by norm_num, ← pow_mul,
      ← pow_add]
    exact lt_of_lt_of_le Nat.lt_log2_self (Nat.pow_le_pow_right (by norm_num) (by omega))
  · have h1 : hypotLimit * hypotLimit ≤ 2 ^ 4196 := by decide +kernel
    by_cases h0 : n = 0
    · simp [h0]
    · have := (Nat.log2_lt h0).2 (lt_of_lt_of_le h h1)
      omega

/-- The patterns around `m`, as `hypotAllowed` lists them, and their bound. -/
theorem choose_around_le {m top : Nat} (h : m + 1 ≤ top) (p q r c : Prop) [Decidable p] [Decidable q]
    [Decidable r] [Decidable c] (e : Estimator) (free : Nat) :
    (if p then (⟨m, m, some m⟩ : Allowed)
      else if q then ⟨m - 1, m, some (if c then m + 1 else m)⟩
      else if r then ⟨m - 1, m + 1, some (if c then m + 1 else m)⟩
      else ⟨m, m + 1, some (if c then m + 1 else m)⟩).choose e free ≤ top := by
  have near : ∀ k, some (if c then m + 1 else m) = some k → k ≤ top := by
    intro k hk
    simp only [Option.some.injEq] at hk
    rw [← hk]
    split <;> omega
  have only : ∀ k, some m = some k → k ≤ top := by
    intro k hk
    simp only [Option.some.injEq] at hk
    omega
  have h0 : m ≤ top := by omega
  have h1 : m - 1 ≤ top := by omega
  split
  · exact choose_le h0 h0 only _ _
  · split
    · exact choose_le h1 h0 near _ _
    · split
      · exact choose_le h1 h near _ _
      · exact choose_le h0 h near _ _

/-- Every pattern `hypotAllowed` allows is at most that of infinity, so Hypot is never a NaN (R175 (d)). -/
theorem hypotAllowed_le (n : Nat) (e : Estimator) (free : Nat) :
    (hypotAllowed n).choose e free ≤ infBits := by
  by_cases h : hypotLimit * hypotLimit ≤ n
  · have : hypotAllowed n = ⟨infBits, infBits, some infBits⟩ := by simp only [hypotAllowed, if_pos h]
    rw [this]
    exact choose_le le_rfl le_rfl (by simp) _ _
  · obtain ⟨ht, he⟩ := hypot_significand (not_le.1 h)
    have hm : (n.log2 / 2 - 52) * 2 ^ 52 + isqrt (n / 4 ^ (n.log2 / 2 - 52)) + 1 ≤ infBits := by
      have : infBits = 2047 * 2 ^ 52 := by decide
      omega
    unfold hypotAllowed
    rw [if_neg h]
    exact choose_around_le hm _ _ _ _ _ _

end Sys2Proof.Machine
end

