-- ==== Sys2Proof/Laws/PerInstr.lean ====
section
/-! SUPPORT. Laws of commands as syntax, one lemma per constructor. -/

namespace Sys2Proof.Laws.EncodeFields

/-- The command's word carries its opcode, its unit, its immediate and a zero reserved field (R120, R123,
R125). -/
def Statement (i : Instr) : Prop :=
  i.WellFormed →
    opcOf (encodeWord i) = i.opc ∧ unitOf (encodeWord i) = i.unit ∧ rsvOf (encodeWord i) = 0#15 ∧
      immOf (encodeWord i) = i.imm

theorem of_fields (i : Instr) : Statement i := fun h =>
  ⟨opcOf_encodeWord i, unitOf_encodeWord i, rsvOf_encodeWord i, immOf_encodeWord h⟩

theorem fcfg (u : FilterUnit) (n : Nat) : Statement (.fcfg u n) := of_fields _

theorem fsetfs (u : FilterUnit) : Statement (.fsetfs u) := of_fields _

theorem fsetfc (u : FilterUnit) : Statement (.fsetfc u) := of_fields _

theorem fsetord (u : FilterUnit) (n : Nat) : Statement (.fsetord u n) := of_fields _

theorem ffilt (u : FilterUnit) : Statement (.ffilt u) := of_fields _

theorem pcfg (fl : Nat) : Statement (.pcfg fl) := of_fields _

theorem psetfs : Statement .psetfs := of_fields _

theorem psetfr : Statement .psetfr := of_fields _

theorem pshift : Statement .pshift := of_fields _

theorem cinit (n : Nat) : Statement (.cinit n) := of_fields _

theorem csetfs : Statement .csetfs := of_fields _

theorem csetfr : Statement .csetfr := of_fields _

theorem csetord (n : Nat) : Statement (.csetord n) := of_fields _

theorem cconn : Statement .cconn := of_fields _

theorem cacq : Statement .cacq := of_fields _

theorem cdemod : Statement .cdemod := of_fields _

theorem cstep : Statement .cstep := of_fields _

end Sys2Proof.Laws.EncodeFields
end

