-- ==== Sys2Proof/Laws/Rounding.lean ====
section
/-! SUPPORT. Laws of the rounding: the units of a pattern written as a binade and a significand, and the
binade a quotient falls in (R161). -/

namespace Sys2Proof.Machine

/-- A significand `t` of the binade `e` stands for `t * 2^e` units; the next binade's first value may be
written with the significand 2^53. -/
theorem magUnits_pattern {e t : Nat} (ht : t ≤ 2 ^ 53) (h : e = 0 ∨ 2 ^ 52 ≤ t) :
    magUnits (e * 2 ^ 52 + t) = t * 2 ^ e := by
  unfold magUnits
  norm_num at ht h ⊢
  by_cases h1 : t < 4503599627370496
  · have he : e = 0 := by omega
    subst he
    rw [if_pos (by omega)]
    simp
    omega
  · by_cases h2 : t = 9007199254740992
    · subst h2
      rw [if_neg (by omega), show (e * 4503599627370496 + 9007199254740992) / 4503599627370496 - 1 = e + 1
        by omega, pow_succ]
      omega
    · rw [if_neg (by omega), show (e * 4503599627370496 + t) / 4503599627370496 - 1 = e by omega,
        show 4503599627370496 + t % 4503599627370496 = t by omega]

/-- The significand of a quotient in its binade. -/
theorem binade_significand (num den : Nat) :
    num / (den * 2 ^ binade num den) < 2 ^ 53 ∧
      (binade num den = 0 ∨ 2 ^ 52 ≤ num / (den * 2 ^ binade num den)) := by
  rw [← Nat.div_div_eq_div_mul]
  generalize hq : num / den = q
  have hb : binade num den = q.log2 - 52 := by rw [binade, hq]
  rw [hb]
  constructor
  · rw [Nat.div_lt_iff_lt_mul (by positivity), ← pow_add]
    exact lt_of_lt_of_le Nat.lt_log2_self (Nat.pow_le_pow_right (by norm_num) (by omega))
  · by_cases h : q.log2 ≤ 52
    · left; omega
    · right
      rw [Nat.le_div_iff_mul_le (by positivity), ← pow_add, show 52 + (q.log2 - 52) = q.log2 by omega]
      exact Nat.log2_self_le (by rintro rfl; simp at h)

/-- Infinity's pattern continues the magnitudes: it would stand for 2^1024. -/
theorem magUnits_infBits : magUnits infBits = 2 ^ 2098 := by decide +kernel

theorem magUnits_largest : magUnits (infBits - 1) = (2 ^ 53 - 1) * 2 ^ 2045 := by decide +kernel

end Sys2Proof.Machine
end

