-- ==== Sys2Proof/Laws/Window.lean ====
section
/-! SUPPORT. Laws of the register window: which register stands at an offset, which accesses it takes,
and what a host access does (R81 to R90). -/

namespace Sys2Proof.Machine

/-! ### The map (R81) -/

/-- Every byte of a register belongs to that register: the registers do not overlap. -/
theorem regAt_byte : ∀ (r : Reg) (k : Nat), k < r.bytes → regAt (r.offset + k) = some r := by
  intro r k hk
  have : ∀ k : Fin 8, k.val < r.bytes → regAt (r.offset + k.val) = some r := by
    cases r <;> decide
  have h8 : k < 8 := by cases r <;> simp only [Reg.bytes] at hk <;> omega
  exact this ⟨k, h8⟩ hk

/-- The register found at an offset covers that offset. -/
theorem regAt_some {off : Nat} {r : Reg} (h : regAt off = some r) :
    r.offset ≤ off ∧ off < r.offset + r.bytes := by
  simpa using List.find?_some h

/-- Above PS_QUARTER the window is reserved. -/
theorem regAt_above {off : Nat} (h : 0x84 ≤ off) : regAt off = none := by
  rw [regAt, List.find?_eq_none]
  intro r _
  have : r.offset + r.bytes ≤ 0x84 := by cases r <;> decide
  simp
  omega

theorem regAt_reserved {off : Nat} (h : (0x34 ≤ off ∧ off < 0x40) ∨ 0x84 ≤ off) :
    regAt off = none := by
  rcases h with ⟨h1, h2⟩ | h
  · interval_cases off <;> rfl
  · exact regAt_above h

/-- CMD, and only CMD, stands below STATUS. -/
theorem regAt_cmd_iff (off : Nat) : regAt off = some .cmd ↔ off < 4 := by
  constructor
  · intro h; simpa [Reg.offset, Reg.bytes] using regAt_some h
  · intro h; interval_cases off <;> rfl

/-! ### The accesses the window takes (R83, R84, R89) -/

/-- The check of an access agrees with the offsets the map gives. -/
theorem accessAllowed_iff {off n : Nat} (h : off < 256) :
    accessAllowed off n = true ↔ takenAccess off n := by
  by_cases h4 : n = 4
  · subst h4
    have : ∀ k : Fin 256, accessAllowed k.val 4 = decide (k.val % 4 = 0) := by decide +kernel
    rw [this ⟨off, h⟩]; simp [takenAccess]
  · by_cases h8 : n = 8
    · subst h8
      have : ∀ k : Fin 256, accessAllowed k.val 8 =
          decide (k.val % 8 = 0 ∧ k.val ≠ 0x00 ∧ k.val ≠ 0x30 ∧ k.val ≠ 0x78 ∧ k.val ≠ 0x80) := by
        decide +kernel
      rw [this ⟨off, h⟩]; simp [takenAccess]
    · simp [accessAllowed, takenAccess, h4, h8]

theorem accessAllowed_size {off n : Nat} (h : accessAllowed off n = true) : n = 4 ∨ n = 8 := by
  simp only [accessAllowed, Bool.and_eq_true, decide_eq_true_eq] at h
  exact h.1.1.1

/-- An access the window takes lies in one register, or meets none. -/
theorem accessAllowed_extent {off n : Nat} {r : Reg} (h : accessAllowed off n = true)
    (hr : regAt off = some r) : off + n ≤ r.offset + r.bytes := by
  simp only [accessAllowed, Bool.and_eq_true, hr, decide_eq_true_eq] at h
  exact h.2

/-! ### Addresses (R80) -/

theorem windowOffset_base {s : State} {off : Nat} (h : off < 256) :
    windowOffset s (s.params.base + off) = some off := by
  rw [windowOffset, if_pos (by omega)]
  simp

@[simp] theorem windowOffset_inputs (s : State) (l : List Event) (a : Nat) :
    windowOffset { s with inputs := l } a = windowOffset s a := rfl

/-! ### Host accesses (R84 to R90) -/

theorem busRead_taken {s : State} {off n : Nat} (ho : off < 256) (h : takenAccess off n) :
    busRead (s.params.base + off) n s = .next { s with hostData := some (windowRead s off n) } := by
  simp [busRead, windowOffset_base ho, (accessAllowed_iff ho).2 h]

theorem busRead_refused {s : State} {off n : Nat} (ho : off < 256) (h : ¬ takenAccess off n) :
    busRead (s.params.base + off) n s = .fault .busError := by
  have : accessAllowed off n = false := by
    simpa using mt (accessAllowed_iff ho).1 h
  simp [busRead, windowOffset_base ho, this]

theorem busWrite_refused {s : State} {off n : Nat} {d : BitVec 64} (ho : off < 256)
    (h : ¬ takenAccess off n) : busWrite (s.params.base + off) n d s = .fault .busError := by
  have : accessAllowed off n = false := by
    simpa using mt (accessAllowed_iff ho).1 h
  simp [busWrite, windowOffset_base ho, this]

/-- A write to CMD runs a command. -/
theorem busWrite_cmd {s : State} {d : BitVec 64} :
    busWrite s.params.base 4 d s = runCommand (d.setWidth 32) s := by
  have h := windowOffset_base (s := s) (off := 0) (by decide)
  have ha : accessAllowed 0 4 = true := by decide
  have hr : regAt 0 = some .cmd := by decide
  simp only [Nat.add_zero] at h
  simp [busWrite, h, ha, hr]

/-- A write elsewhere stores, or is ignored. -/
theorem busWrite_taken {s : State} {off n : Nat} {d : BitVec 64} (ho : off < 256) (h4 : 4 ≤ off)
    (h : takenAccess off n) :
    busWrite (s.params.base + off) n d s = .next (windowWrite s off n d) := by
  have hr : regAt off ≠ some .cmd := by rw [Ne, regAt_cmd_iff]; omega
  simp [busWrite, windowOffset_base ho, (accessAllowed_iff ho).2 h, hr]

/-- Everything a host read can do. -/
theorem busRead_next {s t : State} {a n : Nat} (h : busRead a n s = .next t) :
    ∃ v, t = { s with hostData := some v } := by
  unfold busRead at h
  split at h
  · simp at h
  · split at h
    · exact ⟨_, by simpa [eq_comm] using h⟩
    · simp at h

/-- Everything a host write can do: run a command at offset 0, or change an ARG register, or nothing. -/
theorem busWrite_next {s t : State} {a n : Nat} {d : BitVec 64} (h : busWrite a n d s = .next t) :
    (a = s.params.base ∧ n = 4 ∧ runCommand (d.setWidth 32) s = .next t) ∨
    (∃ off, a = s.params.base + off ∧ 4 ≤ off ∧ off < 256 ∧ takenAccess off n ∧
      t = windowWrite s off n d) := by
  unfold busWrite at h
  split at h
  · simp at h
  · rename_i off hoff
    have hw : a = s.params.base + off ∧ off < 256 := by
      unfold windowOffset at hoff
      split at hoff
      · simp only [Option.some.injEq] at hoff; omega
      · simp at hoff
    split at h
    · rename_i hacc
      have htk := (accessAllowed_iff hw.2).1 hacc
      split at h
      · rename_i hcmd
        rw [regAt_cmd_iff] at hcmd
        simp only [takenAccess] at htk
        have : off = 0 ∧ n = 4 := by omega
        exact .inl ⟨by omega, this.2, h⟩
      · rename_i hcmd
        rw [regAt_cmd_iff] at hcmd
        exact .inr ⟨off, hw.1, by omega, hw.2, htk, by simpa [eq_comm] using h⟩
    · simp at h

/-- A write that does not run a command touches nothing but ARG. -/
theorem windowWrite_cases (s : State) (off n : Nat) (d : BitVec 64) :
    (∃ v, 0x08 ≤ off ∧ off < 0x10 ∧ windowWrite s off n d = { s with arg0 := v }) ∨
    (∃ v, 0x10 ≤ off ∧ off < 0x18 ∧ windowWrite s off n d = { s with arg1 := v }) ∨
    (∃ v, 0x18 ≤ off ∧ off < 0x20 ∧ windowWrite s off n d = { s with arg2 := v }) ∨
    windowWrite s off n d = s := by
  unfold windowWrite
  split
  · rename_i h; have := regAt_some h
    exact .inl ⟨_, this.1, this.2, rfl⟩
  · rename_i h; have := regAt_some h
    exact .inr (.inl ⟨_, this.1, this.2, rfl⟩)
  · rename_i h; have := regAt_some h
    exact .inr (.inr (.inl ⟨_, this.1, this.2, rfl⟩))
  · exact .inr (.inr (.inr rfl))

end Sys2Proof.Machine
end

