-- ==== Sys2Proof/Laws/Step.lean ====
section
/-! SUPPORT. What one step of the machine can do, said once. -/

namespace Sys2Proof.Machine

theorem step_of_inputs {s : State} {e : Event} {rest : List Event} (h : s.inputs = e :: rest) :
    step s = takeInput e { s with inputs := rest } := by
  simp [step, serveNext, h]

theorem runCommand_ok {w : Word} {i : Instr} {s : State} (h : decodeWord w = .ok i) :
    runCommand w s = exec i s := by
  simp [runCommand, h]

theorem runCommand_error {w : Word} {e : DecodeError} {s : State} (h : decodeWord w = .error e) :
    runCommand w s = .next (s.report .illegalCommand .decode) := by
  simp [runCommand, h, raise]

/-- Everything a step can do. `s'` is the state with the served input taken off. -/
theorem step_next {s t : State} (h : step s = .next t) :
    (s.inputs = [] ∧ t = s) ∨
    ∃ e rest s', s.inputs = e :: rest ∧ s' = { s with inputs := rest } ∧
      ((t = s'.afterReset ∧ (e = .reset ∨ ∃ w, e = .commandReset w)) ∨
        (∃ a n v, e = .read a n ∧ t = { s' with hostData := some v }) ∨
        (∃ w d, e = .write s.params.base 4 d ∧ w = d.setWidth 32 ∧
          ((∃ i, decodeWord w = .ok i ∧ exec i s' = .next t) ∨
            ((∃ r, decodeWord w = .error r) ∧ t = s'.report .illegalCommand .decode))) ∨
        (∃ off n d, e = .write (s.params.base + off) n d ∧ 4 ≤ off ∧ off < 256 ∧
          takenAccess off n ∧ t = windowWrite s' off n d)) := by
  unfold step serveNext at h
  split at h
  · rename_i hin
    exact .inl ⟨hin, by simpa [eq_comm] using h⟩
  · rename_i e rest hin
    refine .inr ⟨e, rest, _, hin, rfl, ?_⟩
    cases e with
    | read a n =>
      obtain ⟨v, hv⟩ := busRead_next h
      exact .inr (.inl ⟨a, n, v, rfl, hv⟩)
    | write a n d =>
      rcases busWrite_next h with ⟨ha, hn, hr⟩ | ⟨off, ha, h4, ho, htk, ht⟩
      · subst ha hn
        refine .inr (.inr (.inl ⟨_, d, rfl, rfl, ?_⟩))
        cases hd : decodeWord (d.setWidth 32) with
        | ok i => exact .inl ⟨i, rfl, by rwa [runCommand_ok hd] at hr⟩
        | error r =>
          rw [runCommand_error hd] at hr
          exact .inr ⟨⟨r, rfl⟩, by simpa [eq_comm] using hr⟩
      · subst ha
        exact .inr (.inr (.inr ⟨off, n, d, rfl, h4, ho, htk, ht⟩))
    | reset => exact .inl ⟨by simpa [takeInput, eq_comm] using h, .inl rfl⟩
    | commandReset w => exact .inl ⟨by simpa [takeInput, eq_comm] using h, .inr ⟨w, rfl⟩⟩

end Sys2Proof.Machine
end

