-- ==== Sys2Proof/Tests/Slice0.lean ====
section
/-! SUPPORT. Small tests against the spec's own vectors (95_test_vectors.md, 30_encoding.md R131), and for
every statement with hypotheses a concrete state and operands that meet them. Every expected value is
the spec's; a comment names the vector. -/

set_option Elab.async false

namespace Sys2Proof.Tests
open Sys2Proof Sys2Proof.Machine

/-! ### The test block of 95_test_vectors.md §0 -/

/-- The design DesignT of 95_test_vectors.md §0. -/
def designT : List DesignRow :=
  [ ⟨1, none, [0x3FD0000000000000, 0x3FD0000000000000], [0x3FF0000000000000, 0xBFE0000000000000]⟩,
    ⟨2, none, [0x3FD0000000000000, 0x3FE0000000000000, 0x3FD0000000000000],
      [0x3FF0000000000000, 0xBFE0000000000000, 0x3FB0000000000000]⟩,
    ⟨3, none, [0x3FF0000000000000, 0x3FF0000000000000], [0x3FF0000000000000]⟩ ] ++
  [4, 5, 6, 7, 8].map fun n => ⟨n, none, [0x3FF0000000000000], [0x3FF0000000000000]⟩

def testParams : Params :=
  { nmax := 8, hmax := 1024, base := 0, estimator := .correctlyRounded, design := designT }

def fresh : State := { State.reset with params := testParams }

def v04 : F64 := 0x3FD999999999999A
def v05 : F64 := 0x3FE0000000000000
def v025 : F64 := 0x3FD0000000000000
def one : F64 := 0x3FF0000000000000
def negOne : F64 := 0xBFF0000000000000
def two : F64 := 0x4000000000000000
def three : F64 := 0x4008000000000000
def four : F64 := 0x4010000000000000
def eight : F64 := 0x4020000000000000
def sixteen : F64 := 0x4030000000000000
def v140 : F64 := 0x4061800000000000
def big : F64 := 0x7FE0000000000000
def aNaN : F64 := 0x7FF8000000000000

/-- A healthy filter unit of order `n` at fc = 0.4 and fs = 140. -/
def unitAt (n : Nat) (xh yh : List F64) : Filter :=
  { cfg := true, fault := false, order := n, fc := v04, fs := v140,
    b := designBs testParams n (wnOf v04 v140), a := designAs testParams n (wnOf v04 v140),
    xh := xh, yh := yh }

/-- The fresh block with F1 at order `n`. -/
def withF1 (n : Nat) (xh yh : List F64) : State := { fresh with f1 := unitAt n xh yh }

def shifterAt (fs fr : F64) (fl h q : Nat) (buf : List F64) : Shifter :=
  { cfg := true, fs := fs, fr := fr, floor := fl, half := h, quarter := q, buf := buf }

/-- The fresh block with the shifter of V-P1: H = 4, q = 2. -/
def withShifter (buf : List F64) : State := { fresh with ps := shifterAt eight one 4 4 2 buf }

/-- A unit of order 1 as CINIT builds it for fr = 1 and fs = 8 (V-D1). -/
def coreUnit (xh yh : List F64) : Filter :=
  { configuredFilter testParams 1 0x3FB999999999999A eight Filter.reset with xh := xh, yh := yh }

/-- The block of V-D1 with the buffer and the histories given. -/
def withCore (buf xh1 yh1 xh2 yh2 : List F64) : State :=
  { fresh with
    ps := shifterAt eight one 4 4 2 buf, f1 := coreUnit xh1 yh1, f2 := coreUnit xh2 yh2
    core := { cfg := true, settle := 0 } }

/-- The block of V-D1 just after CINIT. -/
def ready : State := withCore (zeros 4) (zeros 2) (zeros 2) (zeros 2) (zeros 2)

/-- The block of V-C1: CINIT 2 at fr = 4 and fs = 140. -/
def ready140 : State :=
  { fresh with
    ps := shifterAt v140 four 4 17 8 (zeros 17), f1 := unitAt 2 (zeros 3) (zeros 3)
    f2 := unitAt 2 (zeros 3) (zeros 3), core := { cfg := true, settle := 0 } }

/-- Sources with these answers ready. -/
def answering (ref med : List ReadAnswer) (s : State) : State :=
  { s with ref := ⟨[], ref, 0⟩, med := ⟨[], med, 0⟩ }

def connecting (ref med : List ConnectAnswer) (s : State) : State :=
  { s with ref := ⟨ref, [], 0⟩, med := ⟨med, [], 0⟩ }

/-- The state after a command, if it gives one. -/
def after (i : Instr) (s : State) : Option State :=
  match exec i s with
  | .next t => some t
  | _ => none

/-- The state after a step, if it gives one. -/
def stepped (s : State) : Option State :=
  match step s with
  | .next t => some t
  | _ => none

/-! ### Well-formedness: the one check, with a command it refuses -/

theorem test_wf_accepts : Instr.wf (.fcfg .f1 255) = true ∧ Instr.wf (.pcfg 0) = true := by decide

theorem test_wf_refuses :
    Instr.wf (.fcfg .f1 256) = false ∧ Instr.wf (.fsetord .f2 256) = false ∧
    Instr.wf (.pcfg 256) = false ∧ Instr.wf (.cinit 256) = false ∧ Instr.wf (.csetord 256) = false := by
  decide

/-! ### Decoding: words from R131 and V-E1, V-E2 -/

/-- R120, R121: fields written out from bit 31 down: IMM, RSV, U, OPC. -/
theorem test_decode_filter_bits :
    decodeWord (0b00000010#8 ++ 0b000000000000000#15 ++ 0b1#1 ++ 0b00010000#8) = .ok (.fcfg .f2 2) := by
  decide

theorem test_decode_shifter_bits :
    decodeWord (0b00000100#8 ++ 0b000000000000000#15 ++ 0b0#1 ++ 0b00100000#8) = .ok (.pcfg 4) := by
  decide

theorem test_decode_core_bits :
    decodeWord (0b10000000#8 ++ 0b000000000000000#15 ++ 0b0#1 ++ 0b00110011#8) = .ok (.csetord 128) := by
  decide

/-- R131. -/
theorem test_decode_filter_words :
    decodeWord 0x02000010 = .ok (.fcfg .f1 2) ∧ decodeWord 0x00000111 = .ok (.fsetfs .f2) ∧
    decodeWord 0x00000012 = .ok (.fsetfc .f1) ∧ decodeWord 0x03000113 = .ok (.fsetord .f2 3) ∧
    decodeWord 0x00000114 = .ok (.ffilt .f2) ∧ decodeWord 0xFF000010 = .ok (.fcfg .f1 255) := by
  decide

theorem test_decode_shifter_words :
    decodeWord 0x04000020 = .ok (.pcfg 4) ∧ decodeWord 0x00000021 = .ok .psetfs ∧
    decodeWord 0x00000022 = .ok .psetfr ∧ decodeWord 0x00000023 = .ok .pshift := by
  decide

theorem test_decode_core_words :
    decodeWord 0x02000030 = .ok (.cinit 2) ∧ decodeWord 0x00000031 = .ok .csetfs ∧
    decodeWord 0x00000032 = .ok .csetfr ∧ decodeWord 0x01000033 = .ok (.csetord 1) ∧
    decodeWord 0x00000034 = .ok .cconn ∧ decodeWord 0x00000035 = .ok .cacq ∧
    decodeWord 0x00000036 = .ok .cdemod ∧ decodeWord 0x00000037 = .ok .cstep := by
  decide

/-- V-E2. -/
theorem test_illegal_words :
    [0x00000000#32, 0x0000000F#32, 0x00000015#32, 0x00000038#32, 0x000000FF#32].all
        (fun w => decodeWord w == .error .unassignedOpcode) = true ∧
    [0x00000123#32, 0x00000130#32].all (fun w => decodeWord w == .error .unusedUnitBit) = true ∧
    [0x01000014#32, 0x01000036#32].all (fun w => decodeWord w == .error .unusedImmediate) = true ∧
    [0x00000210#32, 0x00800010#32].all (fun w => decodeWord w == .error .reservedBits) = true := by
  decide

/-- R131, the other way round. -/
theorem test_encode_words :
    encodeWord (.fcfg .f2 2) = 0x02000110 ∧ encodeWord (.fsetord .f2 3) = 0x03000113 ∧
    encodeWord (.ffilt .f1) = 0x00000014 ∧ encodeWord (.cinit 2) = 0x02000030 ∧
    encode (.csetord 1) = [0x33, 0x00, 0x00, 0x01] := by
  decide

theorem test_decodeTableWord :
    decodeTableWord 32 0x02000110 = some (.fcfg .f2 2) ∧ decodeTableWord 32 0x01000014 = none := by
  decide

/-- R128, R130. -/
theorem test_assembler :
    (lineOfText "CINIT 2 ; construct".toList).bind assembleLine = some 0x02000030 ∧
    (lineOfText "FCFG F2, 2".toList).bind assembleLine = some 0x02000110 ∧
    (lineOfText "PCFG".toList).bind assembleLine = some 0x04000020 ∧
    (lineOfText "FCFG F2, 256".toList).bind assembleLine = none := by
  decide

/-- R129: the literal 0.4; R130: the expansion of a pseudo-instruction. -/
theorem test_assembler_accesses :
    decimalLiteral false 4 1 = v04 ∧
    assemble 0 (expandPseudo (.demod one two)) =
      some [.write 0x08 8 one, .write 0x10 8 two, .write 0x00 4 0x36] := by
  decide +kernel

/-! ### Reset and the window -/

/-- V-M5, R63: CAPS. -/
theorem test_caps : capsWord fresh = 0x00040008 ∧ statusWord fresh = 0 := by decide

/-- V-M5: ORDERS, PS_HALF and PS_QUARTER after V-C1. -/
theorem test_readback :
    ordersWord ready140 = 0x00040202 ∧ halfWord ready140 = 0x11 ∧ quarterWord ready140 = 0x08 := by
  decide +kernel

/-- V-M1: bytes and halves of ARG[0] = 1.0. -/
theorem test_window_bytes :
    (List.range 8).map (fun k => windowByte { fresh with arg0 := one } (0x08 + k)) =
      [0x00, 0x00, 0x00, 0x00, 0x00, 0x00, 0xF0, 0x3F] ∧
    windowRead { fresh with arg0 := one } 0x08 4 = 0 ∧
    windowRead { fresh with arg0 := one } 0x0C 4 = 0x3FF00000 := by
  decide

/-- V-M2. -/
theorem test_write_half :
    (stepped { fresh with arg0 := one, inputs := [.write 0x0C 4 0x40000000] }).map (·.arg0) =
      some two := by
  decide

/-- V-M3. -/
theorem test_reserved_and_readonly :
    windowRead fresh 0x34 4 = 0 ∧ windowRead fresh 0x90 8 = 0 ∧
    step { fresh with inputs := [.write 0x04 4 0xFFFFFFFF] } = .next fresh :=
  ⟨by decide, by decide, rfl⟩

/-- V-M4. -/
theorem test_bus_errors :
    step { fresh with inputs := [.read 0x04 2] } = .fault .busError ∧
    step { fresh with inputs := [.read 0x06 4] } = .fault .busError ∧
    step { fresh with inputs := [.read 0x00 8] } = .fault .busError ∧
    step { fresh with inputs := [.write 0x08 1 0] } = .fault .busError :=
  ⟨rfl, rfl, rfl, rfl⟩

/-- V-E2: STATUS after an illegal word, on a fresh block and after CINIT. -/
theorem test_illegal_word_status :
    (stepped (fresh.issue 0x00000123)).map statusWord = some 0x00000075 ∧
    (stepped (ready.issue 0x01000014)).map statusWord = some 0x00000F75 := by
  decide +kernel

/-! ### Numbers -/

/-- V-S5, V-S7, V-P3: the normalized cutoff, the default cutoff and the geometry. -/
theorem test_configuration_numbers :
    wnOf v04 v140 = 0x3F7767DCE434A9B1 ∧ cutoffOf four = v04 ∧ cutoffOf one = 0x3FB999999999999A ∧
    halfOf v140 four = 17 ∧ quarterOf v140 four = 8 := by
  decide +kernel

/-- R175 (c): a Pythagorean triple whose hypotenuse 87 * 2^1018 is past the largest finite value gives
+Inf, although it is an integer multiple of the binade's step. -/
theorem test_hypot_overflow :
    hypot .correctlyRounded 0x7FEE000000000000 0x7FEF800000000000 = pack false infBits := by
  decide +kernel

/-- R175 (b): 3, 4, 5. -/
theorem test_hypot_exact : hypot .anyAllowed 0xC008000000000000 four = 0x4014000000000000 := by
  decide +kernel

/-! ### Filter commands -/

/-- V-F10: fc just below fs/2 is taken; fc = fs/2 and order 9 are not. -/
theorem test_fcfg :
    (after (.fcfg .f2 2) { fresh with arg0 := 0x40517FFFFFFFFFFF, arg1 := v140 }).map statusWord =
      some 0x00000200 ∧
    (after (.fcfg .f2 2) { fresh with arg0 := 0x4051800000000000, arg1 := v140 }).map statusWord =
      some 0x00000021 ∧
    (after (.fcfg .f2 9) { fresh with arg0 := v04, arg1 := v140 }).map statusWord =
      some 0x00000021 := by
  decide +kernel

/-- V-F12: 0.8 is rejected, 0.80000001 is taken and the histories stay. -/
theorem test_fsetfs :
    (after (.fsetfs .f1) { withF1 1 [one, one] [v05, v025] with arg0 := 0x3FE999999999999A }).map
      statusWord = some 0x00000111 ∧
    (after (.fsetfs .f1) { withF1 1 [one, one] [v05, v025] with arg0 := 0x3FE999999EF7FD52 }).map
      (fun t => (statusWord t, t.f1.fs, t.f1.xh, t.f1.yh)) =
      some (0x00000100, 0x3FE999999EF7FD52, [one, one], [v05, v025]) := by
  decide +kernel

/-- V-F11. -/
theorem test_fsetfs_unconfigured : (after (.fsetfs .f1) fresh).map statusWord = some 0x00000016 := by
  decide +kernel

/-- R222: the cutoff and the coefficients change, the histories stay. -/
theorem test_fsetfc :
    (after (.fsetfc .f1) { withF1 1 [one, one] [v05, v025] with arg0 := three }).map
      (fun t => (statusWord t, t.f1.fc, t.f1.xh)) = some (0x00000100, three, [one, one]) := by
  decide +kernel

/-- V-F7, last step. -/
theorem test_fsetord :
    (after (.fsetord .f1 3)
      { fresh with f1 := { unitAt 3 [0, 0, 0, big] [0, 0, 0, big] with fault := true } }).map
      (fun t => (statusWord t, t.f1.xh, t.f1.yh)) = some (0x00000100, zeros 4, zeros 4) := by
  decide +kernel

/-- V-F5: the last sample of order 2 with inputs 2, -1, 0.5, 4. -/
theorem test_ffilt :
    (after (.ffilt .f1)
      { withF1 2 [two, negOne, v05] [v05, one, 0x3FE3000000000000] with arg0 := four }).map
      (fun t => (statusWord t, t.res0, t.f1.xh, t.f1.yh)) =
      some (0x00000100, 0x3FF3C00000000000, [negOne, v05, four],
        [one, 0x3FE3000000000000, 0x3FF3C00000000000]) := by
  decide +kernel

/-- V-F7: an overflowing output faults the unit and changes nothing else. -/
theorem test_ffilt_fault :
    (after (.ffilt .f1) { withF1 3 [0, 0, 0, big] [0, 0, 0, big] with arg0 := big, res0 := big }).map
      (fun t => (statusWord t, t.res0, t.f1.xh, t.f1.yh)) =
      some (0x00001112, big, [0, 0, 0, big], [0, 0, 0, big]) := by
  decide +kernel

/-! ### Shifter commands -/

/-- V-P3: the exact ratio 0.7 / 0.1 is below 7. -/
theorem test_pcfg :
    (after (.pcfg 2) { fresh with arg0 := 0x3FE6666666666666, arg1 := 0x3FB999999999999A }).map
      (fun t => (statusWord t, t.ps.half, t.ps.quarter, t.ps.buf)) =
      some (0x00000400, 3, 1, zeros 3) := by
  decide +kernel

/-- V-P5: 0.3 is below three times 0.1; H = 2048 is above HMAX. -/
theorem test_pcfg_rejects :
    (after (.pcfg 3) { fresh with arg0 := 0x3FD3333333333333, arg1 := 0x3FB999999999999A }).map
      statusWord = some 0x00000031 ∧
    (after (.pcfg 4) { fresh with arg0 := 0x40B0000000000000, arg1 := one }).map statusWord =
      some 0x00000031 := by
  decide +kernel

/-- V-P4: the same value keeps the buffer; another one zeroes it. -/
theorem test_psetfs :
    (after .psetfs { withShifter [v05, negOne, 0, two] with arg0 := eight }).map
      (fun t => (statusWord t, t.ps.buf)) = some (0x00000400, [v05, negOne, 0, two]) ∧
    (after .psetfs { withShifter [v05, negOne, 0, two] with arg0 := sixteen }).map
      (fun t => (t.ps.half, t.ps.quarter, t.ps.buf)) = some (8, 4, zeros 8) := by
  decide +kernel

/-- V-P7. -/
theorem test_psetfr :
    (after .psetfr { fresh with ps := shifterAt v140 four 4 17 8 (zeros 17),
                                arg0 := 0x4041800000000000 }).map
      (fun t => (statusWord t, t.ps.half, t.ps.quarter)) = some (0x00000400, 2, 1) ∧
    (after .psetfr { fresh with ps := shifterAt v140 0x4041800000000000 4 2 1 (zeros 2),
                                arg0 := 0x4042000000000000 }).map
      (fun t => (statusWord t, t.ps.half, t.ps.quarter)) = some (0x00000431, 2, 1) := by
  decide +kernel

/-- V-P1: the last of the five samples. -/
theorem test_pshift :
    (after .pshift { withShifter [one, v05, negOne, 0] with arg0 := two }).map
      (fun t => (statusWord t, t.res0, t.ps.buf)) =
      some (0x00000400, negOne, [v05, negOne, 0, two]) := by
  decide +kernel

/-- V-P2: with q = 0 a NaN comes back bit for bit; V-P8. -/
theorem test_pshift_bits :
    (after .pshift { fresh with ps := shifterAt two one 2 1 0 [0], arg0 := aNaN }).map (·.res0) =
      some aNaN ∧
    (after .pshift fresh).map statusWord = some 0x00000036 := by
  decide +kernel

/-! ### Core commands -/

/-- V-C1. -/
theorem test_cinit :
    (after (.cinit 2) { fresh with arg0 := four, arg1 := v140 }).map
      (fun t => (statusWord t, t.ps, t.f1, t.f2, t.core)) =
      some (0x00000F00, ready140.ps, ready140.f1, ready140.f2, ready140.core) := by
  decide +kernel

/-- V-C2: the order of the checks. -/
theorem test_cinit_attribution :
    (after (.cinit 2) { fresh with arg0 := four, arg1 := 0x402E000000000000 }).map statusWord =
      some 0x00000031 ∧
    (after (.cinit 1) { fresh with arg0 := 1#64, arg1 := 4#64 }).map statusWord = some 0x00000011 ∧
    (after (.cinit 1) { fresh with arg0 := one, arg1 := eight, arg2 := negOne }).map statusWord =
      some 0x00000041 ∧
    (after (.cinit 1) { fresh with arg0 := one, arg1 := eight, arg2 := negZero }).map statusWord =
      some 0x00000F00 := by
  decide +kernel

/-- V-C4: 200 is taken. -/
theorem test_csetfs :
    (after .csetfs { ready140 with arg0 := 0x4069000000000000 }).map
      (fun t => (statusWord t, t.ps.half, t.ps.quarter, t.f1.fs, t.f2.fs)) =
      some (0x00000F00, 25, 12, 0x4069000000000000, 0x4069000000000000) := by
  decide +kernel

/-- V-C6: 5.0 is taken, then 40.0 is not. -/
theorem test_csetfr :
    (after .csetfr { ready140 with arg0 := 0x4014000000000000 }).map
      (fun t => (t.ps.half, t.ps.quarter, t.f1.fc, t.f2.fc)) = some (14, 7, v05, v05) ∧
    (after .csetfr { ready140 with arg0 := 0x4044000000000000 }).map statusWord =
      some 0x00000F31 := by
  decide +kernel

/-- V-C7. -/
theorem test_csetord :
    (after (.csetord 0) ready).map statusWord = some 0x00000F11 ∧
    (after (.csetord 3) ready).map (fun t => (statusWord t, t.f1.order, t.f2.order, t.f1.xh)) =
      some (0x00000F00, 3, 3, zeros 4) := by
  decide +kernel

/-- V-C8. -/
theorem test_cconn :
    (after .cconn (connecting [.fail] [.ok] ready)).map (fun t => (statusWord t, t.med.connects)) =
      some (0x00000F53, [.ok]) ∧
    (after .cconn (connecting [.ok] [.fail] ready)).map statusWord = some 0x00000F63 ∧
    (after .cconn (connecting [.ok] [.ok] ready)).map statusWord = some 0x00000F00 := by
  decide +kernel

/-- V-C8: REF 0.5 and MED -0.25; REF 0.7 and MED fail. -/
theorem test_cacq :
    (after .cacq (answering [.volts v05] [.volts 0xBFD0000000000000] ready)).map
      (fun t => (statusWord t, t.res0, t.res1)) = some (0x00000F00, v05, 0xBFD0000000000000) ∧
    (after .cacq (answering [.volts 0x3FE6666666666666] [.fail] ready)).map
      (fun t => (statusWord t, t.res0, t.res1)) = some (0x00000F64, 0, 0) := by
  decide +kernel

/-- V-D1, step 4: magnitude 1.25 and phase φ4. -/
theorem test_cdemod :
    (after .cdemod { withCore [0, one, v05, negOne] [one, 0xC008000000000000] [one, 0] [0, three]
        [0, 0x3FE8000000000000] with arg0 := 0, arg1 := negOne }).map
      (fun t => (statusWord t, t.res0, t.res1, t.f1.yh, t.f2.xh)) =
      some (0x00000F00, 0x3FF4000000000000, 0x4001B6E192EBBE44, [0, 0xBFE8000000000000],
        [three, 0xBFE0000000000000]) := by
  decide +kernel

/-- V-D2, second step: the angle rounds to -π64 and is folded to π64. -/
theorem test_cdemod_endpoint :
    (after .cdemod { withCore [] (zeros 2) (zeros 2) (zeros 2) (zeros 2) with
        ps := shifterAt four one 4 2 1 [0, 0x1A70000000000000], arg0 := one, arg1 := negOne }).map
      (fun t => (t.res0, t.res1)) = some (v025, 0x400921FB54442D18) := by
  decide +kernel

/-- V-C8: REF 1.0, MED 2.0; then MED NaN. -/
theorem test_cstep :
    (after .cstep (answering [.volts one] [.volts two] ready)).map
      (fun t => (statusWord t, t.res0, t.res1, t.ps.buf, t.f1.xh)) =
      some (0x00000F00, v05, 0, [0, 0, 0, one], [0, two]) := by
  decide +kernel

theorem test_cstep_fault :
    (after .cstep (answering [.volts one] [.volts aNaN]
        (withCore [0, 0, 0, one] [0, two] [0, v05] (zeros 2) (zeros 2)))).map
      (fun t => (statusWord t, t.ps.buf, t.f1.xh, t.f2.xh)) =
      some (0x00001F12, [0, 0, one, one], [0, two], zeros 2) := by
  decide +kernel

/-! ### Witnesses: a state and operands that meet the hypotheses of each statement

Each theorem is named after the statement. A clause of a statement has its own line, at a boundary of
its range where it has one. -/

theorem forall_mem_of_all {p : F64 → Bool} {l : List F64} (h : l.all p = true) :
    ∀ v ∈ l, p v = true := by
  simpa using h

theorem coreUnit_inv : Filter.Inv testParams (coreUnit (zeros 2) (zeros 2)) :=
  ⟨fun h => absurd h (by decide), fun _ =>
    ⟨by decide +kernel, by decide +kernel, by decide +kernel, by decide +kernel, by decide +kernel,
      forall_mem_of_all (by decide +kernel), forall_mem_of_all (by decide +kernel)⟩⟩

theorem ready_inv : ready.Inv where
  params := by decide
  f1 := coreUnit_inv
  f2 := coreUnit_inv
  ps := ⟨fun h => absurd h (by decide), fun _ => by decide +kernel⟩
  coreReset := fun h => absurd h (by decide)
  coreUnits := fun _ => by decide +kernel
  status := by decide

/-- The block of V-D1 about to run CDEMOD. -/
def demodNext : State := { ready with arg0 := one, arg1 := two, inputs := [.write 0 4 0x36] }

theorem demodNext_inv : demodNext.Inv where
  params := ready_inv.params
  f1 := ready_inv.f1
  f2 := ready_inv.f2
  ps := ready_inv.ps
  coreReset := ready_inv.coreReset
  coreUnits := ready_inv.coreUnits
  status := ready_inv.status

theorem witness_ResetInputLeavesTheResetState :
    ({ ready with inputs := [.reset] } : State).inputs = .reset :: [] ∧
    ({ ready with inputs := [.commandReset 0x37] } : State).inputs = .commandReset 0x37 :: [] :=
  ⟨rfl, rfl⟩

theorem demodNext_step : ∃ t, step demodNext = .next t ∧ t.ps.cfg = true ∧ t.core.cfg = true ∧
    t.err = .none := by
  have h : (stepped demodNext).map (fun t => (t.ps.cfg, t.core.cfg, t.err)) =
      some (true, true, .none) := by decide +kernel
  unfold stepped at h
  cases hs : step demodNext with
  | next t => simp_all
  | fault f => simp [hs] at h
  | refused r => simp [hs] at h

theorem witness_EveryStepKeepsTheInvariant : ∃ t, demodNext.Inv ∧ step demodNext = .next t :=
  let ⟨t, h, _⟩ := demodNext_step
  ⟨t, demodNext_inv, h⟩

theorem witness_StorageInvariantAfterEveryStep : ∃ t, demodNext.Inv ∧ step demodNext = .next t :=
  witness_EveryStepKeepsTheInvariant

theorem witness_ShifterGeometryAfterEveryStep :
    ∃ t, demodNext.Inv ∧ step demodNext = .next t ∧ t.ps.cfg = true :=
  let ⟨t, h, hp, _⟩ := demodNext_step
  ⟨t, demodNext_inv, h, hp⟩

theorem witness_OnlyResetClearsCfgBits :
    ∃ t, demodNext.Inv ∧ step demodNext = .next t ∧ t.core.cfg = true ∧
      demodNext.inputs.head? ≠ some .reset ∧ (∀ w, demodNext.inputs.head? ≠ some (.commandReset w)) ∧
      demodNext.f1.cfg = true ∧ demodNext.f2.cfg = true ∧ demodNext.ps.cfg = true ∧
      demodNext.core.cfg = true ∧
      (after (.cinit 1) { fresh with arg0 := one, arg1 := eight }).map (·.err) = some .none ∧
      ({ ready with inputs := [.reset] } : State).inputs.head? = some .reset ∧
      (stepped { ready with inputs := [.reset] }).isSome = true :=
  let ⟨t, h, _, hc, _⟩ := demodNext_step
  ⟨t, demodNext_inv, h, hc, by decide, fun w => by simp [demodNext], rfl, rfl, rfl, rfl,
    by decide +kernel, rfl, by decide +kernel⟩

theorem witness_DecodeOfEncodeIsTheCommand :
    (Instr.fcfg .f2 255).WellFormed ∧ (Instr.pcfg 0).WellFormed ∧ Instr.cstep.WellFormed := by decide

theorem witness_EncodeOfDecodeIsTheWord :
    decodeWord 0xFF000110 = .ok (.fcfg .f2 255) ∧ decodeWord 0x00000037 = .ok .cstep := by decide

theorem witness_MatchingRowIsTheOnlyOne :
    ∃ r ∈ opcodeTable, 0xFF000110#32 &&& r.mask = r.pattern :=
  ⟨⟨"FCFG", 0x10, 0x00FFFEFF, fun u n => .fcfg u n⟩, by simp [opcodeTable, filterRows], by decide⟩

theorem witness_IllegalWordsAreTheFourCases :
    ({ ready with inputs := [.write 0 4 0x00800010] } : State).inputs =
      .write ready.params.base 4 ((0x00800010#32).setWidth 64) :: [] ∧
    ∃ e, decodeWord 0x00800010 = .error e :=
  ⟨rfl, .reservedBits, by decide⟩

theorem witness_AssemblerEmitsTheEncodedWord :
    (Instr.cinit 255).imm ≤ 255 ∧ 255 < (Instr.cinit 256).imm := by decide

theorem witness_WriteToCmdRunsTheDecodedCommand :
    demodNext.inputs = .write demodNext.params.base 4 ((0x36#32).setWidth 64) :: [] ∧
    decodeWord 0x36 = .ok .cdemod ∧
    ({ ready with inputs := [.read 0 4] } : State).inputs = .read ready.params.base 4 :: [] ∧
    0xFF000110 < 2 ^ 32 ∧ decodeWord (BitVec.ofNat 32 0xFF000110) = .ok (.fcfg .f2 255) :=
  ⟨rfl, by decide, rfl, by decide, by decide⟩

/-- V-M5: every register of the map, read in the block of V-C1. -/
theorem witness_ReadGivesTheRegister :
    [(0x00, 4, 0x0#64), (0x04, 4, 0xF00#64), (0x08, 8, 0#64), (0x10, 8, 0#64), (0x18, 8, 0#64),
      (0x20, 8, 0#64), (0x28, 8, 0#64), (0x30, 4, 0x00040008#64), (0x40, 8, v04),
      (0x48, 8, v140)].all (fun (off, n, v) =>
        (stepped { ready140 with inputs := [.read off n] }).map (·.hostData) == some (some v)) = true ∧
    [(0x50, 8, v04), (0x58, 8, v140), (0x60, 8, v140), (0x68, 8, four), (0x70, 8, 0#64),
      (0x78, 4, 0x00040202#64), (0x7C, 4, 0x11#64), (0x80, 4, 0x8#64)].all (fun (off, n, v) =>
        (stepped { ready140 with inputs := [.read off n] }).map (·.hostData) == some (some v)) = true := by
  decide +kernel

theorem witness_WindowIsLittleEndian :
    7 < Reg.bytes .arg2 ∧ 3 < Reg.bytes .psQuarter ∧
    accessAllowed 0x1C 4 = true ∧ 3 < 4 ∧ accessAllowed 0xF8 8 = true ∧ 7 < 8 ∧
    Reg.bytes .coreSettle = 8 := by
  decide

theorem witness_IllFormedAccessIsABusError :
    (255 < 256 ∧ ¬ takenAccess 255 1) ∧ (0x30 < 256 ∧ ¬ takenAccess 0x30 8) ∧
    (0xFC < 256 ∧ takenAccess 0xFC 4) ∧ (0x38 < 256 ∧ takenAccess 0x38 8) ∧
    ({ ready with inputs := [.read 255 1] } : State).inputs = .read (ready.params.base + 255) 1 :: [] ∧
    ({ ready with inputs := [.write 0x30 8 1] } : State).inputs =
      .write (ready.params.base + 0x30) 8 1 :: [] :=
  ⟨by simp [takenAccess], by simp [takenAccess], by simp [takenAccess], by simp [takenAccess], rfl, rfl⟩

theorem witness_IdleAndForeignAccesses :
    ready.inputs = [] ∧
    (let s : State := { ready with params := { testParams with base := 0x1000 } }
     0xFFF < s.params.base ∧ s.params.base + 256 ≤ 0x1100 ∧
     step { s with inputs := [.read 0xFFF 4] } = .fault .outsideWindow ∧
     step { s with inputs := [.write 0x1100 4 0] } = .fault .outsideWindow) :=
  ⟨rfl, by decide, by decide, rfl, rfl⟩

/-- The nine writes of the first clause, by offset and width; the last byte of ARG[2] and the first of
ARG[0] in the second; a command in the third. -/
theorem witness_OnlyHostWritesChangeArg :
    ([(0x08, 8), (0x10, 8), (0x18, 8), (0x08, 4), (0x0C, 4), (0x10, 4), (0x14, 4), (0x18, 4),
        (0x1C, 4)].all fun (off, n) =>
      (stepped { ready with inputs := [.write off n 7] }).isSome) = true ∧
    (0x08 ≤ 0x1C ∧ 0x1C < 0x20 ∧ (0x1F < 0x20 ∧ 0x1C + 4 ≤ 0x20)) ∧
    (∀ off n d, 0x08 ≤ off → off < 0x20 →
      demodNext.inputs.head? ≠ some (.write (demodNext.params.base + off) n d)) := by
  refine ⟨by decide +kernel, by decide, ?_⟩
  intro off n d h1 _ h
  simp [demodNext, ready, withCore, fresh, testParams] at h
  omega

theorem witness_ReadOnlyAndReservedIgnoreWrites :
    takenAccess 0x04 4 ∧ takenAccess 0x20 8 ∧ takenAccess 0xFC 4 ∧ takenAccess 0xF8 8 ∧
    takenAccess 0x34 4 ∧ takenAccess 0x38 8 ∧ takenAccess 0x3C 4 ∧ takenAccess 0x84 4 := by
  simp [takenAccess]

theorem witness_StatusHasTheFieldsOfTheSpec :
    (stepped { ready with inputs := [.read 4 4] }).isSome = true ∧
    (stepped { ready with inputs := [.write 4 4 0] }).isSome = true ∧ 4 ≠ ready.params.base := by
  decide +kernel

/-- The commands of the tests above end with each code but ILLEGAL_COMMAND. -/
theorem witness_CommandsEndWithTheirOwnCodes :
    (after (.fcfg .f1 1) { fresh with arg0 := v04, arg1 := v140 }).map (·.err) = some .none ∧
    (after (.fcfg .f1 0) fresh).map (·.err) = some .invalidParameter ∧
    (after (.ffilt .f1) { ready with arg0 := aNaN }).map (·.err) = some .numericalInstability ∧
    (after .cconn (connecting [.fail] [] ready)).map (·.err) = some .deviceUnavailable ∧
    (after .cacq (answering [.fail] [] ready)).map (·.err) = some .acquisitionError ∧
    (after .pshift fresh).map (·.err) = some .notConfigured := by
  decide +kernel

/-- One command for each flag that changes. -/
theorem witness_FlagsChangeOnlyAsListed :
    (after (.fcfg .f2 1) { fresh with arg0 := v04, arg1 := v140 }).map (·.f2.cfg) = some true ∧
    (after (.pcfg 4) { fresh with arg0 := eight, arg1 := one }).map (·.ps.cfg) = some true ∧
    (after (.cinit 1) { fresh with arg0 := one, arg1 := eight }).map (·.core.cfg) = some true ∧
    (after (.ffilt .f1) { ready with arg0 := aNaN }).map (·.f1.fault) = some true ∧
    (after (.csetord 1) { ready with f1 := { ready.f1 with fault := true } }).map (·.f1.fault) =
      some false ∧
    (after (.fsetord .f1 1) { ready with f1 := { ready.f1 with fault := true } }).map
      (fun t => (t.err, t.f1.fault)) = some (.none, false) ∧
    (stepped { ready with inputs := [.reset] }).map (·.core.cfg) = some false := by
  decide +kernel

/-- A command of each kind that leaves something out of its row. -/
theorem witness_CommandsChangeOnlyWhatTheirRowNames :
    (after .cdemod demodNext).isSome = true ∧ writesCore .cdemod = false ∧ asksPorts .cdemod = false ∧
    (after (.ffilt .f1) ready).isSome = true ∧ writesFilter (.ffilt .f1) .f2 = false ∧
    writesShifter (.ffilt .f1) = false ∧ writesRes1 (.ffilt .f1) = false ∧
    (after .csetfs ready).isSome = true ∧ writesRes0 .csetfs = false ∧
    (0x1F < 0x20 ∧ 0x3F < 0x40 ∧ 0x84 ≤ 0xFF) := by
  decide +kernel

theorem witness_ErrorsKeepResAndTheUnits :
    (after .cacq (answering [.volts one] [.fail] ready)).map
      (fun t => (t.err != .none, t.err != .numericalInstability)) = some (true, true) := by
  decide +kernel

/-! #### Filter commands -/

theorem witness_FcfgConfiguresTheUnit :
    filterValid testParams 8 v04 v140 = true ∧ filterValid testParams 9 v04 v140 = false := by
  decide +kernel

theorem witness_FsetfsReloadsTheCoefficients :
    (fresh.filter .f1).cfg = false ∧ (ready140.filter .f2).cfg = true ∧
    filterValid testParams 2 v04 0x3FE999999999999A = false ∧
    filterValid testParams 2 v04 0x3FE999999EF7FD52 = true := by
  decide +kernel

theorem witness_FsetfcReloadsTheCoefficients :
    (fresh.filter .f2).cfg = false ∧ (ready140.filter .f1).cfg = true ∧
    filterValid testParams 2 0x4051800000000000 v140 = false ∧
    filterValid testParams 2 0x40517FFFFFFFFFFF v140 = true := by
  decide +kernel

theorem witness_FsetordResetsTheHistories :
    (fresh.filter .f2).cfg = false ∧ (ready140.filter .f1).cfg = true ∧
    filterValid testParams 0 v04 v140 = false ∧ filterValid testParams 8 v04 v140 = true := by
  decide +kernel

theorem witness_FfiltAppliesTheRecursion :
    (fresh.filter .f1).cfg = false ∧
    ((withF1 3 [0, 0, 0, big] [0, 0, 0, big]).f1.fault = false ∧
      isFinite (recursionOutput (unitAt 3 [0, 0, 0, big] [0, 0, 0, big]) big) = false) ∧
    ({ unitAt 3 (zeros 4) (zeros 4) with fault := true } : Filter).fault = true ∧
    isFinite (recursionOutput (unitAt 2 [two, negOne, v05] [v05, one, 0]) four) = true := by
  decide +kernel

/-! #### Shifter commands -/

theorem witness_PcfgConfiguresTheShifter :
    shiftValid testParams 0x40A0000000000000 one 4 = true ∧
    shiftValid testParams 0x40B0000000000000 one 4 = false := by
  decide +kernel

theorem witness_PsetfsResetsTheBufferOnAChange :
    fresh.ps.cfg = false ∧ ready.ps.cfg = true ∧ shiftValid testParams two one 4 = false ∧
    (shiftValid testParams eight one 4 = true ∧ real eight = real ready.ps.fs) ∧
    (shiftValid testParams four one 4 = true ∧ real four ≠ real ready.ps.fs) := by
  decide +kernel

theorem witness_PsetfrResetsTheBufferOnAChange :
    fresh.ps.cfg = false ∧ ready.ps.cfg = true ∧ shiftValid testParams eight three 4 = false ∧
    (shiftValid testParams eight one 4 = true ∧ real one = real ready.ps.fr) ∧
    (shiftValid testParams eight two 4 = true ∧ real two ≠ real ready.ps.fr) := by
  decide +kernel

theorem witness_PshiftReturnsTheDelayedSample : fresh.ps.cfg = false ∧ ready.ps.cfg = true := by
  decide

/-! #### Core commands -/

/-- V-C2: each check fails in turn, and -0.0 is the smallest settle delay. -/
theorem witness_CinitConstructsTheCore :
    shiftValid testParams 0x402E000000000000 four 4 = false ∧
    (shiftValid testParams 4#64 1#64 4 = true ∧
      filterValid testParams 1 (cutoffOf 1#64) 4#64 = false) ∧
    (shiftValid testParams eight one 4 = true ∧
      filterValid testParams 1 (cutoffOf one) eight = true ∧ isFinite aNaN = false ∧
      real negOne < 0 ∧ isFinite negZero = true ∧ 0 ≤ real negZero) := by
  decide +kernel

/-- R430: with F2 at a higher cutoff, each check of CSETFS fails in turn. -/
theorem witness_CsetfsSetsAllThreeUnits :
    fresh.core.cfg = false ∧ ready.core.cfg = true ∧ shiftValid testParams three one 4 = false ∧
    (shiftValid testParams four one 4 = true ∧ filterValid testParams 1 two four = false) ∧
    (filterValid testParams 1 (cutoffOf one) four = true ∧
      filterValid testParams 1 two four = false) ∧
    filterValid testParams 1 one four = true := by
  decide +kernel

/-- With F1 or F2 at a sample frequency of 0.2, the new cutoff 0.1 is not below its half. -/
theorem witness_CsetfrSetsShifterAndCutoffs :
    fresh.core.cfg = false ∧ ready.core.cfg = true ∧ shiftValid testParams eight three 4 = false ∧
    (shiftValid testParams eight one 4 = true ∧
      filterValid testParams 1 (cutoffOf one) 0x3FC999999999999A = false ∧
      filterValid testParams 1 (cutoffOf one) eight = true) := by
  decide +kernel

/-- With F2 at a sample frequency that its cutoff no longer fits. -/
theorem witness_CsetordResetsBothFilters :
    fresh.core.cfg = false ∧ ready.core.cfg = true ∧ filterValid testParams 0 v04 v140 = false ∧
    (filterValid testParams 1 v04 v140 = true ∧ filterValid testParams 1 v04 v05 = false) ∧
    filterValid testParams 8 v04 v140 = true := by
  decide +kernel

theorem witness_CconnAsksRefThenMed :
    (connecting [.fail] [] ready).ref.answerConnect .ref = (.fail, Source.unlisted) ∧
    (connecting [.ok] [.fail] ready).ref.answerConnect .ref = (.ok, Source.unlisted) ∧
    (connecting [.ok] [.fail] ready).med.answerConnect .med = (.fail, Source.unlisted) ∧
    (connecting [.ok] [.ok] ready).med.answerConnect .med = (.ok, Source.unlisted) ∧
    (connecting [.never] [.never] ready).ref.answerConnect .ref = (.never, Source.unlisted) ∧
    (connecting [.ok] [.never] ready).med.answerConnect .med = (.never, Source.unlisted) :=
  ⟨rfl, rfl, rfl, rfl, rfl, rfl⟩

theorem witness_CacqReadsRefThenMed :
    (answering [.fail] [] ready).ref.answerRead .ref = (.fail, Source.unlisted) ∧
    (answering [.volts one] [.fail] ready).ref.answerRead .ref = (.volts one, Source.unlisted) ∧
    (answering [.volts one] [.fail] ready).med.answerRead .med = (.fail, Source.unlisted) ∧
    (answering [.volts one] [.volts two] ready).med.answerRead .med = (.volts two, Source.unlisted) ∧
    (answering [.never] [.never] ready).ref.answerRead .ref = (.never, Source.unlisted) ∧
    (answering [.volts one] [.never] ready).med.answerRead .med = (.never, Source.unlisted) :=
  ⟨rfl, rfl, rfl, rfl, rfl, rfl⟩

theorem witness_SourcesAnswerInOrder :
    (⟨[.ok], [.fail], 0⟩ : Source).connects = .ok :: [] ∧
    (⟨[.ok], [.fail], 0⟩ : Source).reads = .fail :: [] ∧
    Source.unlisted.connects = [] ∧ Source.unlisted.reads = [] :=
  ⟨rfl, rfl, rfl, rfl⟩

/-- V-D1, step 1; V-D3, an infinite reference; a faulted unit; program P4's fault of F2. -/
theorem witness_CdemodDemodulatesThePair :
    fresh.core.cfg = false ∧ ready.core.cfg = true ∧
    ({ ready.f1 with fault := true } : Filter).fault = true ∧
    isFinite (recursionOutput ready.f1 (mul64 0 (pack false infBits))) = false ∧
    (ready.f1.fault = false ∧ isFinite (recursionOutput ready.f1 (mul64 two one)) = true) ∧
    (ready.f2.fault = false ∧
      isFinite (recursionOutput ready.f2 (mul64 two (delayedSample ready.ps one))) = true) ∧
    isFinite (recursionOutput ready.f2
      (mul64 four (delayedSample (shifterAt eight one 4 4 2 [0, 0, big, 0]) one))) = false := by
  decide +kernel

theorem witness_CstepAcquiresAndDemodulates :
    (answering [.fail] [] ready).ref.answerRead .ref = (.fail, Source.unlisted) ∧
    (answering [.volts one] [.fail] ready).med.answerRead .med = (.fail, Source.unlisted) ∧
    ((answering [.volts one] [.volts two] ready).ref.answerRead .ref = (.volts one, Source.unlisted) ∧
      (answering [.volts one] [.volts two] ready).med.answerRead .med =
        (.volts two, Source.unlisted)) ∧
    (answering [.never] [.never] ready).ref.answerRead .ref = (.never, Source.unlisted) ∧
    (answering [.volts one] [.never] ready).med.answerRead .med = (.never, Source.unlisted) :=
  ⟨rfl, rfl, ⟨rfl, rfl⟩, rfl, rfl⟩

/-- CACQ completes, and CDEMOD on its pair answers a state: once with results, once with a fault of F1. -/
theorem witness_CstepIsCacqThenCdemod :
    ((after .cacq (answering [.volts one] [.volts two] ready)).bind fun t =>
      (after .cdemod { t with arg0 := t.res0, arg1 := t.res1 }).map fun v => (t.err, v.err)) =
      some (.none, .none) ∧
    ((after .cacq (answering [.volts one] [.volts aNaN] ready)).bind fun t =>
      (after .cdemod { t with arg0 := t.res0, arg1 := t.res1 }).map fun v => (t.err, v.err)) =
      some (.none, .numericalInstability) := by
  decide +kernel

/-! #### Signal statements -/

theorem witness_PshiftDelaysByTheQuarter :
    ready.ps.cfg = true ∧ ready.ps.quarter + 1 ≤ ready.ps.half ∧
    ready.ps.buf = zeros ready.ps.half ∧ 2 < [one, v05, negOne].length := by
  decide

theorem witness_HistoriesHoldTheLastSamples :
    (ready140.filter .f1).xh = zeros 3 ∧ (ready140.filter .f1).yh = zeros 3 ∧
    (ffiltRun .f1 ready140 [two, negOne]).isSome = true := by
  decide +kernel

/-- Every coefficient of the unit of V-D1 is finite. -/
theorem ready_finiteCoeffs : finiteCoeffs ready.f1 ∧ finiteCoeffs ready.f2 := by
  have h : ∀ i : Fin 2, isFinite (entry ready.f1.b i) = true ∧ isFinite (entry ready.f1.a i) = true := by
    decide +kernel
  have ho : ready.f1.order = 1 := by decide +kernel
  exact ⟨fun i hi => h ⟨i, by omega⟩, fun i hi => h ⟨i, by have : i ≤ 1 := hi; omega⟩⟩

theorem witness_ZeroInputsGiveZeroOutputs :
    (ready.filter .f1).cfg = true ∧ (ready.filter .f1).fault = false ∧ 1 ≤ (ready.filter .f1).order ∧
    finiteCoeffs (ready.filter .f1) ∧ (ready.filter .f1).xh = zeros 2 ∧
    (ready.filter .f1).yh = zeros 2 ∧ ∀ x ∈ [posZero, negZero], isZero x = true :=
  ⟨rfl, rfl, by decide +kernel, ready_finiteCoeffs.1, rfl, rfl, forall_mem_of_all (by decide)⟩

theorem witness_EqualUnitsStayEqual :
    ready.Inv ∧ ready.f1.cfg = true ∧ ready.f2.cfg = true ∧ ready.f1.order = ready.f2.order ∧
    ready.f1.fc = ready.f2.fc ∧ ready.f1.fs = ready.f2.fs ∧ ready.f1.xh = ready.f2.xh ∧
    ready.f1.yh = ready.f2.yh ∧ ready.f1.fault = ready.f2.fault :=
  ⟨ready_inv, rfl, rfl, rfl, rfl, rfl, rfl, rfl, rfl⟩

theorem witness_SameSampleFrequencyChangesNothing :
    let s : State := { ready with arg0 := eight }
    s.Inv ∧ s.core.cfg = true ∧ s.arg0 = s.ps.fs ∧ s.arg0 = s.f1.fs ∧ s.arg0 = s.f2.fs :=
  ⟨⟨ready_inv.params, ready_inv.f1, ready_inv.f2, ready_inv.ps, ready_inv.coreReset,
    ready_inv.coreUnits, ready_inv.status⟩, rfl, rfl, rfl, rfl⟩

theorem ready_zeroHistory : zeroHistory ready.f1 :=
  ⟨forall_mem_of_all (by decide), forall_mem_of_all (by decide)⟩

theorem witness_ZeroMeasuredGivesZeroMagnitude :
    let s : State := { ready with arg0 := one, arg1 := negZero }
    s.Inv ∧ s.core.cfg = true ∧ s.f1.fault = false ∧ s.f2.fault = false ∧ finiteCoeffs s.f1 ∧
    finiteCoeffs s.f2 ∧ zeroHistory s.f1 ∧ zeroHistory s.f2 ∧ (∀ v ∈ s.ps.buf, isFinite v = true) ∧
    isFinite s.arg0 = true ∧ isZero s.arg1 = true :=
  ⟨⟨ready_inv.params, ready_inv.f1, ready_inv.f2, ready_inv.ps, ready_inv.coreReset,
    ready_inv.coreUnits, ready_inv.status⟩, rfl, rfl, rfl, ready_finiteCoeffs.1, ready_finiteCoeffs.2,
    ready_zeroHistory, ready_zeroHistory, forall_mem_of_all (by decide), by decide, by decide⟩

theorem witness_NonFiniteInputFaultsTheUnit :
    (ready.filter .f2).cfg = true ∧
    isFinite ({ ready with arg0 := pack true infBits } : State).arg0 = false := by
  decide

theorem witness_MagnitudeAndPhaseAreInRange :
    (after .cdemod demodNext).map (·.err) = some .none ∧
    (after .cstep (answering [.volts one] [.volts two] ready)).map (·.err) = some .none := by
  decide +kernel

/-! #### Numbers -/

/-- A tie above the smallest odd subnormal goes to the even one, and the largest real that is not
infinite lies just under 2^1024 - 2^970. -/
theorem witness_RoundingIsToNearestEven :
    0 < 2 ∧ roundMag 3 2 = 2 ∧ roundMag 3 2 < infBits ∧ 1 < infBits ∧ 1 ≠ roundMag 3 2 ∧
    |(magUnits (roundMag 3 2) : Int) * (2 : Nat) - (3 : Nat)| =
      |(magUnits 1 : Int) * (2 : Nat) - (3 : Nat)| ∧
    roundMag ((2 ^ 54 - 1) * 2 ^ 2044) 1 = infBits ∧
    roundMag ((2 ^ 54 - 1) * 2 ^ 2044 - 1) 1 = infBits - 1 := by
  decide +kernel

/-- Operands for each clause. -/
theorem witness_BasicOperationsFollowTheStandard :
    (isFinite one = true ∧ isFinite two = true ∧ real one + real two ≠ 0 ∧ real one - real two ≠ 0 ∧
      real two ≠ 0) ∧
    (real one + real negOne = 0 ∧ real negZero - real posZero = 0) ∧
    isNaN aNaN = true ∧
    (isInf (pack false infBits) = true ∧ isInf (pack true infBits) = true ∧
      signBit (pack false infBits) ≠ signBit (pack true infBits)) ∧
    (isFinite posZero = true ∧ isFinite one = true) ∧
    (isZero posZero = true ∧ isZero negZero = true ∧ isZero one = false) := by
  decide +kernel

theorem witness_FrequencyChecksAreExact :
    2 * real 0x4051800000000000 = real v140 ∧ real sixteen = (4 : Nat) * real four ∧
    validFreq one = true ∧ validFreq two = true := by
  decide +kernel

/-- fc = 0.4; the smallest fc, whose quotient underflows; the largest fc below 70. -/
theorem witness_NormalizedCutoffIsInTheUnitInterval :
    (validFreq v04 = true ∧ validFreq v140 = true ∧ belowNyquist v04 v140 = true) ∧
    (belowNyquist 1#64 v140 = true ∧ magBits (wnOf 1#64 v140) = 0) ∧
    (belowNyquist 0x40517FFFFFFFFFFF v140 = true ∧
      magBits (wnOf 0x40517FFFFFFFFFFF v140) = 0x3FEFFFFFFFFFFFFE) := by
  decide +kernel

/-- V-C2, last row: the cutoff rounds to zero; and an ordinary one. -/
theorem witness_CoreCutoffIsBelowNyquist :
    (shiftValid testParams 4#64 1#64 4 = true ∧ isZero (cutoffOf 1#64) = true) ∧
    shiftValid testParams eight one 4 = true := by
  decide +kernel

theorem witness_HypotIsSymmetricAndExactWhereItCanBe :
    isFinite three = true ∧ isFinite four = true ∧ 0x4014000000000000 < infBits ∧
    real three * real three + real four * real four =
      (magUnits 0x4014000000000000 : Int) * magUnits 0x4014000000000000 := by
  decide +kernel

theorem witness_HypotIsOneOfTheTwoNearest :
    isFinite big = true ∧ isFinite one = true ∧
    ((2 ^ 54 - 1) * 2 ^ 2044 : ℝ) ≤
      Real.sqrt ((real 0x7FEFFFFFFFFFFFFF : ℝ) * real 0x7FEFFFFFFFFFFFFF +
        (real big : ℝ) * real big) ∧
    Real.sqrt ((real posZero : ℝ) * real posZero + (real posZero : ℝ) * real posZero) <
      ((2 ^ 54 - 1) * 2 ^ 2044 : ℝ) := by
  have hp : (0 : ℝ) < (2 ^ 54 - 1) * 2 ^ 2044 := by
    apply mul_pos
    · norm_num
    · exact pow_pos two_pos _
  refine ⟨by decide, by decide, ?_, ?_⟩
  · apply Real.le_sqrt_of_sq_le
    have h : ((2 ^ 54 - 1) * 2 ^ 2044 : Int) ^ 2 ≤
        real 0x7FEFFFFFFFFFFFFF * real 0x7FEFFFFFFFFFFFFF + real big * real big := by decide +kernel
    exact_mod_cast h
  · have hz : real posZero = 0 := real_zero (by decide)
    rw [hz]
    simpa using hp

theorem witness_Atan2SpecialCases :
    (isZero negZero = true ∧ signBit one = false) ∧ (isZero posZero = true ∧ signBit negZero = true) ∧
    (isZero one = false ∧ isZero negZero = true) ∧ isFinite one = true ∧ isFinite negZero = true := by
  decide

end Sys2Proof.Tests
end

section
/-! SUPPORT. What each command can do to the units of the block, said once: the effect on each filter unit,
on the shifter and on the core. The invariant, the cfg and fault bits and the settled statements about the
state (10_state.md) follow from it. -/

namespace Sys2Proof.Machine

/-! ### The effect of a command on each unit -/

/-- The unit is configured, or the core is, which has its units configured (R56). -/
def FilterReady (s : State) (u : FilterUnit) : Prop := s.core.cfg = true ∨ (s.filter u).cfg = true

/-- The shifter is configured, or the core is (R56). -/
def ShifterReady (s : State) : Prop := s.core.cfg = true ∨ s.ps.cfg = true

/-- What the command `i`, which took `s` to `t`, did to a filter unit. -/
inductive FilterEffect (i : Instr) (s t : State) (u : FilterUnit) : Prop where
  | kept (now : t.filter u = s.filter u)
  | configured (n : Nat) (fc fs : F64) (cmd : i = .fcfg u n ∨ i = .cinit n) (ok : t.err = .none)
      (valid : filterValid s.params n fc fs = true)
      (now : t.filter u = configuredFilter s.params n fc fs (s.filter u))
  | reordered (n : Nat) (cmd : i = .fsetord u n ∨ i = .csetord n) (ok : t.err = .none)
      (ready : FilterReady s u)
      (valid : filterValid s.params n (s.filter u).fc (s.filter u).fs = true)
      (now : t.filter u = reorderedFilter s.params n (s.filter u))
  | retuned (fc fs : F64) (ready : FilterReady s u)
      (valid : filterValid s.params (s.filter u).order fc fs = true)
      (now : t.filter u = loadCoeffs s.params { s.filter u with fc := fc, fs := fs })
  | filtered (x y : F64) (ready : FilterReady s u)
      (now : filterStep (s.filter u) x = (t.filter u, some y))
  | faulted (x : F64) (cmd : i = .ffilt u ∨ i = .cdemod ∨ i = .cstep)
      (err : t.err = .numericalInstability) (src : t.errSrc = unitSrc u) (ready : FilterReady s u)
      (now : filterStep (s.filter u) x = (t.filter u, none))

/-- What the command `i`, which took `s` to `t`, did to the shifter. -/
inductive ShifterEffect (i : Instr) (s t : State) : Prop where
  | kept (now : t.ps = s.ps)
  | configured (fs fr : F64) (fl : Nat)
      (cmd : i = .pcfg fl ∨ (∃ n, i = .cinit n) ∧ fl = Config.coreFloor) (ok : t.err = .none)
      (valid : shiftValid s.params fs fr fl = true) (now : t.ps = configuredShifter fs fr fl s.ps)
  | retunedFs (fs : F64) (ready : ShifterReady s)
      (valid : shiftValid s.params fs s.ps.fr s.ps.floor = true) (now : t.ps = shifterWithFs fs s.ps)
  | retunedFr (fr : F64) (ready : ShifterReady s)
      (valid : shiftValid s.params s.ps.fs fr s.ps.floor = true) (now : t.ps = shifterWithFr fr s.ps)
  | shifted (x : F64) (ready : ShifterReady s) (now : t.ps = (shiftStep s.ps x).1)

/-- What the command `i`, which took `s` to `t`, did to the core. -/
inductive CoreEffect (i : Instr) (s t : State) : Prop where
  | kept (now : t.core = s.core)
  | constructed (n : Nat) (cmd : i = .cinit n) (settle : validSettle s.arg2 = true)
      (now : t = (constructedCore n s).report .none .none)

/-- What the command `i` did, when it took `s` to `t`: the effect on each unit, and a STATUS that says
what happened (R401, R316). -/
structure CommandEffect (i : Instr) (s t : State) : Prop where
  params : t.params = s.params
  filter : ∀ u, FilterEffect i s t u
  shifter : ShifterEffect i s t
  core : CoreEffect i s t
  status : srcAllowed t.err t.errSrc = true
  instability : ∀ u, t.err = .numericalInstability → t.errSrc = unitSrc u → (t.filter u).fault = true

/-! ### Building an effect -/

theorem filter_eq_of_units {s t : State} (h1 : t.f1 = s.f1) (h2 : t.f2 = s.f2) (u : FilterUnit) :
    t.filter u = s.filter u := by
  cases u
  · exact h1
  · exact h2

theorem unitSrc_injective {u v : FilterUnit} (h : unitSrc u = unitSrc v) : u = v := by
  revert h
  cases u <;> cases v <;> decide

/-- A command that ends without NUMERICAL_INSTABILITY and leaves every unit as it was. -/
theorem CommandEffect.ofSameUnits {i : Instr} {s t : State}
    (same : t = { s with res0 := t.res0, res1 := t.res1, err := t.err, errSrc := t.errSrc,
                         ref := t.ref, med := t.med })
    (status : srcAllowed t.err t.errSrc = true) (stable : t.err ≠ .numericalInstability) :
    CommandEffect i s t where
  params := by rw [same]
  filter u := .kept (filter_eq_of_units (by rw [same]) (by rw [same]) u)
  shifter := .kept (by rw [same])
  core := .kept (by rw [same])
  status := status
  instability _ he := absurd he stable

/-- A command that ends without error. -/
theorem CommandEffect.ofCompleted {i : Instr} {s t : State} (params : t.params = s.params)
    (filter : ∀ u, FilterEffect i s t u) (shifter : ShifterEffect i s t) (core : CoreEffect i s t)
    (err : t.err = .none) (src : t.errSrc = .none) : CommandEffect i s t where
  params := params
  filter := filter
  shifter := shifter
  core := core
  status := by rw [err, src]; rfl
  instability _ he := by rw [err] at he; cases he

/-- A command that changes one filter unit, and whose NUMERICAL_INSTABILITY is that unit's fault. -/
theorem CommandEffect.ofOneFilter {i : Instr} {s t : State} {u : FilterUnit} {f : Filter}
    (same : t = { s.setFilter u f with res0 := t.res0, err := t.err, errSrc := t.errSrc })
    (effect : t.filter u = f → FilterEffect i s t u) (status : srcAllowed t.err t.errSrc = true)
    (unstable : t.err = .numericalInstability → t.errSrc = unitSrc u ∧ f.fault = true) :
    CommandEffect i s t where
  params := by rw [same]; simp
  filter v := by
    by_cases hv : v = u
    · subst hv
      exact effect (by rw [same]; cases v <;> rfl)
    · exact .kept (by rw [← setFilter_filter_other (s := s) (f := f) hv, same]; cases v <;> rfl)
  shifter := .kept (by rw [same]; simp)
  core := .kept (by rw [same]; simp)
  status := status
  instability v he hv := by
    obtain ⟨hu, hf⟩ := unstable he
    obtain rfl := unitSrc_injective (hv.symm.trans hu)
    rw [same]
    cases v <;> exact hf

/-- A command that gives one filter unit a new value and ends without error. -/
theorem CommandEffect.ofSetFilter {i : Instr} {s : State} {u : FilterUnit} {f : Filter}
    (effect : FilterEffect i s ((s.setFilter u f).report .none .none) u) :
    CommandEffect i s ((s.setFilter u f).report .none .none) :=
  .ofOneFilter (f := f) (by cases u <;> rfl) (fun _ => effect) rfl (fun he => by cases he)

theorem fault_of_filterStep_none {f g : Filter} {x : F64} (h : filterStep f x = (g, none)) :
    g.fault = true := by rw [filterStep_none h]

/-! ### The effect of each command -/

section commands
variable {s t : State} {u : FilterUnit} {n fl : Nat}

theorem fcfg_effect (h : execFcfg u n s = .next t) : CommandEffect (.fcfg u n) s t := by
  rcases execFcfg_next h with ⟨hv, rfl⟩ | rfl
  · exact .ofSetFilter (.configured n _ _ (.inl rfl) rfl hv (by simp))
  · exact .ofSameUnits rfl (by cases u <;> rfl) (by simp)

theorem fsetfs_effect (h : execFsetfs u s = .next t) : CommandEffect (.fsetfs u) s t := by
  rcases execFsetfs_next h with rfl | ⟨hc, hv, rfl⟩ | rfl
  · exact .ofSameUnits rfl (by cases u <;> rfl) (by simp)
  · exact .ofSetFilter (.retuned _ _ (.inr hc) hv (by simp))
  · exact .ofSameUnits rfl (by cases u <;> rfl) (by simp)

theorem fsetfc_effect (h : execFsetfc u s = .next t) : CommandEffect (.fsetfc u) s t := by
  rcases execFsetfc_next h with rfl | ⟨hc, hv, rfl⟩ | rfl
  · exact .ofSameUnits rfl (by cases u <;> rfl) (by simp)
  · exact .ofSetFilter (.retuned _ _ (.inr hc) hv (by simp))
  · exact .ofSameUnits rfl (by cases u <;> rfl) (by simp)

theorem fsetord_effect (h : execFsetord u n s = .next t) : CommandEffect (.fsetord u n) s t := by
  rcases execFsetord_next h with rfl | ⟨hc, hv, rfl⟩ | rfl
  · exact .ofSameUnits rfl (by cases u <;> rfl) (by simp)
  · exact .ofSetFilter (.reordered n (.inl rfl) rfl (.inr hc) hv (by simp))
  · exact .ofSameUnits rfl (by cases u <;> rfl) (by simp)

theorem ffilt_effect (h : execFfilt u s = .next t) : CommandEffect (.ffilt u) s t := by
  rcases execFfilt_next h with rfl | ⟨hc, f, y, hs, rfl⟩ | ⟨hc, f, hs, rfl⟩
  · exact .ofSameUnits rfl (by cases u <;> rfl) (by simp)
  · exact .ofOneFilter (f := f) rfl (fun hf => .filtered _ y (.inr hc) (hf ▸ hs)) rfl
      (fun he => by cases he)
  · exact .ofOneFilter (f := f) rfl
      (fun hf => .faulted _ (.inl rfl) rfl rfl (.inr hc) (hf ▸ hs)) (by cases u <;> rfl)
      (fun _ => ⟨rfl, fault_of_filterStep_none hs⟩)

theorem pcfg_effect (h : execPcfg fl s = .next t) : CommandEffect (.pcfg fl) s t := by
  rcases execPcfg_next h with ⟨hv, rfl⟩ | rfl
  · exact .ofCompleted rfl (fun u => .kept (filter_eq_of_units rfl rfl u))
      (.configured _ _ fl (.inl rfl) rfl hv rfl) (.kept rfl) rfl rfl
  · exact .ofSameUnits rfl rfl (by simp)

theorem psetfs_effect (h : execPsetfs s = .next t) : CommandEffect .psetfs s t := by
  rcases execPsetfs_next h with rfl | ⟨hc, hv, rfl⟩ | rfl
  · exact .ofSameUnits rfl rfl (by simp)
  · exact .ofCompleted rfl (fun u => .kept (filter_eq_of_units rfl rfl u))
      (.retunedFs _ (.inr hc) hv rfl) (.kept rfl) rfl rfl
  · exact .ofSameUnits rfl rfl (by simp)

theorem psetfr_effect (h : execPsetfr s = .next t) : CommandEffect .psetfr s t := by
  rcases execPsetfr_next h with rfl | ⟨hc, hv, rfl⟩ | rfl
  · exact .ofSameUnits rfl rfl (by simp)
  · exact .ofCompleted rfl (fun u => .kept (filter_eq_of_units rfl rfl u))
      (.retunedFr _ (.inr hc) hv rfl) (.kept rfl) rfl rfl
  · exact .ofSameUnits rfl rfl (by simp)

theorem pshift_effect (h : execPshift s = .next t) : CommandEffect .pshift s t := by
  rcases execPshift_next h with rfl | ⟨hc, rfl⟩
  · exact .ofSameUnits rfl rfl (by simp)
  · exact .ofCompleted rfl (fun u => .kept (filter_eq_of_units rfl rfl u)) (.shifted _ (.inr hc) rfl)
      (.kept rfl) rfl rfl

theorem cinit_effect (h : execCinit n s = .next t) : CommandEffect (.cinit n) s t := by
  rcases execCinit_next h with ⟨src, hsrc, rfl⟩ | ⟨hps, hf, hst, rfl⟩
  · exact .ofSameUnits rfl (by fin_cases hsrc <;> rfl) (by simp)
  · refine .ofCompleted rfl (fun u => ?_) (.configured _ _ _ (.inr ⟨⟨n, rfl⟩, rfl⟩) rfl hps rfl)
      (.constructed n rfl hst rfl) rfl rfl
    exact .configured n _ _ (.inr rfl) rfl hf (by cases u <;> rfl)

theorem csetfs_effect (h : execCsetfs s = .next t) : CommandEffect .csetfs s t := by
  rcases execCsetfs_next h with rfl | ⟨src, hsrc, rfl⟩ | ⟨hc, hps, hf1, hf2, rfl⟩
  · exact .ofSameUnits rfl rfl (by simp)
  · exact .ofSameUnits rfl (by fin_cases hsrc <;> rfl) (by simp)
  · refine .ofCompleted rfl (fun u => ?_) (.retunedFs _ (.inl hc) hps rfl) (.kept rfl) rfl rfl
    cases u
    · exact .retuned _ _ (.inl hc) hf1 rfl
    · exact .retuned _ _ (.inl hc) hf2 rfl

theorem csetfr_effect (h : execCsetfr s = .next t) : CommandEffect .csetfr s t := by
  rcases execCsetfr_next h with rfl | ⟨src, hsrc, rfl⟩ | ⟨hc, hps, hf1, hf2, rfl⟩
  · exact .ofSameUnits rfl rfl (by simp)
  · exact .ofSameUnits rfl (by fin_cases hsrc <;> rfl) (by simp)
  · refine .ofCompleted rfl (fun u => ?_) (.retunedFr _ (.inl hc) hps rfl) (.kept rfl) rfl rfl
    cases u
    · exact .retuned _ _ (.inl hc) hf1 rfl
    · exact .retuned _ _ (.inl hc) hf2 rfl

theorem csetord_effect (h : execCsetord n s = .next t) : CommandEffect (.csetord n) s t := by
  rcases execCsetord_next h with rfl | ⟨src, hsrc, rfl⟩ | ⟨hc, hf1, hf2, rfl⟩
  · exact .ofSameUnits rfl rfl (by simp)
  · exact .ofSameUnits rfl (by fin_cases hsrc <;> rfl) (by simp)
  · refine .ofCompleted rfl (fun u => ?_) (.kept rfl) (.kept rfl) rfl rfl
    cases u
    · exact .reordered n (.inr rfl) rfl (.inl hc) hf1 rfl
    · exact .reordered n (.inr rfl) rfl (.inl hc) hf2 rfl

theorem cconn_effect (h : execCconn s = .next t) : CommandEffect .cconn s t := by
  rcases execCconn_next h with rfl | ⟨-, c, d, rfl | rfl | rfl⟩
  all_goals exact .ofSameUnits rfl rfl (by simp)

theorem cacq_effect (h : execCacq s = .next t) : CommandEffect .cacq s t := by
  rcases execCacq_next h with rfl | ⟨-, c, d, ⟨r, m, -, rfl⟩ | rfl | rfl⟩
  all_goals exact .ofSameUnits rfl rfl (by simp)

/-- A demodulation, of CDEMOD or of CSTEP after it has asked the sources. -/
theorem demodulate_effect {i : Instr} {r m : F64} {c d : Source} (hi : i = .cdemod ∨ i = .cstep)
    (hc : s.core.cfg = true) (h : demodulate r m (s.withSources c d) = .next t) :
    CommandEffect i s t := by
  have hs : ShifterEffect i s t := by
    refine .shifted r (.inl hc) ?_
    rcases demodulate_next h with ⟨f1, -, rfl⟩ | ⟨f1, x, f2, -, -, rfl⟩ | ⟨f1, x, f2, y, -, -, rfl⟩
    all_goals rfl
  rcases demodulate_next h with ⟨f1, h1, rfl⟩ | ⟨f1, x, f2, h1, h2, rfl⟩ | ⟨f1, x, f2, y, h1, h2, rfl⟩
  · refine ⟨rfl, fun u => ?_, hs, .kept rfl, rfl, fun u _ hu => ?_⟩
    · cases u
      · exact .faulted _ (.inr hi) rfl rfl (.inl hc) h1
      · exact .kept rfl
    · obtain rfl : FilterUnit.f1 = u := unitSrc_injective hu
      exact fault_of_filterStep_none h1
  · refine ⟨rfl, fun u => ?_, hs, .kept rfl, rfl, fun u _ hu => ?_⟩
    · cases u
      · exact .filtered _ x (.inl hc) h1
      · exact .faulted _ (.inr hi) rfl rfl (.inl hc) h2
    · obtain rfl : FilterUnit.f2 = u := unitSrc_injective hu
      exact fault_of_filterStep_none h2
  · refine .ofCompleted rfl (fun u => ?_) hs (.kept rfl) rfl rfl
    cases u
    · exact .filtered _ x (.inl hc) h1
    · exact .filtered _ y (.inl hc) h2

theorem cdemod_effect (h : execCdemod s = .next t) : CommandEffect .cdemod s t := by
  rcases execCdemod_next h with rfl | ⟨hc, h⟩
  · exact .ofSameUnits rfl rfl (by simp)
  · exact demodulate_effect (c := s.ref) (d := s.med) (.inl rfl) hc h

theorem cstep_effect (h : execCstep s = .next t) : CommandEffect .cstep s t := by
  rcases execCstep_next h with rfl | ⟨hc, c, d, ⟨r, m, -, h⟩ | rfl | rfl⟩
  · exact .ofSameUnits rfl rfl (by simp)
  · exact demodulate_effect (.inr rfl) hc h
  · exact .ofSameUnits rfl rfl (by simp)
  · exact .ofSameUnits rfl rfl (by simp)

/-- What any command can do, one case for each row of R125. -/
theorem exec_effect {i : Instr} (h : exec i s = .next t) : CommandEffect i s t := by
  cases i with
  | fcfg u n => exact fcfg_effect h
  | fsetfs u => exact fsetfs_effect h
  | fsetfc u => exact fsetfc_effect h
  | fsetord u n => exact fsetord_effect h
  | ffilt u => exact ffilt_effect h
  | pcfg fl => exact pcfg_effect h
  | psetfs => exact psetfs_effect h
  | psetfr => exact psetfr_effect h
  | pshift => exact pshift_effect h
  | cinit n => exact cinit_effect h
  | csetfs => exact csetfs_effect h
  | csetfr => exact csetfr_effect h
  | csetord n => exact csetord_effect h
  | cconn => exact cconn_effect h
  | cacq => exact cacq_effect h
  | cdemod => exact cdemod_effect h
  | cstep => exact cstep_effect h

end commands

/-! ### The cfg and fault bits -/

@[simp] theorem shifterWithFs_cfg (fs : F64) (p : Shifter) : (shifterWithFs fs p).cfg = p.cfg := by
  unfold shifterWithFs
  split <;> rfl

@[simp] theorem shifterWithFr_cfg (fr : F64) (p : Shifter) : (shifterWithFr fr p).cfg = p.cfg := by
  unfold shifterWithFr
  split <;> rfl

theorem filterStep_cfg {f g : Filter} {x : F64} {y : Option F64} (h : filterStep f x = (g, y)) :
    g.cfg = f.cfg := by
  cases y with
  | none => rw [filterStep_none h]
  | some y =>
    obtain ⟨-, -, -, rfl⟩ := filterStep_some h
    rfl

/-- A step with an output was of a healthy unit, and leaves it healthy. -/
theorem filterStep_some_fault {f g : Filter} {x y : F64} (h : filterStep f x = (g, some y)) :
    f.fault = false ∧ g.fault = false := by
  obtain ⟨hf, -, -, rfl⟩ := filterStep_some h
  exact ⟨hf, hf⟩

section bits
variable {i : Instr} {s t : State} {u : FilterUnit}

/-- R56, R62: a unit's cfg is as before, or FCFG or CINIT has set it. -/
theorem FilterEffect.cfg (e : FilterEffect i s t u) :
    (t.filter u).cfg = (s.filter u).cfg ∨
      ((t.filter u).cfg = true ∧ t.err = .none ∧ ((∃ n, i = .fcfg u n) ∨ ∃ n, i = .cinit n)) := by
  cases e with
  | kept now => exact .inl (by rw [now])
  | configured n fc fs cmd ok valid now =>
    exact .inr ⟨by rw [now]; rfl, ok, cmd.imp (⟨n, ·⟩) (⟨n, ·⟩)⟩
  | reordered n cmd ok ready valid now => exact .inl (by rw [now]; rfl)
  | retuned fc fs ready valid now => exact .inl (by rw [now]; rfl)
  | filtered x y ready now => exact .inl (filterStep_cfg now)
  | faulted x cmd err src ready now => exact .inl (filterStep_cfg now)

/-- R56, R62: the shifter's cfg is as before, or PCFG or CINIT has set it. -/
theorem ShifterEffect.cfg (e : ShifterEffect i s t) :
    t.ps.cfg = s.ps.cfg ∨
      (t.ps.cfg = true ∧ t.err = .none ∧ ((∃ n, i = .pcfg n) ∨ ∃ n, i = .cinit n)) := by
  cases e with
  | kept now => exact .inl (by rw [now])
  | configured fs fr fl cmd ok valid now =>
    exact .inr ⟨by rw [now]; rfl, ok, cmd.imp (⟨fl, ·⟩) (·.1)⟩
  | retunedFs fs ready valid now => exact .inl (by simp [now])
  | retunedFr fr ready valid now => exact .inl (by simp [now])
  | shifted x ready now => exact .inl (by rw [now]; rfl)

/-- R56, R62: the core's cfg is as before, or CINIT has set it. -/
theorem CoreEffect.cfg (e : CoreEffect i s t) :
    t.core.cfg = s.core.cfg ∨ (t.core.cfg = true ∧ t.err = .none ∧ ∃ n, i = .cinit n) := by
  cases e with
  | kept now => exact .inl (by rw [now])
  | constructed n cmd settle now => exact .inr ⟨by rw [now]; rfl, by rw [now]; rfl, n, cmd⟩

/-- R62, R213: a fault that goes up is NUMERICAL_INSTABILITY of that unit, in a command that filters. -/
theorem FilterEffect.fault_set (e : FilterEffect i s t u) (hs : (s.filter u).fault = false)
    (ht : (t.filter u).fault = true) :
    t.err = .numericalInstability ∧ t.errSrc = unitSrc u ∧
      (i = .ffilt u ∨ i = .cdemod ∨ i = .cstep) := by
  cases e with
  | kept now => rw [now, hs] at ht; cases ht
  | configured n fc fs cmd ok valid now => rw [now] at ht; cases ht
  | reordered n cmd ok ready valid now => rw [now] at ht; cases ht
  | retuned fc fs ready valid now => rw [now, loadCoeffs_fault, hs] at ht; cases ht
  | filtered x y ready now => rw [(filterStep_some_fault now).2] at ht; cases ht
  | faulted x cmd err src ready now => exact ⟨err, src, cmd⟩

/-- R62: a fault goes down only with the histories reset, in a command that completes. -/
theorem FilterEffect.fault_cleared (e : FilterEffect i s t u) (hs : (s.filter u).fault = true)
    (ht : (t.filter u).fault = false) :
    t.err = .none ∧ (t.filter u).xh = zeros ((t.filter u).order + 1) ∧
      (t.filter u).yh = zeros ((t.filter u).order + 1) ∧
      ((∃ n, i = .fcfg u n) ∨ (∃ n, i = .fsetord u n) ∨ (∃ n, i = .cinit n) ∨
        ∃ n, i = .csetord n) := by
  cases e with
  | kept now => rw [now, hs] at ht; cases ht
  | configured n fc fs cmd ok valid now =>
    refine ⟨ok, by rw [now]; rfl, by rw [now]; rfl, ?_⟩
    rcases cmd with rfl | rfl <;> simp
  | reordered n cmd ok ready valid now =>
    refine ⟨ok, by rw [now]; rfl, by rw [now]; rfl, ?_⟩
    rcases cmd with rfl | rfl <;> simp
  | retuned fc fs ready valid now => rw [now, loadCoeffs_fault, hs] at ht; cases ht
  | filtered x y ready now => rw [(filterStep_some_fault now).1] at hs; cases hs
  | faulted x cmd err src ready now => rw [fault_of_filterStep_none now] at ht; cases ht

/-- R56: no command clears a cfg bit. -/
theorem FilterEffect.cfg_mono (e : FilterEffect i s t u) (h : (s.filter u).cfg = true) :
    (t.filter u).cfg = true := e.cfg.elim (·.trans h) (·.1)

theorem ShifterEffect.cfg_mono (e : ShifterEffect i s t) (h : s.ps.cfg = true) : t.ps.cfg = true :=
  e.cfg.elim (·.trans h) (·.1)

theorem CoreEffect.cfg_mono (e : CoreEffect i s t) (h : s.core.cfg = true) : t.core.cfg = true :=
  e.cfg.elim (·.trans h) (·.1)

end bits

/-! ### The commands that set and clear flags, when they end without error (R62) -/

section success
variable {s t : State} {u : FilterUnit} {n : Nat}

theorem fcfg_success (h : exec (.fcfg u n) s = .next t) (ok : t.err = .none) :
    t.filter u = configuredFilter s.params n s.arg0 s.arg1 (s.filter u) := by
  rcases execFcfg_next h with ⟨-, rfl⟩ | rfl
  · simp
  · simp at ok

theorem fsetord_success (h : exec (.fsetord u n) s = .next t) (ok : t.err = .none) :
    t.filter u = reorderedFilter s.params n (s.filter u) := by
  rcases execFsetord_next h with rfl | ⟨-, -, rfl⟩ | rfl
  · simp at ok
  · simp
  · simp at ok

theorem pcfg_success (h : exec (.pcfg n) s = .next t) (ok : t.err = .none) :
    t.ps = configuredShifter s.arg0 s.arg1 n s.ps := by
  rcases execPcfg_next h with ⟨-, rfl⟩ | rfl
  · rfl
  · simp at ok

theorem cinit_success (h : exec (.cinit n) s = .next t) (ok : t.err = .none) :
    t = (constructedCore n s).report .none .none := by
  rcases execCinit_next h with ⟨src, -, rfl⟩ | ⟨-, -, -, rfl⟩
  · simp at ok
  · rfl

theorem csetord_success (h : exec (.csetord n) s = .next t) (ok : t.err = .none) :
    t.filter u = reorderedFilter s.params n (s.filter u) := by
  rcases execCsetord_next h with rfl | ⟨src, -, rfl⟩ | ⟨-, -, -, rfl⟩
  · simp at ok
  · simp at ok
  · cases u <;> rfl

end success

@[simp] theorem constructedCore_filter_cfg (n : Nat) (s : State) (u : FilterUnit) :
    ((constructedCore n s).filter u).cfg = true := by cases u <;> rfl

@[simp] theorem constructedCore_filter_fault (n : Nat) (s : State) (u : FilterUnit) :
    ((constructedCore n s).filter u).fault = false := by cases u <;> rfl

/-! ### The invariant over commands -/

section invariant
variable {i : Instr} {s t : State} {u : FilterUnit}

theorem State.Inv.filter (hi : s.Inv) (u : FilterUnit) : (s.filter u).Inv s.params := by
  cases u
  · exact hi.f1
  · exact hi.f2

theorem State.Inv.filterReady (hi : s.Inv) (h : FilterReady s u) : (s.filter u).cfg = true := by
  rcases h with hc | hu
  · obtain ⟨h1, h2, -, -⟩ := hi.coreUnits hc
    cases u
    · exact h1
    · exact h2
  · exact hu

theorem State.Inv.shifterReady (hi : s.Inv) (h : ShifterReady s) : s.ps.cfg = true := by
  rcases h with hc | hp
  · obtain ⟨-, -, hp, -⟩ := hi.coreUnits hc
    exact hp
  · exact hp

theorem FilterEffect.inv (e : FilterEffect i s t u) (hi : s.Inv) :
    (t.filter u).Inv s.params := by
  cases e with
  | kept now => rw [now]; exact hi.filter u
  | configured n fc fs cmd ok valid now => rw [now]; exact configuredFilter_inv _ valid
  | reordered n cmd ok ready valid now =>
    rw [now]; exact reorderedFilter_inv (hi.filterReady ready) valid
  | retuned fc fs ready valid now =>
    rw [now]
    exact loadCoeffs_inv (hi.filter u) (hi.filterReady ready) rfl rfl rfl rfl valid
  | filtered x y ready now => exact (filterStep_inv (hi.filter u) (hi.filterReady ready) now).1
  | faulted x cmd err src ready now =>
    exact (filterStep_inv (hi.filter u) (hi.filterReady ready) now).1

theorem wellFormed_iff : i.WellFormed ↔ i.imm ≤ 255 := decide_eq_true_iff

theorem configuredShifter_inv {p : Params} {fs fr : F64} {fl : Nat} (h : Shifter)
    (hv : shiftValid p fs fr fl = true) (hfl : fl ≤ 255) :
    Shifter.Inv p (configuredShifter fs fr fl h) := by
  rw [configuredShifter_eq]
  exact ⟨nofun, fun _ => ⟨hv, hfl, rfl, rfl, length_zeros _⟩⟩

/-- A checked frequency keeps the shifter's invariant, whether it is the one held or another (R170). -/
theorem shifterWithFs_inv {p : Params} {fs : F64} {h : Shifter} (hi : h.Inv p) (hc : h.cfg = true)
    (hv : shiftValid p fs h.fr h.floor = true) : Shifter.Inv p (shifterWithFs fs h) := by
  obtain ⟨-, hfl, -⟩ := hi.2 hc
  unfold shifterWithFs
  split
  · exact hi
  · exact ⟨fun h0 => absurd (hc.symm.trans h0) (by decide),
      fun _ => ⟨hv, hfl, rfl, rfl, length_zeros _⟩⟩

theorem shifterWithFr_inv {p : Params} {fr : F64} {h : Shifter} (hi : h.Inv p) (hc : h.cfg = true)
    (hv : shiftValid p h.fs fr h.floor = true) : Shifter.Inv p (shifterWithFr fr h) := by
  obtain ⟨-, hfl, -⟩ := hi.2 hc
  unfold shifterWithFr
  split
  · exact hi
  · exact ⟨fun h0 => absurd (hc.symm.trans h0) (by decide),
      fun _ => ⟨hv, hfl, rfl, rfl, length_zeros _⟩⟩

theorem shiftStep_inv {p : Params} {h : Shifter} (x : F64) (hi : h.Inv p) (hc : h.cfg = true) :
    Shifter.Inv p (shiftStep h x).1 := by
  obtain ⟨hv, hfl, hh, hq, hb⟩ := hi.2 hc
  have hpos : 1 ≤ h.half := hh ▸ halfOf_pos hv
  refine ⟨fun h0 => absurd (hc.symm.trans h0) (by decide), fun _ => ⟨hv, hfl, hh, hq, ?_⟩⟩
  rw [shiftStep_buf, length_slide, shiftStep_half]
  omega

theorem ShifterEffect.inv (e : ShifterEffect i s t) (hi : s.Inv) (hw : i.WellFormed) :
    t.ps.Inv s.params := by
  cases e with
  | kept now => rw [now]; exact hi.ps
  | configured fs fr fl cmd ok valid now =>
    rw [now]
    refine configuredShifter_inv _ valid ?_
    rcases cmd with rfl | ⟨-, rfl⟩
    · exact wellFormed_iff.1 hw
    · decide
  | retunedFs fs ready valid now =>
    rw [now]; exact shifterWithFs_inv hi.ps (hi.shifterReady ready) valid
  | retunedFr fr ready valid now =>
    rw [now]; exact shifterWithFr_inv hi.ps (hi.shifterReady ready) valid
  | shifted x ready now => rw [now]; exact shiftStep_inv x hi.ps (hi.shifterReady ready)

/-- Every command keeps the invariant. -/
theorem exec_inv (hi : s.Inv) (hw : i.WellFormed) (h : exec i s = .next t) : t.Inv := by
  have e := exec_effect h
  have hu := fun u => (e.filter u).inv hi
  have hp := e.shifter.inv hi hw
  rw [← e.params] at hu hp
  refine ⟨e.params ▸ hi.params, hu .f1, hu .f2, hp, ?_, ?_, e.status⟩
  · intro h0
    cases e.core with
    | kept now => rw [now] at h0 ⊢; exact hi.coreReset h0
    | constructed n cmd settle now => rw [now] at h0; cases h0
  · intro hc
    cases e.core with
    | kept now =>
      rw [now] at hc ⊢
      obtain ⟨h1, h2, hps, hst⟩ := hi.coreUnits hc
      exact ⟨(e.filter .f1).cfg_mono h1, (e.filter .f2).cfg_mono h2, e.shifter.cfg_mono hps, hst⟩
    | constructed n cmd settle now => rw [now]; exact ⟨rfl, rfl, rfl, settle⟩

end invariant

/-! ### The invariant over steps -/

/-- Every command a word decodes to is well-formed: its immediate is a field of 8 bits (R122, R126). -/
theorem decodeWord_wellFormed {w : Word} {i : Instr} (h : decodeWord w = .ok i) : i.WellFormed := by
  have build_imm : ∀ r ∈ opcodeTable, ∀ (u : FilterUnit) (n : Nat), (r.build u n).imm ≤ n := by
    simp [opcodeTable, filterRows, shifterRows, coreRows, Instr.imm]
  unfold decodeWord at h
  split at h
  · rename_i r hr
    obtain rfl : r.build (unitOf w) (immOf w) = i := by simpa using h
    have := build_imm r (List.mem_of_find?_eq_some hr) (unitOf w) (immOf w)
    exact wellFormed_iff.2 (this.trans (immOf_le w))
  · cases h

/-- A host write outside CMD changes no more than the ARG registers (R86, R89, R90). -/
theorem windowWrite_same (s : State) (off n : Nat) (d : BitVec 64) :
    windowWrite s off n d = { s with arg0 := (windowWrite s off n d).arg0
                                     arg1 := (windowWrite s off n d).arg1
                                     arg2 := (windowWrite s off n d).arg2 } := by
  rcases windowWrite_cases s off n d with ⟨v, -, -, h⟩ | ⟨v, -, -, h⟩ | ⟨v, -, -, h⟩ | h
  all_goals rw [h]

/-- The units, the core, the results and the parameters are as before. -/
def SameUnits (s t : State) : Prop :=
  t.f1 = s.f1 ∧ t.f2 = s.f2 ∧ t.ps = s.ps ∧ t.core = s.core ∧ t.params = s.params

/-- A step resets the block, runs one command, or changes no unit. -/
theorem step_units {s t : State} (h : step s = .next t) :
    ((s.inputs.head? = some .reset ∨ ∃ w, s.inputs.head? = some (.commandReset w)) ∧
      ∃ s' : State, s'.params = s.params ∧ t = s'.afterReset) ∨
    (∃ i rest, i.WellFormed ∧ exec i { s with inputs := rest } = .next t) ∨
    (SameUnits s t ∧
      (t.err = s.err ∧ t.errSrc = s.errSrc ∨ t.err = .illegalCommand ∧ t.errSrc = .decode)) := by
  rcases step_next h with ⟨-, rfl⟩ | ⟨e, rest, s', hin, rfl,
    ⟨rfl, he⟩ | ⟨a, n, v, rfl, rfl⟩ | ⟨w, d, rfl, rfl, ⟨i, hd, hx⟩ | ⟨-, rfl⟩⟩ |
    ⟨off, n, d, rfl, -, -, -, rfl⟩⟩
  · exact .inr (.inr ⟨⟨rfl, rfl, rfl, rfl, rfl⟩, .inl ⟨rfl, rfl⟩⟩)
  · refine .inl ⟨?_, { s with inputs := rest }, rfl, rfl⟩
    simpa [hin] using he
  · exact .inr (.inr ⟨⟨rfl, rfl, rfl, rfl, rfl⟩, .inl ⟨rfl, rfl⟩⟩)
  · exact .inr (.inl ⟨i, rest, decodeWord_wellFormed hd, hx⟩)
  · exact .inr (.inr ⟨⟨rfl, rfl, rfl, rfl, rfl⟩, .inr ⟨rfl, rfl⟩⟩)
  · rw [windowWrite_same]
    exact .inr (.inr ⟨⟨rfl, rfl, rfl, rfl, rfl⟩, .inl ⟨rfl, rfl⟩⟩)

theorem State.Inv.ofSameUnits {s t : State} (hi : s.Inv) (same : SameUnits s t)
    (status : srcAllowed t.err t.errSrc = true) : t.Inv := by
  obtain ⟨h1, h2, hp, hc, hpar⟩ := same
  refine ⟨?_, ?_, ?_, ?_, ?_, ?_, status⟩
  all_goals simp only [h1, h2, hp, hc, hpar]
  · exact hi.params
  · exact hi.f1
  · exact hi.f2
  · exact hi.ps
  · exact hi.coreReset
  · exact hi.coreUnits

theorem afterReset_inv {s : State} (h : s.params.wf = true) : s.afterReset.Inv where
  params := h
  f1 := filterReset_inv _
  f2 := filterReset_inv _
  ps := ⟨fun _ => rfl, nofun⟩
  coreReset _ := rfl
  coreUnits := nofun
  status := rfl

/-- Every step keeps the invariant. -/
theorem step_inv {s t : State} (hi : s.Inv) (h : step s = .next t) : t.Inv := by
  rcases step_units h with ⟨-, s', hp, rfl⟩ | ⟨i, rest, hw, hx⟩ | ⟨same, hs⟩
  · exact afterReset_inv (hp ▸ hi.params)
  · have hi' : State.Inv { s with inputs := rest } :=
      hi.ofSameUnits ⟨rfl, rfl, rfl, rfl, rfl⟩ hi.status
    exact exec_inv hi' hw hx
  · refine hi.ofSameUnits same ?_
    rcases hs with ⟨he, hsrc⟩ | ⟨he, hsrc⟩ <;> rw [he, hsrc]
    · exact hi.status
    · rfl

/-- R450: reset, as a step. -/
theorem step_reset {s : State} {rest : List Event} (h : s.inputs = .reset :: rest) :
    step s = .next (State.afterReset { s with inputs := rest }) := step_of_inputs h

/-- R56: a step that is no reset keeps every cfg bit that is 1. -/
theorem step_keeps_cfg {s t : State} (h1 : s.inputs.head? ≠ some .reset)
    (h2 : ∀ w, s.inputs.head? ≠ some (.commandReset w)) (h : step s = .next t) :
    (∀ u, (s.filter u).cfg = true → (t.filter u).cfg = true) ∧
      (s.ps.cfg = true → t.ps.cfg = true) ∧ (s.core.cfg = true → t.core.cfg = true) := by
  rcases step_units h with ⟨hr | ⟨w, hr⟩, -⟩ | ⟨i, rest, -, hx⟩ | ⟨⟨hf1, hf2, hp, hc, -⟩, -⟩
  · exact absurd hr h1
  · exact absurd hr (h2 w)
  · have e := exec_effect hx
    exact ⟨fun u h => (e.filter u).cfg_mono (by cases u <;> exact h), e.shifter.cfg_mono,
      e.core.cfg_mono⟩
  · exact ⟨fun u h => by rwa [filter_eq_of_units hf1 hf2], fun h => by rwa [hp], fun h => by rwa [hc]⟩

/-! ### What the invariant says of the storage (R47, R51) -/

theorem entry_finite {l : List F64} (h : ∀ v ∈ l, isFinite v = true) (i : Nat) :
    isFinite (entry l i) = true := by
  rcases entry_mem_or_zero l i with hm | h0
  · exact h _ hm
  · rw [h0]; exact posZero_finite

/-- R47: an entry above the order is +0.0. -/
theorem Filter.Inv.entry_above {p : Params} {f : Filter} (hi : f.Inv p) {i : Nat} (h : f.order < i) :
    entry f.b i = posZero ∧ entry f.a i = posZero ∧ entry f.xh i = posZero ∧
      entry f.yh i = posZero := by
  cases hc : f.cfg with
  | false => rw [hi.1 hc]; exact ⟨rfl, rfl, rfl, rfl⟩
  | true =>
    obtain ⟨-, hb, ha, hx, hy, -, -⟩ := hi.2 hc
    refine ⟨entry_of_ge ?_, entry_of_ge ?_, entry_of_ge ?_, entry_of_ge ?_⟩
    · rw [hb, length_designBs]; exact h
    · rw [ha, length_designAs]; exact h
    · rw [hx]; exact h
    · rw [hy]; exact h

/-- R47: every history entry is finite. -/
theorem Filter.Inv.history_finite {p : Params} {f : Filter} (hi : f.Inv p) (i : Nat) :
    isFinite (entry f.xh i) = true ∧ isFinite (entry f.yh i) = true := by
  cases hc : f.cfg with
  | false => rw [hi.1 hc]; exact ⟨posZero_finite, posZero_finite⟩
  | true =>
    obtain ⟨-, -, -, -, -, hx, hy⟩ := hi.2 hc
    exact ⟨entry_finite hx i, entry_finite hy i⟩

/-- R51: the geometry of a configured shifter is in range. -/
theorem Shifter.Inv.geometry {p : Params} {h : Shifter} (hi : h.Inv p) (hc : h.cfg = true) :
    h.half = halfOf h.fs h.fr ∧ h.quarter = quarterOf h.fs h.fr ∧
      1 ≤ h.half ∧ h.half ≤ p.hmax ∧ h.quarter + 1 ≤ h.half ∧
      ∀ j, h.half ≤ j → entry h.buf j = posZero := by
  obtain ⟨hv, -, hh, hq, hb⟩ := hi.2 hc
  obtain ⟨-, -, -, -, hle⟩ := shiftValid_parts hv
  refine ⟨hh, hq, ?_, ?_, ?_, fun j hj => entry_of_ge (hb.trans_le hj)⟩
  · rw [hh]; exact halfOf_pos hv
  · rw [hh]; exact hle
  · rw [hh, hq]; exact quarterOf_lt hv

/-! ### Registers as the host reads them (R63, R64, R81) -/

/-- A 32-bit register shows zeros in the high half of its 64-bit content. -/
theorem Reg.value_of_bytes_four {r : Reg} (s : State) (h : r.bytes = 4) :
    ∃ w : Word, r.value s = w.setWidth 64 := by
  cases r
  case cmd => exact ⟨0#32, rfl⟩
  case status => exact ⟨statusWord s, rfl⟩
  case caps => exact ⟨capsWord s, rfl⟩
  case orders => exact ⟨ordersWord s, rfl⟩
  case psHalf => exact ⟨halfWord s, rfl⟩
  case psQuarter => exact ⟨quarterWord s, rfl⟩
  all_goals cases h

theorem Reg.bytes_cases (r : Reg) : r.bytes = 4 ∨ r.bytes = 8 := by cases r <;> decide

/-- A read of a register's width at its offset returns its content. -/
theorem windowRead_register (s : State) (r : Reg) : windowRead s r.offset r.bytes = r.value s := by
  have hr : regAt r.offset = some r := regAt_byte r 0 (by rcases r.bytes_cases with h | h <;> omega)
  rcases r.bytes_cases with h | h
  · obtain ⟨w, hw⟩ := r.value_of_bytes_four s h
    simp [windowRead, windowBits, hr, h, hw]
  · simp [windowRead, windowBits, hr, h]

/-- R87: a read of a register is a step that gives the host its content, and changes nothing else. -/
theorem step_read_register {s : State} {rest : List Event} {r : Reg}
    (h : s.inputs = .read (s.params.base + r.offset) r.bytes :: rest) :
    step s = .next { s with inputs := rest, hostData := some (r.value s) } := by
  have ho : r.offset < 256 := by cases r <;> decide
  have ha : takenAccess r.offset r.bytes := by cases r <;> simp [takenAccess, Reg.offset, Reg.bytes]
  rw [step_of_inputs h]
  refine (busRead_taken (s := { s with inputs := rest }) ho ha).trans ?_
  rw [windowRead_register]
  cases r <;> rfl

theorem toNat_zero_append {n : Nat} (m : Nat) (x : BitVec n) : (0#m ++ x).toNat = x.toNat := by
  simp [BitVec.toNat_append]

theorem capsWord_extended (s : State) : (capsWord s).setWidth 64 =
    0#32 ++ (BitVec.ofNat 24 s.params.hmax ++ BitVec.ofNat 8 s.params.nmax) := by
  apply BitVec.eq_of_toNat_eq
  rw [toNat_zero_append, BitVec.toNat_setWidth_of_le (by decide), capsWord]

theorem ordersWord_extended (s : State) : (ordersWord s).setWidth 64 =
    0#40 ++ (BitVec.ofNat 8 s.ps.floor ++ BitVec.ofNat 8 s.f2.order ++ BitVec.ofNat 8 s.f1.order) := by
  apply BitVec.eq_of_toNat_eq
  rw [toNat_zero_append, BitVec.toNat_setWidth_of_le (by decide), ordersWord]
  simp only [BitVec.toNat_append, BitVec.toNat_zero, Nat.zero_shiftLeft, Nat.zero_or]

theorem halfWord_extended (s : State) :
    (halfWord s).setWidth 64 = 0#40 ++ BitVec.ofNat 24 s.ps.half := by
  apply BitVec.eq_of_toNat_eq
  rw [toNat_zero_append, BitVec.toNat_setWidth_of_le (by decide), halfWord, toNat_zero_append]

theorem quarterWord_extended (s : State) :
    (quarterWord s).setWidth 64 = 0#40 ++ BitVec.ofNat 24 s.ps.quarter := by
  apply BitVec.eq_of_toNat_eq
  rw [toNat_zero_append, BitVec.toNat_setWidth_of_le (by decide), quarterWord, toNat_zero_append]

/-! ### The fields of STATUS (R60) -/

theorem statusWord_err (s : State) : (statusWord s).extractLsb' 0 4 = s.err.code :=
  BitVec.extractLsb'_append_eq_right

theorem statusWord_errSrc (s : State) : (statusWord s).extractLsb' 4 3 = s.errSrc.code := by
  apply BitVec.eq_of_getLsbD_eq
  intro i hi
  simp only [BitVec.getLsbD_extractLsb', statusWord, BitVec.getLsbD_append]
  simp [hi]

theorem statusWord_flags (s : State) :
    (statusWord s).getLsbD 7 = false ∧ (statusWord s).getLsbD 8 = s.f1.cfg ∧
      (statusWord s).getLsbD 9 = s.f2.cfg ∧ (statusWord s).getLsbD 10 = s.ps.cfg ∧
      (statusWord s).getLsbD 11 = s.core.cfg ∧ (statusWord s).getLsbD 12 = s.f1.fault ∧
      (statusWord s).getLsbD 13 = s.f2.fault := by
  simp only [statusWord, BitVec.getLsbD_append, BitVec.getLsbD_ofBool]
  simp

theorem statusWord_reserved (s : State) : (statusWord s).extractLsb' 14 18 = 0#18 := by
  apply BitVec.eq_of_getLsbD_eq
  intro i hi
  simp only [BitVec.getLsbD_extractLsb', statusWord, BitVec.getLsbD_append, BitVec.getLsbD_zero]
  iterate 9 rw [if_neg (by omega)]
  simp

/-! ### Access outside CMD (R61) -/

/-- Neither a read nor a host write outside CMD changes ERR or ERRSRC. -/
theorem step_access_status {s t : State} {rest : List Event} {a n : Nat} {d : BitVec 64}
    (hin : s.inputs = .read a n :: rest ∨ (s.inputs = .write a n d :: rest ∧ a ≠ s.params.base))
    (h : step s = .next t) : t.err = s.err ∧ t.errSrc = s.errSrc := by
  rcases hin with hin | ⟨hin, ha⟩ <;> rw [step_of_inputs hin] at h
  · obtain ⟨v, rfl⟩ := busRead_next h
    exact ⟨rfl, rfl⟩
  · rcases busWrite_next h with ⟨h0, -⟩ | ⟨off, -, -, -, -, rfl⟩
    · exact absurd h0 ha
    · rw [windowWrite_same]
      exact ⟨rfl, rfl⟩

/-- R61, R90: a host write to STATUS is ignored. -/
theorem step_write_status {s : State} {rest : List Event} {d : BitVec 64}
    (h : s.inputs = .write (s.params.base + 0x04) 4 d :: rest) :
    step s = .next { s with inputs := rest } := by
  rw [step_of_inputs h]
  exact busWrite_taken (s := { s with inputs := rest }) (by decide) (by decide) (.inl ⟨rfl, rfl⟩)

/-! ### The settled statements -/

/-- Settles O1, field by field of the state after reset. -/
theorem resetHoldsTheValuesOfTheSpec : Obligations.ResetHoldsTheValuesOfTheSpec := by
  refine ⟨rfl, rfl, rfl, rfl, rfl, rfl, fun u => ?_, rfl, rfl, rfl, rfl, rfl, rfl, fun _ => rfl, rfl,
    rfl, rfl⟩
  cases u
  all_goals exact ⟨rfl, rfl, rfl, rfl, rfl, fun _ => ⟨rfl, rfl, rfl, rfl⟩⟩

/-- Settles O5: the invariant is kept by every step, and says it of both units. -/
theorem storageInvariantAfterEveryStep : Obligations.StorageInvariantAfterEveryStep := by
  intro s t hi h u
  have hu := (step_inv hi h).filter u
  exact ⟨fun _ => hu.entry_above, hu.history_finite⟩

/-- Settles O6: the invariant is kept by every step, and says it of the shifter. -/
theorem shifterGeometryAfterEveryStep : Obligations.ShifterGeometryAfterEveryStep :=
  fun _ _ hi h hc => (step_inv hi h).ps.geometry hc

/-- Settles O7, from the effect of each command on the cfg bits. -/
theorem onlyResetClearsCfgBits : Obligations.OnlyResetClearsCfgBits := by
  refine ⟨fun s t hi h hc => ?_, fun s t h1 h2 h => ?_, fun n s t h ok => ?_, fun s t hr h => ?_⟩
  · obtain ⟨hf1, hf2, hps, -⟩ := (step_inv hi h).coreUnits hc
    exact ⟨hps, hf1, hf2⟩
  · obtain ⟨hf, hp, hc⟩ := step_keeps_cfg h1 h2 h
    exact ⟨hf .f1, hf .f2, hp, hc⟩
  · rw [cinit_success h ok]
    exact ⟨rfl, rfl, rfl, rfl⟩
  · obtain ⟨rest, hin⟩ := List.head?_eq_some_iff.1 hr
    rw [step_reset hin] at h
    cases h
    exact ⟨rfl, rfl, rfl, rfl⟩

/-- Settles O15: each row of the list is a register at its offset, with its width and content. -/
theorem readGivesTheRegister : Obligations.ReadGivesTheRegister := by
  intro s rest off n v hmem h
  rw [← capsWord_extended, ← ordersWord_extended, ← halfWord_extended, ← quarterWord_extended] at hmem
  have hrow : (off, n, v) ∈ allRegs.map fun r => (r.offset, r.bytes, r.value s) := hmem
  obtain ⟨r, -, hr⟩ := List.mem_map.1 hrow
  simp only [Prod.mk.injEq] at hr
  obtain ⟨rfl, rfl, rfl⟩ := hr
  exact step_read_register h

/-- Settles O21: the fields of STATUS, and what a host access leaves of it. -/
theorem statusHasTheFieldsOfTheSpec : Obligations.StatusHasTheFieldsOfTheSpec := by
  refine ⟨fun s => ⟨statusWord_err s, statusWord_errSrc s, ?_⟩, rfl, rfl,
    fun _ _ _ _ _ _ hin h => step_access_status hin h, rfl, fun _ _ _ h => step_write_status h⟩
  obtain ⟨h7, h8, h9, h10, h11, h12, h13⟩ := statusWord_flags s
  exact ⟨h7, h8, h9, h10, h11, h12, h13, statusWord_reserved s⟩

/-- Settles O23, from the effect of each command on the flags of each unit. -/
theorem flagsChangeOnlyAsListed : Obligations.FlagsChangeOnlyAsListed := by
  refine ⟨fun i s t h => ?_, fun s rest h => ⟨_, step_reset h, rfl, rfl, fun u => ?_⟩⟩
  · have e := exec_effect h
    refine ⟨fun u hne => (e.filter u).cfg.resolve_left hne, fun hne => e.shifter.cfg.resolve_left hne,
      fun hne => e.core.cfg.resolve_left hne, fun u => (e.filter u).fault_set,
      fun u => (e.filter u).fault_cleared, ?_, ?_, ?_, ?_, ?_, e.instability⟩
    · rintro u n rfl ok
      rw [fcfg_success h ok]
      exact ⟨rfl, rfl⟩
    · rintro u n rfl ok
      rw [fsetord_success h ok]
      rfl
    · rintro n rfl ok
      rw [pcfg_success h ok]
      rfl
    · rintro n rfl ok
      rw [cinit_success h ok]
      exact ⟨rfl, rfl, fun u => by simp⟩
    · rintro n rfl ok u
      rw [csetord_success h ok]
      rfl
  · cases u <;> exact ⟨rfl, rfl⟩

end Sys2Proof.Machine
end

section
/-! SUPPORT. The register window as the host writes it (20_memory.md): which content a write changes and
which it leaves, and that no command changes an operand. The settled statements follow. -/

namespace Sys2Proof.Machine

/-! ### What no command changes -/

/-- What any demodulation leaves as it was: the operands, the parameters and the agents around it. -/
theorem demodulate_frame {r m : F64} {s t : State} (h : demodulate r m s = .next t) :
    t = { s with res0 := t.res0, res1 := t.res1, err := t.err, errSrc := t.errSrc,
                 f1 := t.f1, f2 := t.f2, ps := t.ps } := by
  rcases demodulate_next h with ⟨f1, -, rfl⟩ | ⟨f1, x, f2, -, -, rfl⟩ | ⟨f1, x, f2, y, -, -, rfl⟩
  all_goals rfl

/-- R41, R42: no command changes an ARG register, the parameters, or what the host has issued and read. -/
theorem exec_frame {i : Instr} {s t : State} (h : exec i s = .next t) :
    t = { s with res0 := t.res0, res1 := t.res1, err := t.err, errSrc := t.errSrc, f1 := t.f1,
                 f2 := t.f2, ps := t.ps, core := t.core, ref := t.ref, med := t.med } := by
  cases i with
  | fcfg u n => rcases execFcfg_next h with ⟨-, rfl⟩ | rfl <;> cases u <;> rfl
  | fsetfs u => rcases execFsetfs_next h with rfl | ⟨-, -, rfl⟩ | rfl <;> cases u <;> rfl
  | fsetfc u => rcases execFsetfc_next h with rfl | ⟨-, -, rfl⟩ | rfl <;> cases u <;> rfl
  | fsetord u n => rcases execFsetord_next h with rfl | ⟨-, -, rfl⟩ | rfl <;> cases u <;> rfl
  | ffilt u =>
    rcases execFfilt_next h with rfl | ⟨-, f, y, -, rfl⟩ | ⟨-, f, -, rfl⟩ <;> cases u <;> rfl
  | pcfg fl => rcases execPcfg_next h with ⟨-, rfl⟩ | rfl <;> rfl
  | psetfs => rcases execPsetfs_next h with rfl | ⟨-, -, rfl⟩ | rfl <;> rfl
  | psetfr => rcases execPsetfr_next h with rfl | ⟨-, -, rfl⟩ | rfl <;> rfl
  | pshift => rcases execPshift_next h with rfl | ⟨-, rfl⟩ <;> rfl
  | cinit n => rcases execCinit_next h with ⟨src, -, rfl⟩ | ⟨-, -, -, rfl⟩ <;> rfl
  | csetfs => rcases execCsetfs_next h with rfl | ⟨src, -, rfl⟩ | ⟨-, -, -, -, rfl⟩ <;> rfl
  | csetfr => rcases execCsetfr_next h with rfl | ⟨src, -, rfl⟩ | ⟨-, -, -, -, rfl⟩ <;> rfl
  | csetord n => rcases execCsetord_next h with rfl | ⟨src, -, rfl⟩ | ⟨-, -, -, rfl⟩ <;> rfl
  | cconn => rcases execCconn_next h with rfl | ⟨-, c, d, rfl | rfl | rfl⟩ <;> rfl
  | cacq => rcases execCacq_next h with rfl | ⟨-, c, d, ⟨r, m, -, rfl⟩ | rfl | rfl⟩ <;> rfl
  | cdemod =>
    rcases execCdemod_next h with rfl | ⟨-, h⟩
    · rfl
    · rw [demodulate_frame h]
  | cstep =>
    rcases execCstep_next h with rfl | ⟨-, c, d, ⟨r, m, -, h⟩ | rfl | rfl⟩
    · rfl
    · rw [demodulate_frame h]; rfl
    · rfl
    · rfl

/-- R86: a command reads its operands from ARG and leaves them there. -/
theorem exec_args {i : Instr} {s t : State} (h : exec i s = .next t) :
    t.arg0 = s.arg0 ∧ t.arg1 = s.arg1 ∧ t.arg2 = s.arg2 := by
  rw [exec_frame h]
  exact ⟨rfl, rfl, rfl⟩

/-! ### What a host write changes (R82, R86, R89, R90) -/

/-- Below ARG[0] and above ARG[2] a write outside CMD is ignored. -/
theorem windowWrite_outside_arg {s : State} {off n : Nat} {d : BitVec 64}
    (h : off < 0x08 ∨ 0x20 ≤ off) : windowWrite s off n d = s := by
  rcases windowWrite_cases s off n d with ⟨v, h1, h2, -⟩ | ⟨v, h1, h2, -⟩ | ⟨v, h1, h2, -⟩ | h0
  · omega
  · omega
  · omega
  · exact h0

/-- The registers of the ARG range. -/
theorem arg_of_regAt {off : Nat} {r : Reg} (hr : regAt off = some r) (h1 : 0x08 ≤ off)
    (h2 : off < 0x20) : r = .arg0 ∨ r = .arg1 ∨ r = .arg2 := by
  have hoff := regAt_some hr
  cases r
  case arg0 => exact .inl rfl
  case arg1 => exact .inr (.inl rfl)
  case arg2 => exact .inr (.inr rfl)
  all_goals simp only [Reg.offset, Reg.bytes] at hoff; omega

/-- The register an offset of the ARG range belongs to takes the data in the part the write names. -/
theorem windowWrite_value_same {s : State} {off n : Nat} {d : BitVec 64} {r : Reg}
    (hr : regAt off = some r) (h1 : 0x08 ≤ off) (h2 : off < 0x20) :
    r.value (windowWrite s off n d) = writePart (r.value s) (off - r.offset) n d := by
  rcases arg_of_regAt hr h1 h2 with rfl | rfl | rfl
  all_goals simp [windowWrite, hr, Reg.value]

/-- A register that the written offset does not belong to keeps its content. -/
theorem windowWrite_value_other {s : State} {off n : Nat} {d : BitVec 64} {r : Reg}
    (hr : regAt off ≠ some r) : r.value (windowWrite s off n d) = r.value s := by
  unfold windowWrite
  split
  case h_1 hq => cases r with | arg0 => exact absurd hq hr | _ => rfl
  case h_2 hq => cases r with | arg1 => exact absurd hq hr | _ => rfl
  case h_3 hq => cases r with | arg2 => exact absurd hq hr | _ => rfl
  case h_4 => rfl

/-- A 4-byte write to the low half leaves the high half. -/
theorem getLsbD_writePart_low {v : F64} {d : BitVec 64} {i : Nat} (h : 32 ≤ i) :
    (writePart v 0 4 d).getLsbD i = v.getLsbD i := by
  have append := BitVec.getLsbD_append (x := v.extractLsb' 32 32) (y := d.extractLsb' 0 32) (i := i)
  refine append.trans ?_
  rw [if_neg (by omega), BitVec.getLsbD_extractLsb', show 32 + (i - 32) = i by omega]
  by_cases h64 : i < 64
  · simp [show i - 32 < 32 by omega]
  · simp [BitVec.getLsbD_of_ge v i (by omega)]

/-- A 4-byte write to the high half leaves the low half. -/
theorem getLsbD_writePart_high {v : F64} {d : BitVec 64} {k i : Nat} (hk : k ≠ 0) (h : i < 32) :
    (writePart v k 4 d).getLsbD i = v.getLsbD i := by
  have append := BitVec.getLsbD_append (x := d.extractLsb' 0 32) (y := v.extractLsb' 0 32) (i := i)
  rw [writePart, if_neg (by decide), if_neg hk]
  refine append.trans ?_
  simp [h]

/-- Byte `j` of an ARG register keeps its content under a write that does not name it (R82, R86). -/
theorem writePart_other_byte {v : F64} {d : BitVec 64} {k n j : Nat} (hj : j < 8)
    (hn : n = 4 ∧ k % 4 = 0 ∨ n = 8 ∧ k = 0) (hk : k < 8) (h : j < k ∨ k + n ≤ j) :
    (writePart v k n d >>> (8 * j)).setWidth 8 = (v >>> (8 * j)).setWidth 8 := by
  apply BitVec.eq_of_getLsbD_eq
  intro i hi
  simp only [BitVec.getLsbD_setWidth, BitVec.getLsbD_ushiftRight]
  obtain ⟨rfl, hk4⟩ : n = 4 ∧ k % 4 = 0 := by omega
  obtain rfl | hk0 := Nat.eq_zero_or_pos k
  · rw [getLsbD_writePart_low (by omega)]
  · rw [getLsbD_writePart_high (by omega) (by omega)]

/-- R86: a write that the window takes leaves every byte of the window but those it names. -/
theorem windowByte_windowWrite_other {s : State} {off n a : Nat} {d : BitVec 64}
    (h1 : 0x08 ≤ off) (h2 : off < 0x20) (htk : takenAccess off n) (ha : a < off ∨ off + n ≤ a) :
    windowByte (windowWrite s off n d) a = windowByte s a := by
  unfold windowByte windowBits
  cases hra : regAt a with
  | none => rfl
  | some r =>
    by_cases hr : regAt off = some r
    · have hoff := regAt_some hr
      have hin := regAt_some hra
      have arg : r.bytes = 8 ∧ r.offset % 8 = 0 := by
        rcases arg_of_regAt hr h1 h2 with rfl | rfl | rfl <;> exact ⟨rfl, rfl⟩
      simp only [takenAccess] at htk
      simp only [windowWrite_value_same hr h1 h2]
      exact writePart_other_byte (by omega) (by omega) (by omega) (by omega)
    · simp only [windowWrite_value_other hr]

/-! ### Host accesses as steps -/

@[simp] theorem windowByte_inputs (s : State) (l : List Event) (a : Nat) :
    windowByte { s with inputs := l } a = windowByte s a := by
  unfold windowByte windowBits
  cases regAt a with
  | none => rfl
  | some r => cases r <;> rfl

/-- A host write outside CMD that the window takes. -/
theorem step_write_taken {s : State} {rest : List Event} {off n : Nat} {d : BitVec 64}
    (h : s.inputs = .write (s.params.base + off) n d :: rest) (htk : takenAccess off n)
    (h4 : 4 ≤ off) (ho : off < 256) :
    step s = .next (windowWrite { s with inputs := rest } off n d) := by
  rw [step_of_inputs h]
  exact busWrite_taken (s := { s with inputs := rest }) ho h4 htk

/-- A host write outside CMD completes only where the window takes it. -/
theorem step_write_next {s t : State} {rest : List Event} {off n : Nat} {d : BitVec 64}
    (h : s.inputs = .write (s.params.base + off) n d :: rest) (h4 : 4 ≤ off)
    (hs : step s = .next t) :
    takenAccess off n ∧ t = windowWrite { s with inputs := rest } off n d := by
  rw [step_of_inputs h] at hs
  rcases busWrite_next hs with ⟨h0, -⟩ | ⟨off', h0, -, -, htk, ht⟩
  · have h0 : s.params.base + off = s.params.base := h0
    omega
  · obtain rfl : off = off' := Nat.add_left_cancel h0
    exact ⟨htk, ht⟩

/-- R86: a step that is no reset and no host write to ARG keeps the ARG registers. -/
theorem step_keeps_args {s t : State} (h1 : s.inputs.head? ≠ some .reset)
    (h2 : ∀ w, s.inputs.head? ≠ some (.commandReset w))
    (h3 : ∀ off n d, 0x08 ≤ off → off < 0x20 →
      s.inputs.head? ≠ some (.write (s.params.base + off) n d))
    (h : step s = .next t) : t.arg0 = s.arg0 ∧ t.arg1 = s.arg1 ∧ t.arg2 = s.arg2 := by
  rcases step_next h with ⟨-, rfl⟩ | ⟨e, rest, s', hin, rfl,
    ⟨-, he⟩ | ⟨a, n, v, -, rfl⟩ | ⟨w, d, -, -, ⟨i, -, hx⟩ | ⟨-, rfl⟩⟩ |
    ⟨off, n, d, rfl, -, -, -, rfl⟩⟩
  · exact ⟨rfl, rfl, rfl⟩
  · rw [hin] at h1 h2
    rcases he with rfl | ⟨w, rfl⟩
    · exact absurd rfl h1
    · exact absurd rfl (h2 w)
  · exact ⟨rfl, rfl, rfl⟩
  · obtain ⟨h0, h1, h2⟩ := exec_args hx
    exact ⟨h0, h1, h2⟩
  · exact ⟨rfl, rfl, rfl⟩
  · have hout : off < 0x08 ∨ 0x20 ≤ off := by
      by_contra hc
      exact h3 off n d (by omega) (by omega) (by rw [hin]; rfl)
    rw [windowWrite_outside_arg hout]
    exact ⟨rfl, rfl, rfl⟩

/-- R89: reserved space reads as zero. -/
theorem windowRead_reserved {s : State} {off n : Nat} (h : (0x34 ≤ off ∧ off < 0x40) ∨ 0x84 ≤ off) :
    windowRead s off n = 0#64 := by
  simp [windowRead, windowBits, regAt_reserved h]

/-! ### The settled statements -/

/-- Settles O19: the nine writes by evaluation of the window's map, the frame of each write by the bytes
it names, and every other step because no command changes ARG. -/
theorem onlyHostWritesChangeArg : Obligations.OnlyHostWritesChangeArg := by
  refine ⟨fun s rest d => ⟨?_, ?_, ?_, ?_, ?_, ?_, ?_, ?_, ?_⟩,
    fun s t rest off n d h1 h2 hin h a ha => ?_, fun s t h1 h2 h3 h => step_keeps_args h1 h2 h3 h⟩
  case refine_10 =>
    obtain ⟨htk, rfl⟩ := step_write_next hin (by omega) h
    rw [windowByte_windowWrite_other h1 h2 htk ha, windowByte_inputs]
  all_goals
    intro h
    rw [step_write_taken h (by simp [takenAccess]) (by decide) (by decide)]
    rfl

/-- Settles O20: a write outside ARG changes nothing, and no register stands in reserved space. -/
theorem readOnlyAndReservedIgnoreWrites : Obligations.ReadOnlyAndReservedIgnoreWrites := by
  refine ⟨fun s rest off n d htk hoff h => ?_, fun s rest off n htk hoff h => ?_⟩
  · rw [step_write_taken h htk (by omega) (by omega), windowWrite_outside_arg (by omega)]
  · rw [step_of_inputs h]
    refine (busRead_taken (s := { s with inputs := rest }) (by omega) htk).trans ?_
    rw [windowRead_reserved (by omega)]

end Sys2Proof.Machine
end

section
/-! SUPPORT. The opcode map as fields of a word (30_encoding.md): a word matches a row exactly when it has
the row's opcode and its fields are legal for that opcode, so at most one row matches, and the illegal
words are the rest. The settled statements follow. -/

namespace Sys2Proof

/-! ### The formats of the opcodes (R121) -/

/-- The opcodes whose format has a unit field: UI and U. -/
def unitOpcodes : List (BitVec 8) := [0x10#8, 0x11#8, 0x12#8, 0x13#8, 0x14#8]

/-- The opcodes whose format has an immediate: UI and I. -/
def immediateOpcodes : List (BitVec 8) := [0x10#8, 0x13#8, 0x20#8, 0x30#8, 0x33#8]

/-- The bits that the format of an opcode fixes. -/
def formatMask (o : BitVec 8) : Word :=
  (if o ∈ immediateOpcodes then 0#8 else 0xFF#8) ++ 0x7FFF#15 ++
    (if o ∈ unitOpcodes then 0#1 else 1#1) ++ 0xFF#8

/-- RSV is zero, and so is each operand field that the opcode's format does not have (R121). -/
def LegalFields (w : Word) : Prop :=
  rsvOf w = 0#15 ∧ (opcOf w ∉ unitOpcodes → unitOf w = .f1) ∧
    (opcOf w ∉ immediateOpcodes → immOf w = 0)

theorem unitOf_f1_iff (w : Word) : unitOf w = .f1 ↔ ¬ w.getLsbD 8 = true := by
  rw [← unitOf_f2_iff]
  cases unitOf w <;> decide

/-- A word agrees with an opcode in the bits of its format: one case per format. -/
theorem and_formatMask_iff (w : Word) (o : BitVec 8) :
    w &&& formatMask o = 0#24 ++ o ↔ opcOf w = o ∧ LegalFields w := by
  have fields : opcOf w = o ∧ LegalFields w ↔ opcOf w = o ∧ rsvOf w = 0#15 ∧
      (o ∉ unitOpcodes → unitOf w = .f1) ∧ (o ∉ immediateOpcodes → immOf w = 0) :=
    and_congr_right fun ho => by rw [LegalFields, ho]
  rw [fields, formatMask]
  by_cases hi : o ∈ immediateOpcodes <;> by_cases hu : o ∈ unitOpcodes
  · rw [if_pos hi, if_pos hu]
    exact (match_ui w o).trans (by tauto)
  · rw [if_pos hi, if_neg hu]
    exact (match_i w o).trans (by tauto)
  · rw [if_neg hi, if_pos hu]
    exact (match_u w o).trans (by tauto)
  · rw [if_neg hi, if_neg hu]
    exact (match_z w o).trans (by tauto)

/-! ### Matching a row of the opcode map (R125) -/

/-- Each row has the mask of its opcode's format, and a pattern that is its opcode alone. -/
theorem opcodeTable_format : ∀ r ∈ opcodeTable,
    r.mask = formatMask (opcOf r.pattern) ∧ r.pattern = 0#24 ++ opcOf r.pattern := by
  decide

theorem match_row_iff {r : OpcodeRow} (hr : r ∈ opcodeTable) (w : Word) :
    w &&& r.mask = r.pattern ↔ opcOf w = opcOf r.pattern ∧ LegalFields w := by
  obtain ⟨hmask, hpattern⟩ := opcodeTable_format r hr
  rw [← and_formatMask_iff, ← hmask, ← hpattern]

/-- R125: no two rows match the same word, since each has an opcode of its own. -/
theorem match_row_unique {r r' : OpcodeRow} {w : Word} (hr : r ∈ opcodeTable) (hr' : r' ∈ opcodeTable)
    (h : w &&& r.mask = r.pattern) (h' : w &&& r'.mask = r'.pattern) : r' = r := by
  have distinct : (opcodeTable.map fun r => opcOf r.pattern).Nodup := by decide
  obtain ⟨ho, -⟩ := (match_row_iff hr w).1 h
  obtain ⟨ho', -⟩ := (match_row_iff hr' w).1 h'
  exact List.inj_on_of_nodup_map distinct hr' hr (ho'.symm.trans ho)

theorem exists_match_iff (w : Word) :
    (∃ r ∈ opcodeTable, w &&& r.mask = r.pattern) ↔
      opcOf w ∈ opcodeTable.map (fun r => opcOf r.pattern) ∧ LegalFields w := by
  rw [List.mem_map]
  constructor
  · rintro ⟨r, hr, h⟩
    obtain ⟨ho, hl⟩ := (match_row_iff hr w).1 h
    exact ⟨⟨r, hr, ho.symm⟩, hl⟩
  · rintro ⟨⟨r, hr, ho⟩, hl⟩
    exact ⟨r, hr, (match_row_iff hr w).2 ⟨ho.symm, hl⟩⟩

/-! ### What the decoder answers (R126, R127) -/

theorem matchesWord_iff (r : OpcodeRow) (w : Word) :
    r.matchesWord w = true ↔ w &&& r.mask = r.pattern := beq_iff_eq

/-- A word decodes to a command exactly when a row matches it and makes that command of its fields. -/
theorem decodeWord_ok_iff (w : Word) (i : Instr) :
    decodeWord w = .ok i ↔ ∃ r ∈ opcodeTable, w &&& r.mask = r.pattern ∧
      i = r.build (unitOf w) (immOf w) := by
  unfold decodeWord
  cases hf : opcodeTable.find? fun r => r.matchesWord w with
  | none =>
    have none_matches := List.find?_eq_none.1 hf
    simp only [reduceCtorEq, false_iff]
    rintro ⟨r, hr, h, -⟩
    exact none_matches r hr ((matchesWord_iff r w).2 h)
  | some r =>
    have hr := List.mem_of_find?_eq_some hf
    have found := List.find?_some hf
    have h := (matchesWord_iff r w).1 found
    simp only [Except.ok.injEq]
    constructor
    · rintro rfl
      exact ⟨r, hr, h, rfl⟩
    · rintro ⟨r', hr', h', rfl⟩
      rw [match_row_unique hr hr' h h']

theorem decodeWord_error_iff (w : Word) :
    (∃ e, decodeWord w = .error e) ↔ ∀ r ∈ opcodeTable, w &&& r.mask ≠ r.pattern := by
  constructor
  · rintro ⟨e, he⟩ r hr h
    cases he.symm.trans ((decodeWord_ok_iff w _).2 ⟨r, hr, h, rfl⟩)
  · intro none_matches
    cases hd : decodeWord w with
    | error e => exact ⟨e, rfl⟩
    | ok i =>
      obtain ⟨r, hr, h, -⟩ := (decodeWord_ok_iff w i).1 hd
      exact absurd h (none_matches r hr)

/-- R127: the four cases of an illegal word, by opcode and fields. -/
theorem decodeWord_error_cases (w : Word) :
    (∃ e, decodeWord w = .error e) ↔
      opcOf w ∉ opcodeTable.map (fun r => opcOf r.pattern) ∨ rsvOf w ≠ 0#15 ∨
      (opcOf w ∉ unitOpcodes ∧ w.getLsbD 8 = true) ∨ (opcOf w ∉ immediateOpcodes ∧ immOf w ≠ 0) := by
  have unmatched := (exists_match_iff w).not
  push Not at unmatched
  rw [decodeWord_error_iff, unmatched, LegalFields, unitOf_f1_iff]
  tauto

end Sys2Proof

namespace Sys2Proof.Machine

/-- R85: a 4-byte host write of a word to CMD is a step that runs the word. -/
theorem step_write_cmd {s : State} {rest : List Event} {w : Word}
    (h : s.inputs = .write s.params.base 4 (w.setWidth 64) :: rest) :
    step s = runCommand w { s with inputs := rest } := by
  rw [step_of_inputs h]
  refine (busWrite_cmd (s := { s with inputs := rest })).trans ?_
  rw [BitVec.setWidth_setWidth_of_le w (by decide), BitVec.setWidth_eq]

/-! ### The settled statements -/

/-- Settles O10: the table by evaluation, the decoder by the row that matches, and uniqueness because the
rows' opcodes differ. -/
theorem matchingRowIsTheOnlyOne : Obligations.MatchingRowIsTheOnlyOne :=
  ⟨rfl, fun _ _ => rfl, fun w => ⟨decodeWord_ok_iff w, fun _ hr _ hr' h h' =>
    congrArg OpcodeRow.mnemonic (match_row_unique hr hr' h h')⟩⟩

/-- Settles O11: a word that no row matches has a wrong opcode or an illegal field, and its command only
reports the error. -/
theorem illegalWordsAreTheFourCases : Obligations.IllegalWordsAreTheFourCases := by
  refine fun w => ⟨decodeWord_error_cases w, fun s rest h he => ?_⟩
  obtain ⟨e, he⟩ := he
  rw [step_write_cmd h, runCommand_error he]
  rfl

/-- Settles O12: the listed commands by decoding their words, and each illegal example by the case of R127
it is an example of. -/
theorem exampleWordsDecodeAsListed : Obligations.ExampleWordsDecodeAsListed := by
  unfold Obligations.ExampleWordsDecodeAsListed
  iterate 19 refine ⟨by decide, ?_⟩
  intro w hw
  rw [decodeWord_error_cases]
  simp only [List.mem_cons, List.not_mem_nil, or_false] at hw
  obtain rfl | rfl | rfl | rfl | rfl := hw
  · left; decide
  · right; right; left; decide
  · right; right; right; decide
  · right; left; decide
  · left; decide

end Sys2Proof.Machine
end

section
/-! SUPPORT. The filter commands as equations (41_iir_filter.md): the checks of each in their order and the
unit it leaves, and a recursion over zeros. The settled statements follow. -/

namespace Sys2Proof.Machine

/-! ### Commands that set a parameter of a configured unit (R221 to R223) -/

/-- The end of such a command: `cfg` is asked first, then whether the new parameters are `valid`; only then
is the state `t`. -/
def checkedEnd (cfg valid : Bool) (src : ErrSrc) (s t : State) : Result :=
  if cfg = false then raise .notConfigured src s
  else if valid then complete t
  else raise .invalidParameter src s

theorem checkedEnd_notConfigured {cfg valid : Bool} {src : ErrSrc} {s t : State} (hc : cfg = false) :
    checkedEnd cfg valid src s t = .next { s with err := .notConfigured, errSrc := src } :=
  if_pos hc

theorem checkedEnd_invalid {cfg valid : Bool} {src : ErrSrc} {s t : State} (hc : cfg = true)
    (hv : valid = false) :
    checkedEnd cfg valid src s t = .next { s with err := .invalidParameter, errSrc := src } := by
  rw [hc, hv]; rfl

theorem checkedEnd_valid {cfg valid : Bool} {src : ErrSrc} {s t : State} (hc : cfg = true)
    (hv : valid = true) :
    checkedEnd cfg valid src s t = .next { t with err := .none, errSrc := .none } := by
  rw [hc, hv]; rfl

section commands
variable (u : FilterUnit) (n : Nat) (s : State)

theorem exec_fsetfs : exec (.fsetfs u) s =
    checkedEnd (s.filter u).cfg (filterValid s.params (s.filter u).order (s.filter u).fc s.arg0)
      (unitSrc u) s (s.setFilter u (loadCoeffs s.params { s.filter u with fs := s.arg0 })) := rfl

theorem exec_fsetfc : exec (.fsetfc u) s =
    checkedEnd (s.filter u).cfg (filterValid s.params (s.filter u).order s.arg0 (s.filter u).fs)
      (unitSrc u) s (s.setFilter u (loadCoeffs s.params { s.filter u with fc := s.arg0 })) := rfl

theorem exec_fsetord : exec (.fsetord u n) s =
    checkedEnd (s.filter u).cfg (filterValid s.params n (s.filter u).fc (s.filter u).fs)
      (unitSrc u) s (s.setFilter u (reorderedFilter s.params n (s.filter u))) := rfl

end commands

/-! ### FCFG (R220) -/

section fcfg
variable {u : FilterUnit} {n : Nat} {s : State}

theorem exec_fcfg_valid (hv : filterValid s.params n s.arg0 s.arg1 = true) :
    exec (.fcfg u n) s = .next
      { s.setFilter u (configuredFilter s.params n s.arg0 s.arg1 (s.filter u)) with
        err := .none, errSrc := .none } :=
  if_pos hv

theorem exec_fcfg_invalid (hv : filterValid s.params n s.arg0 s.arg1 = false) :
    exec (.fcfg u n) s = .next { s with err := .invalidParameter, errSrc := unitSrc u } :=
  if_neg (by simp [hv])

end fcfg

/-! ### FFILT (R224) -/

section ffilt
variable {u : FilterUnit} {s : State}

theorem exec_ffilt_notConfigured (hc : (s.filter u).cfg = false) :
    exec (.ffilt u) s = .next { s with err := .notConfigured, errSrc := unitSrc u } :=
  if_pos hc

theorem exec_ffilt_of_some {f : Filter} {y : F64} (hc : (s.filter u).cfg = true)
    (h : filterStep (s.filter u) s.arg0 = (f, some y)) :
    exec (.ffilt u) s =
      .next { s.setFilter u f with res0 := y, err := .none, errSrc := .none } := by
  simp [exec, execFfilt, hc, h, complete_eq]

theorem exec_ffilt_of_none {f : Filter} (hc : (s.filter u).cfg = true)
    (h : filterStep (s.filter u) s.arg0 = (f, none)) :
    exec (.ffilt u) s =
      .next { s.setFilter u f with err := .numericalInstability, errSrc := unitSrc u } := by
  simp [exec, execFfilt, hc, h, raise_eq]

/-- R213, R214: a faulted unit or a non-finite recursion leaves the unit faulted. -/
theorem exec_ffilt_raises (hc : (s.filter u).cfg = true)
    (h : (s.filter u).fault = true ∨ isFinite (recursionOutput (s.filter u) s.arg0) = false) :
    exec (.ffilt u) s = .next { s.setFilter u { s.filter u with fault := true } with
      err := .numericalInstability, errSrc := unitSrc u } :=
  exec_ffilt_of_none hc (filterStep_raises h)

/-- R212: a finite recursion of a healthy unit is committed and returned. -/
theorem exec_ffilt_completes (hc : (s.filter u).cfg = true) (hf : (s.filter u).fault = false)
    (hy : isFinite (recursionOutput (s.filter u) s.arg0) = true) :
    exec (.ffilt u) s = .next { s.setFilter u
      (advanced (s.filter u) s.arg0 (recursionOutput (s.filter u) s.arg0)) with
        res0 := recursionOutput (s.filter u) s.arg0, err := .none, errSrc := .none } :=
  exec_ffilt_of_some hc (filterStep_completes hf hy)

end ffilt

/-! ### The recursion over zeros (R230) -/

theorem entry_isZero {l : List F64} (h : ∀ v ∈ l, isZero v = true) (i : Nat) :
    isZero (entry l i) = true := by
  rcases entry_mem_or_zero l i with hm | h0
  · exact h _ hm
  · rw [h0, posZero_isZero]

theorem bSum_isZero {b xn : List F64} {n k : Nat} (hb : ∀ i ≤ k, isFinite (entry b i) = true)
    (hx : ∀ v ∈ xn, isZero v = true) : isZero (bSum b xn n k) = true := by
  induction k with
  | zero => exact mul64_isZero_right (hb 0 le_rfl) (entry_isZero hx _)
  | succ k ih =>
    exact add64_isZero (ih fun i hi => hb i (by omega))
      (mul64_isZero_right (hb (k + 1) le_rfl) (entry_isZero hx _))

/-- The sum reads a[1] to a[k + 1] only (R210). -/
theorem aSum_isZero {a yh : List F64} {n k : Nat} (ha : ∀ i ≤ k + 1, isFinite (entry a i) = true)
    (hy : ∀ v ∈ yh, isZero v = true) : isZero (aSum a yh n k) = true := by
  induction k with
  | zero => exact mul64_isZero_right (ha 1 le_rfl) (entry_isZero hy _)
  | succ k ih =>
    exact add64_isZero (ih fun i hi => ha i (by omega))
      (mul64_isZero_right (ha (k + 2) le_rfl) (entry_isZero hy _))

/-- A step on a zero, from a history of zeros and with finite coefficients, outputs a zero. -/
theorem recursionOutput_isZero {f : Filter} {x : F64} (ho : 1 ≤ f.order) (hc : finiteCoeffs f)
    (hz : zeroHistory f) (hx : isZero x = true) : isZero (recursionOutput f x) = true := by
  obtain ⟨hxh, hyh⟩ := hz
  rw [← filterOutput_eq_recursion]
  refine sub64_isZero (bSum_isZero (fun i hi => (hc i hi).1) (forall_slide hxh posZero_isZero hx))
    (aSum_isZero (fun i hi => (hc i ?_).2) hyh)
  omega

theorem advanced_zeroHistory {f : Filter} {x y : F64} (hz : zeroHistory f) (hx : isZero x = true)
    (hy : isZero y = true) : zeroHistory (advanced f x y) := by
  obtain ⟨hxh, hyh⟩ := hz
  rw [← commitStep_eq_advanced]
  exact ⟨forall_slide hxh posZero_isZero hx, forall_slide hyh posZero_isZero hy⟩

theorem isZero_of_mem_zeros {n : Nat} {v : F64} (h : v ∈ zeros n) : isZero v = true := by
  rw [mem_zeros h, posZero_isZero]

theorem zeroHistory_of_zeros {f : Filter} {n : Nat} (hx : f.xh = zeros n) (hy : f.yh = zeros n) :
    zeroHistory f := by
  rw [zeroHistory, hx, hy]
  exact ⟨fun _ => isZero_of_mem_zeros, fun _ => isZero_of_mem_zeros⟩

/-! ### Runs of FFILT on zeros (R230) -/

/-- A healthy unit with finite coefficients that holds only zeros: what a run on zeros keeps. -/
structure SilentFilter (f : Filter) : Prop where
  cfg : f.cfg = true
  healthy : f.fault = false
  order : 1 ≤ f.order
  coeffs : finiteCoeffs f
  history : zeroHistory f

theorem SilentFilter.advanced {f : Filter} {x y : F64} (hf : SilentFilter f) (hx : isZero x = true)
    (hy : isZero y = true) : SilentFilter (advanced f x y) where
  cfg := hf.cfg
  healthy := hf.healthy
  order := hf.order
  coeffs := hf.coeffs
  history := advanced_zeroHistory hf.history hx hy

theorem filter_withArg0 (s : State) (x : F64) (u : FilterUnit) :
    State.filter { s with arg0 := x } u = s.filter u := by
  cases u <;> rfl

/-- FFILT on a zero completes with a zero and leaves the unit silent. -/
theorem exec_ffilt_silent {u : FilterUnit} {s : State} (hf : SilentFilter (s.filter u))
    (hx : isZero s.arg0 = true) :
    ∃ t, exec (.ffilt u) s = .next t ∧ t.err = .none ∧ isZero t.res0 = true ∧
      SilentFilter (t.filter u) := by
  have hy := recursionOutput_isZero hf.order hf.coeffs hf.history hx
  refine ⟨_, exec_ffilt_completes hf.cfg hf.healthy (isZero_finite hy), rfl, hy, ?_⟩
  have hnow := hf.advanced hx hy
  cases u <;> exact hnow

theorem ffiltRun_cons {u : FilterUnit} {s t t' : State} {x : F64} {xs ys : List F64}
    (h : exec (.ffilt u) { s with arg0 := x } = .next t) (ok : t.err = .none)
    (hrun : ffiltRun u t xs = some (t', ys)) :
    ffiltRun u s (x :: xs) = some (t', t.res0 :: ys) := by
  simp [ffiltRun, h, ok, hrun]

/-- A run on zeros completes, outputs zeros and leaves the unit silent. -/
theorem ffiltRun_silent {u : FilterUnit} {s : State} {xs : List F64} (hf : SilentFilter (s.filter u))
    (hx : ∀ x ∈ xs, isZero x = true) :
    ∃ t ys, ffiltRun u s xs = some (t, ys) ∧ (∀ y ∈ ys, isZero y = true) ∧
      SilentFilter (t.filter u) := by
  induction xs generalizing s with
  | nil => exact ⟨s, [], rfl, by simp, hf⟩
  | cons x xs ih =>
    rw [List.forall_mem_cons] at hx
    obtain ⟨t, hstep, ok, hy, ht⟩ := exec_ffilt_silent (s := { s with arg0 := x })
      (by rwa [filter_withArg0]) hx.1
    obtain ⟨t', ys, hrun, hys, ht'⟩ := ih ht hx.2
    exact ⟨t', t.res0 :: ys, ffiltRun_cons hstep ok hrun, List.forall_mem_cons.2 ⟨hy, hys⟩, ht'⟩

/-! ### The settled statements -/

/-- Settles O26: the unit of R220 is the configured filter, field by field. -/
theorem fcfgConfiguresTheUnit : Obligations.FcfgConfiguresTheUnit := by
  refine fun u n s => ⟨fun hv => ?_, exec_fcfg_invalid⟩
  rw [exec_fcfg_valid hv, configuredFilter_eq]

/-- Settles O27, by the three ends of a checked command. -/
theorem fsetfsReloadsTheCoefficients : Obligations.FsetfsReloadsTheCoefficients := by
  intro u s
  rw [exec_fsetfs]
  exact ⟨checkedEnd_notConfigured, checkedEnd_invalid, checkedEnd_valid⟩

/-- Settles O28, by the three ends of a checked command. -/
theorem fsetfcReloadsTheCoefficients : Obligations.FsetfcReloadsTheCoefficients := by
  intro u s
  rw [exec_fsetfc]
  exact ⟨checkedEnd_notConfigured, checkedEnd_invalid, checkedEnd_valid⟩

/-- Settles O29, by the three ends of a checked command and the fields of the reordered unit. -/
theorem fsetordResetsTheHistories : Obligations.FsetordResetsTheHistories := by
  intro u n s
  rw [exec_fsetord, reorderedFilter_eq]
  exact ⟨checkedEnd_notConfigured, checkedEnd_invalid, checkedEnd_valid⟩

/-- Settles O30, by the ends of FFILT. -/
theorem ffiltAppliesTheRecursion : Obligations.FfiltAppliesTheRecursion :=
  fun _ _ => ⟨exec_ffilt_notConfigured, exec_ffilt_raises, exec_ffilt_completes⟩

/-- Settles O47: a unit that starts with zero histories is silent, and a run on zeros keeps it so. -/
theorem zeroInputsGiveZeroOutputs : Obligations.ZeroInputsGiveZeroOutputs := by
  intro u s xs hc hf ho hcoeffs hxh hyh hx
  obtain ⟨t, ys, hrun, hys, ht⟩ :=
    ffiltRun_silent ⟨hc, hf, ho, hcoeffs, zeroHistory_of_zeros hxh hyh⟩ hx
  exact ⟨t, ys, hrun, hys, ht.healthy⟩

end Sys2Proof.Machine
end

section
/-! SUPPORT. The shifter commands as equations (42_phase_shifter.md): the shifter that a frequency of the
same real value leaves, and another one, and the ends of each command. The settled statements follow. -/

namespace Sys2Proof.Machine

/-! ### A frequency of the same real value, and another one (R266, R267) -/

section frequency
variable {p : Shifter} {v : F64}

theorem shifterWithFs_same (h : real v = real p.fs) : shifterWithFs v p = p := if_pos h

theorem shifterWithFs_other (h : real v ≠ real p.fs) :
    shifterWithFs v p = { p with fs := v, half := halfOf v p.fr, quarter := quarterOf v p.fr,
                                 buf := zeros (halfOf v p.fr) } :=
  if_neg h

theorem shifterWithFr_same (h : real v = real p.fr) : shifterWithFr v p = p := if_pos h

theorem shifterWithFr_other (h : real v ≠ real p.fr) :
    shifterWithFr v p = { p with fr := v, half := halfOf p.fs v, quarter := quarterOf p.fs v,
                                 buf := zeros (halfOf p.fs v) } :=
  if_neg h

end frequency

/-! ### The ends of each command -/

theorem exec_psetfs (s : State) : exec .psetfs s =
    checkedEnd s.ps.cfg (shiftValid s.params s.arg0 s.ps.fr s.ps.floor) .ps s
      { s with ps := shifterWithFs s.arg0 s.ps } := rfl

theorem exec_psetfr (s : State) : exec .psetfr s =
    checkedEnd s.ps.cfg (shiftValid s.params s.ps.fs s.arg0 s.ps.floor) .ps s
      { s with ps := shifterWithFr s.arg0 s.ps } := rfl

section ends
variable {fl : Nat} {s : State}

theorem exec_pcfg_valid (hv : shiftValid s.params s.arg0 s.arg1 fl = true) :
    exec (.pcfg fl) s = .next
      { s with ps := configuredShifter s.arg0 s.arg1 fl s.ps, err := .none, errSrc := .none } :=
  if_pos hv

theorem exec_pcfg_invalid (hv : shiftValid s.params s.arg0 s.arg1 fl = false) :
    exec (.pcfg fl) s = .next { s with err := .invalidParameter, errSrc := .ps } :=
  if_neg (by simp [hv])

theorem exec_pshift_notConfigured (hc : s.ps.cfg = false) :
    exec .pshift s = .next { s with err := .notConfigured, errSrc := .ps } :=
  if_pos hc

theorem exec_pshift_completes (hc : s.ps.cfg = true) :
    exec .pshift s = .next { s with ps := (shiftStep s.ps s.arg0).1, res0 := (shiftStep s.ps s.arg0).2,
                                    err := .none, errSrc := .none } :=
  if_neg (by simp [hc])

end ends

/-! ### The settled statements -/

/-- Settles O31: the shifter of R265 is the configured shifter, field by field. -/
theorem pcfgConfiguresTheShifter : Obligations.PcfgConfiguresTheShifter := by
  refine fun fl s => ⟨fun hv => ?_, exec_pcfg_invalid⟩
  rw [exec_pcfg_valid hv, configuredShifter_eq]

/-- Settles O32, by the three ends of a checked command, the last one split on the real value of fs. -/
theorem psetfsResetsTheBufferOnAChange : Obligations.PsetfsResetsTheBufferOnAChange := by
  intro s
  rw [exec_psetfs]
  refine ⟨checkedEnd_notConfigured, checkedEnd_invalid, fun hc hv same => ?_, fun hc hv other => ?_⟩
  · rw [checkedEnd_valid hc hv, shifterWithFs_same same]
  · rw [checkedEnd_valid hc hv, shifterWithFs_other other]

/-- Settles O33, by the three ends of a checked command, the last one split on the real value of fr. -/
theorem psetfrResetsTheBufferOnAChange : Obligations.PsetfrResetsTheBufferOnAChange := by
  intro s
  rw [exec_psetfr]
  refine ⟨checkedEnd_notConfigured, checkedEnd_invalid, fun hc hv same => ?_, fun hc hv other => ?_⟩
  · rw [checkedEnd_valid hc hv, shifterWithFr_same same]
  · rw [checkedEnd_valid hc hv, shifterWithFr_other other]

/-- Settles O34: a shifter step is the push and the delayed sample of R255. -/
theorem pshiftReturnsTheDelayedSample : Obligations.PshiftReturnsTheDelayedSample := by
  refine fun s => ⟨exec_pshift_notConfigured, fun hc => ?_⟩
  rw [exec_pshift_completes hc, shiftStep_eq_advanced]

end Sys2Proof.Machine
end

section
/-! SUPPORT. The core's commands as equations (43_lockin_core.md): the ordered checks of those that
configure, and the ends of a demodulation. The settled statements follow. -/

namespace Sys2Proof.Machine

/-! ### Checks in order (R290 to R293, R415) -/

/-- The end of a command that asks its checks in order: the first one that does not hold is raised in `s`;
only when all hold is the state `t`. -/
def orderedChecks : List (Bool × ErrKind × ErrSrc) → State → State → Result
  | [], _, t => complete t
  | (holds, k, src) :: rest, s, t =>
    if holds = false then raise k src s else orderedChecks rest s t

section checks
variable {holds : Bool} {k : ErrKind} {src : ErrSrc} {rest : List (Bool × ErrKind × ErrSrc)} {s t : State}

theorem orderedChecks_passed (h : holds = true) :
    orderedChecks ((holds, k, src) :: rest) s t = orderedChecks rest s t :=
  if_neg (by simp [h])

theorem orderedChecks_failed (h : holds = false) :
    orderedChecks ((holds, k, src) :: rest) s t = .next { s with err := k, errSrc := src } :=
  if_pos h

theorem orderedChecks_done : orderedChecks [] s t = .next { t with err := .none, errSrc := .none } := rfl

end checks

/-- The checks of a command that sets a frequency of all three units (R291, R292). -/
def threeUnitChecks (cfg ps f1 f2 : Bool) : List (Bool × ErrKind × ErrSrc) :=
  [(cfg, .notConfigured, .core), (ps, .invalidParameter, .ps), (f1, .invalidParameter, .f1),
    (f2, .invalidParameter, .f2)]

/-- The five ends of such a command: one for each check that fails first, and one where all hold. -/
theorem threeUnitChecks_ends {cfg ps f1 f2 : Bool} {s t : State} :
    let result := orderedChecks (threeUnitChecks cfg ps f1 f2) s t
    (cfg = false → result = .next { s with err := .notConfigured, errSrc := .core }) ∧
    (cfg = true → ps = false → result = .next { s with err := .invalidParameter, errSrc := .ps }) ∧
    (cfg = true → ps = true → f1 = false →
      result = .next { s with err := .invalidParameter, errSrc := .f1 }) ∧
    (cfg = true → ps = true → f1 = true → f2 = false →
      result = .next { s with err := .invalidParameter, errSrc := .f2 }) ∧
    (cfg = true → ps = true → f1 = true → f2 = true →
      result = .next { t with err := .none, errSrc := .none }) := by
  refine ⟨orderedChecks_failed, fun hc hps => ?_, fun hc hps h1 => ?_, fun hc hps h1 h2 => ?_,
    fun hc hps h1 h2 => ?_⟩
  · rw [threeUnitChecks, orderedChecks_passed hc, orderedChecks_failed hps]
  · rw [threeUnitChecks, orderedChecks_passed hc, orderedChecks_passed hps, orderedChecks_failed h1]
  · rw [threeUnitChecks, orderedChecks_passed hc, orderedChecks_passed hps, orderedChecks_passed h1,
      orderedChecks_failed h2]
  · rw [threeUnitChecks, orderedChecks_passed hc, orderedChecks_passed hps, orderedChecks_passed h1,
      orderedChecks_passed h2, orderedChecks_done]

section commands
variable (n : Nat) (s : State)

theorem exec_cinit : exec (.cinit n) s =
    orderedChecks
      [(shiftValid s.params s.arg1 s.arg0 4, .invalidParameter, .ps),
       (filterValid s.params n (cutoffOf s.arg0) s.arg1, .invalidParameter, .f1),
       (filterValid s.params n (cutoffOf s.arg0) s.arg1, .invalidParameter, .f2),
       (validSettle s.arg2, .invalidParameter, .core)] s (constructedCore n s) := rfl

theorem exec_csetfs : exec .csetfs s =
    orderedChecks
      (threeUnitChecks s.core.cfg (shiftValid s.params s.arg0 s.ps.fr s.ps.floor)
        (filterValid s.params s.f1.order s.f1.fc s.arg0)
        (filterValid s.params s.f2.order s.f2.fc s.arg0)) s
      { s with ps := shifterWithFs s.arg0 s.ps
               f1 := loadCoeffs s.params { s.f1 with fs := s.arg0 }
               f2 := loadCoeffs s.params { s.f2 with fs := s.arg0 } } := rfl

theorem exec_csetfr : exec .csetfr s =
    orderedChecks
      (threeUnitChecks s.core.cfg (shiftValid s.params s.ps.fs s.arg0 s.ps.floor)
        (filterValid s.params s.f1.order (cutoffOf s.arg0) s.f1.fs)
        (filterValid s.params s.f2.order (cutoffOf s.arg0) s.f2.fs)) s
      { s with ps := shifterWithFr s.arg0 s.ps
               f1 := loadCoeffs s.params { s.f1 with fc := cutoffOf s.arg0 }
               f2 := loadCoeffs s.params { s.f2 with fc := cutoffOf s.arg0 } } := rfl

theorem exec_csetord : exec (.csetord n) s =
    orderedChecks
      [(s.core.cfg, .notConfigured, .core),
       (filterValid s.params n s.f1.fc s.f1.fs, .invalidParameter, .f1),
       (filterValid s.params n s.f2.fc s.f2.fs, .invalidParameter, .f2)] s
      { s with f1 := reorderedFilter s.params n s.f1
               f2 := reorderedFilter s.params n s.f2 } := rfl

end commands

theorem validSettle_eq_true {v : F64} (hf : isFinite v = true) (h0 : 0 ≤ real v) :
    validSettle v = true := by
  simp [validSettle, hf, h0]

theorem validSettle_eq_false {v : F64} (h : isFinite v = false ∨ real v < 0) :
    validSettle v = false := by
  rcases h with hf | h0
  · simp [validSettle, hf]
  · simp [validSettle, h0]

/-- The state CINIT commits, its units field by field (R290). -/
theorem constructedCore_eq (n : Nat) (s : State) : constructedCore n s =
    { s with
      ps := { cfg := true, fs := s.arg1, fr := s.arg0, floor := 4, half := halfOf s.arg1 s.arg0,
              quarter := quarterOf s.arg1 s.arg0, buf := zeros (halfOf s.arg1 s.arg0) }
      f1 := { cfg := true, fault := false, order := n, fc := cutoffOf s.arg0, fs := s.arg1,
              b := designBs s.params n (wnOf (cutoffOf s.arg0) s.arg1),
              a := designAs s.params n (wnOf (cutoffOf s.arg0) s.arg1),
              xh := zeros (n + 1), yh := zeros (n + 1) }
      f2 := { cfg := true, fault := false, order := n, fc := cutoffOf s.arg0, fs := s.arg1,
              b := designBs s.params n (wnOf (cutoffOf s.arg0) s.arg1),
              a := designAs s.params n (wnOf (cutoffOf s.arg0) s.arg1),
              xh := zeros (n + 1), yh := zeros (n + 1) }
      core := { cfg := true, settle := s.arg2 } } := by
  rw [constructedCore, configuredShifter_eq, configuredFilter_eq, configuredFilter_eq,
    Config.coreFloor]

/-! ### A sample frequency given again (R320) -/

theorem Filter.Inv.loadCoeffs_same_fs {p : Params} {f : Filter} {fs : F64} (hi : f.Inv p)
    (hc : f.cfg = true) (h : fs = f.fs) : loadCoeffs p { f with fs := fs } = f := by
  obtain ⟨-, hb, ha, -⟩ := hi.2 hc
  subst h
  rw [loadCoeffs, ← hb, ← ha]

theorem Filter.Inv.filterValid_same_fs {p : Params} {f : Filter} {fs : F64} (hi : f.Inv p)
    (hc : f.cfg = true) (h : fs = f.fs) : filterValid p f.order f.fc fs = true :=
  h ▸ (hi.2 hc).1

theorem Shifter.Inv.shiftValid_same_fs {p : Params} {h : Shifter} {fs : F64} (hi : h.Inv p)
    (hc : h.cfg = true) (same : fs = h.fs) : shiftValid p fs h.fr h.floor = true :=
  same ▸ (hi.2 hc).1

/-! ### The ends of a demodulation (R310, R316) -/

section demodulation
variable {r m : F64} {s : State}

/-- F1 raises: only the shifter has advanced. -/
theorem demodulate_f1_raises
    (h : s.f1.fault = true ∨ isFinite (recursionOutput s.f1 (mul64 m r)) = false) :
    demodulate r m s = .next { s with
      ps := advancedShifter s.ps r, f1 := { s.f1 with fault := true }
      err := .numericalInstability, errSrc := .f1 } := by
  simp only [demodulate, shiftStep_eq_advanced, filterStep_raises h, raise_eq]

/-- F2 raises: the shifter and F1 have advanced. -/
theorem demodulate_f2_raises (hf : s.f1.fault = false)
    (hi : isFinite (recursionOutput s.f1 (mul64 m r)) = true)
    (h : s.f2.fault = true ∨
      isFinite (recursionOutput s.f2 (mul64 m (delayedSample s.ps r))) = false) :
    demodulate r m s = .next { s with
      ps := advancedShifter s.ps r
      f1 := advanced s.f1 (mul64 m r) (recursionOutput s.f1 (mul64 m r))
      f2 := { s.f2 with fault := true }, err := .numericalInstability, errSrc := .f2 } := by
  simp only [demodulate, shiftStep_eq_advanced, filterStep_completes hf hi, filterStep_raises h,
    raise_eq]

/-- Neither raises: magnitude and phase of the outputs are the results. -/
theorem demodulate_completes (hf1 : s.f1.fault = false)
    (hi : isFinite (recursionOutput s.f1 (mul64 m r)) = true) (hf2 : s.f2.fault = false)
    (hq : isFinite (recursionOutput s.f2 (mul64 m (delayedSample s.ps r))) = true) :
    demodulate r m s = .next { s with
      ps := advancedShifter s.ps r
      f1 := advanced s.f1 (mul64 m r) (recursionOutput s.f1 (mul64 m r))
      f2 := advanced s.f2 (mul64 m (delayedSample s.ps r))
        (recursionOutput s.f2 (mul64 m (delayedSample s.ps r)))
      res0 := hypot s.params.estimator (recursionOutput s.f1 (mul64 m r))
        (recursionOutput s.f2 (mul64 m (delayedSample s.ps r)))
      res1 := normPhase (atan2 s.params.estimator
        (recursionOutput s.f2 (mul64 m (delayedSample s.ps r)))
        (recursionOutput s.f1 (mul64 m r)))
      err := .none, errSrc := .none } := by
  simp only [demodulate, shiftStep_eq_advanced, filterStep_completes hf1 hi,
    filterStep_completes hf2 hq, complete_eq]

theorem exec_cdemod_notConfigured (hc : s.core.cfg = false) :
    exec .cdemod s = .next { s with err := .notConfigured, errSrc := .core } :=
  if_pos hc

theorem exec_cdemod_configured (hc : s.core.cfg = true) :
    exec .cdemod s = demodulate s.arg0 s.arg1 s :=
  if_neg (by simp [hc])

end demodulation

/-! ### The settled statements -/

/-- Settles O35: F2's check is F1's, so PS, F1 and CORE are the checks that can fail first. -/
theorem cinitConstructsTheCore : Obligations.CinitConstructsTheCore := by
  intro n s
  rw [exec_cinit, constructedCore_eq]
  refine ⟨orderedChecks_failed, fun hps hf => ?_, fun hps hf hst => ?_, fun hps hf hfin h0 => ?_⟩
  · rw [orderedChecks_passed hps, orderedChecks_failed hf]
  · rw [orderedChecks_passed hps, orderedChecks_passed hf, orderedChecks_passed hf,
      orderedChecks_failed (validSettle_eq_false hst)]
  · rw [orderedChecks_passed hps, orderedChecks_passed hf, orderedChecks_passed hf,
      orderedChecks_passed (validSettle_eq_true hfin h0), orderedChecks_done]

/-- Settles O36, by the five ends of the checks; the units are those of PSETFS and FSETFS, unfolded. -/
theorem csetfsSetsAllThreeUnits : Obligations.CsetfsSetsAllThreeUnits := by
  intro s
  rw [exec_csetfs]
  exact threeUnitChecks_ends

/-- Settles O37, by the five ends of the checks; the units are those of PSETFR and FSETFC, unfolded. -/
theorem csetfrSetsShifterAndCutoffs : Obligations.CsetfrSetsShifterAndCutoffs := by
  intro s
  rw [exec_csetfr]
  exact threeUnitChecks_ends

/-- Settles O38, by the first check that fails; with none, both filters are reordered. -/
theorem csetordResetsBothFilters : Obligations.CsetordResetsBothFilters := by
  intro n s
  rw [exec_csetord, reorderedFilter_eq, reorderedFilter_eq]
  refine ⟨orderedChecks_failed, fun hc h1 => ?_, fun hc h1 h2 => ?_, fun hc h1 h2 => ?_⟩
  · rw [orderedChecks_passed hc, orderedChecks_failed h1]
  · rw [orderedChecks_passed hc, orderedChecks_passed h1, orderedChecks_failed h2]
  · rw [orderedChecks_passed hc, orderedChecks_passed h1, orderedChecks_passed h2, orderedChecks_done]

/-- Settles O42, by the three ends of a demodulation. -/
theorem cdemodDemodulatesThePair : Obligations.CdemodDemodulatesThePair :=
  fun _ => ⟨exec_cdemod_notConfigured,
    fun hc h => (exec_cdemod_configured hc).trans (demodulate_f1_raises h),
    fun hc hf hi h => (exec_cdemod_configured hc).trans (demodulate_f2_raises hf hi h),
    fun hc hf1 hi hf2 hq => (exec_cdemod_configured hc).trans (demodulate_completes hf1 hi hf2 hq)⟩

/-- Settles O49: the units' own invariants make the checks hold, and the coefficients loaded again are the
ones already there. -/
theorem sameSampleFrequencyChangesNothing : Obligations.SameSampleFrequencyChangesNothing := by
  intro s hi hc hps h1 h2
  obtain ⟨c1, c2, cps, -⟩ := hi.coreUnits hc
  obtain ⟨-, -, -, -, allHold⟩ := threeUnitChecks_ends
  rw [exec_csetfs, allHold hc (hi.ps.shiftValid_same_fs cps hps) (hi.f1.filterValid_same_fs c1 h1)
      (hi.f2.filterValid_same_fs c2 h2),
    shifterWithFs_same (congrArg real hps), hi.f1.loadCoeffs_same_fs c1 h1,
    hi.f2.loadCoeffs_same_fs c2 h2]

end Sys2Proof.Machine
end

section
/-! SUPPORT. How a command ends (60_exceptions.md): without error, rejected with every unit as it was, or
unstable with the results as they were. The settled statement follows. -/

namespace Sys2Proof.Machine

/-! ### The three ends of a command (R410 to R412) -/

/-- How a command that took `s` to `t` ended. -/
inductive CommandEnd (s t : State) : Prop where
  | completed (ok : t.err = .none)
  | rejected (same : t = { s with err := t.err, errSrc := t.errSrc, ref := t.ref, med := t.med })
  | unstable (err : t.err = .numericalInstability) (res0 : t.res0 = s.res0) (res1 : t.res1 = s.res1)

/-- A demodulation is never rejected: it completes, or one of the filters raises (R316). CSTEP runs it
after asking the sources, so it starts from `s` with other sources. -/
theorem demodulate_end {r m : F64} {c d : Source} {s t : State}
    (h : demodulate r m (s.withSources c d) = .next t) : CommandEnd s t := by
  rcases demodulate_next h with ⟨f1, -, rfl⟩ | ⟨f1, x, f2, -, -, rfl⟩ | ⟨f1, x, f2, y, -, -, rfl⟩
  · exact .unstable rfl rfl rfl
  · exact .unstable rfl rfl rfl
  · exact .completed rfl

/-- The end of any command, one case for each row of R125. -/
theorem exec_end {i : Instr} {s t : State} (h : exec i s = .next t) : CommandEnd s t := by
  cases i with
  | fcfg u n =>
    rcases execFcfg_next h with ⟨-, rfl⟩ | rfl
    · exact .completed rfl
    · exact .rejected rfl
  | fsetfs u =>
    rcases execFsetfs_next h with rfl | ⟨-, -, rfl⟩ | rfl
    · exact .rejected rfl
    · exact .completed rfl
    · exact .rejected rfl
  | fsetfc u =>
    rcases execFsetfc_next h with rfl | ⟨-, -, rfl⟩ | rfl
    · exact .rejected rfl
    · exact .completed rfl
    · exact .rejected rfl
  | fsetord u n =>
    rcases execFsetord_next h with rfl | ⟨-, -, rfl⟩ | rfl
    · exact .rejected rfl
    · exact .completed rfl
    · exact .rejected rfl
  | ffilt u =>
    rcases execFfilt_next h with rfl | ⟨-, f, y, -, rfl⟩ | ⟨-, f, -, rfl⟩
    · exact .rejected rfl
    · exact .completed rfl
    · exact .unstable rfl (by simp) (by simp)
  | pcfg fl =>
    rcases execPcfg_next h with ⟨-, rfl⟩ | rfl
    · exact .completed rfl
    · exact .rejected rfl
  | psetfs =>
    rcases execPsetfs_next h with rfl | ⟨-, -, rfl⟩ | rfl
    · exact .rejected rfl
    · exact .completed rfl
    · exact .rejected rfl
  | psetfr =>
    rcases execPsetfr_next h with rfl | ⟨-, -, rfl⟩ | rfl
    · exact .rejected rfl
    · exact .completed rfl
    · exact .rejected rfl
  | pshift =>
    rcases execPshift_next h with rfl | ⟨-, rfl⟩
    · exact .rejected rfl
    · exact .completed rfl
  | cinit n =>
    rcases execCinit_next h with ⟨src, -, rfl⟩ | ⟨-, -, -, rfl⟩
    · exact .rejected rfl
    · exact .completed rfl
  | csetfs =>
    rcases execCsetfs_next h with rfl | ⟨src, -, rfl⟩ | ⟨-, -, -, -, rfl⟩
    · exact .rejected rfl
    · exact .rejected rfl
    · exact .completed rfl
  | csetfr =>
    rcases execCsetfr_next h with rfl | ⟨src, -, rfl⟩ | ⟨-, -, -, -, rfl⟩
    · exact .rejected rfl
    · exact .rejected rfl
    · exact .completed rfl
  | csetord n =>
    rcases execCsetord_next h with rfl | ⟨src, -, rfl⟩ | ⟨-, -, -, rfl⟩
    · exact .rejected rfl
    · exact .rejected rfl
    · exact .completed rfl
  | cconn =>
    rcases execCconn_next h with rfl | ⟨-, c, d, rfl | rfl | rfl⟩
    · exact .rejected rfl
    · exact .rejected rfl
    · exact .rejected rfl
    · exact .completed rfl
  | cacq =>
    rcases execCacq_next h with rfl | ⟨-, c, d, ⟨r, m, -, rfl⟩ | rfl | rfl⟩
    · exact .rejected rfl
    · exact .completed rfl
    · exact .rejected rfl
    · exact .rejected rfl
  | cdemod =>
    rcases execCdemod_next h with rfl | ⟨-, h⟩
    · exact .rejected rfl
    · exact demodulate_end (c := s.ref) (d := s.med) h
  | cstep =>
    rcases execCstep_next h with rfl | ⟨-, c, d, ⟨r, m, -, h⟩ | rfl | rfl⟩
    · exact .rejected rfl
    · exact demodulate_end h
    · exact .rejected rfl
    · exact .rejected rfl

section ends
variable {s t : State}

/-- R411. -/
theorem CommandEnd.keeps_results (e : CommandEnd s t) (error : t.err ≠ .none) :
    t.res0 = s.res0 ∧ t.res1 = s.res1 := by
  cases e with
  | completed ok => exact absurd ok error
  | rejected same => rw [same]; exact ⟨rfl, rfl⟩
  | unstable _ res0 res1 => exact ⟨res0, res1⟩

/-- R412. -/
theorem CommandEnd.keeps_state (e : CommandEnd s t) (error : t.err ≠ .none)
    (stable : t.err ≠ .numericalInstability) :
    t = { s with err := t.err, errSrc := t.errSrc, ref := t.ref, med := t.med } := by
  cases e with
  | completed ok => exact absurd ok error
  | rejected same => exact same
  | unstable err => exact absurd err stable

end ends

/-! ### The settled statement -/

/-- Settles O25, by the three ends of a command; ARG is in the frame of every command. -/
theorem errorsKeepResAndTheUnits : Obligations.ErrorsKeepResAndTheUnits :=
  fun _ _ _ h => ⟨(exec_end h).keeps_results, exec_args h, (exec_end h).keeps_state⟩

end Sys2Proof.Machine
end

section
/-! SUPPORT. Reset, the idle machine and its sources, and the invariant as statements about a step
(10_state.md, 44_acquisition_interface.md, 70_reset_and_hazards.md). -/

namespace Sys2Proof.Machine

/-- Settles O4: a step resets the block, runs a well-formed command, or changes no unit. -/
theorem everyStepKeepsTheInvariant : Obligations.EveryStepKeepsTheInvariant :=
  fun _ _ => step_inv

/-- Settles O2: both events take the machine to the state after reset. -/
theorem resetInputLeavesTheResetState : Obligations.ResetInputLeavesTheResetState := by
  intro s e rest w h he
  rw [step_of_inputs h]
  rcases he with rfl | rfl
  · rfl
  · rfl

/-- Settles O3: the state after reset is a reset of itself, with parameters in range. -/
theorem resetMeetsTheInvariant : Obligations.ResetMeetsTheInvariant :=
  afterReset_inv (s := State.reset) (by decide)

/-- Settles O41, by the two cases of each answer. -/
theorem sourcesAnswerInOrder : Obligations.SourcesAnswerInOrder := by
  rintro p ⟨connects, reads, draws⟩
  refine ⟨fun a rest h => ?_, fun a rest h => ?_, fun h => ?_, fun h => ?_⟩
  · obtain rfl : connects = a :: rest := h
    rfl
  · obtain rfl : reads = a :: rest := h
    rfl
  · obtain rfl : connects = [] := h
    rfl
  · obtain rfl : reads = [] := h
    rfl

end Sys2Proof.Machine
end

section
/-! SUPPORT. The encoder against the decoder (30_encoding.md): each row of the opcode map builds commands
with the row's opcode and the operand fields of its format, and each command is built by a row. The settled
statements follow. -/

namespace Sys2Proof

/-! ### A row and the commands it builds (R121, R125, R126) -/

/-- A row's command has the row's opcode, and the operands its format has. -/
theorem build_fields : ∀ r ∈ opcodeTable, ∀ (u : FilterUnit) (n : Nat),
    (r.build u n).opc = opcOf r.pattern ∧
    (r.build u n).unit = (if opcOf r.pattern ∈ unitOpcodes then u else .f1) ∧
    (r.build u n).imm = if opcOf r.pattern ∈ immediateOpcodes then n else 0 := by
  intro r hr u n
  fin_cases hr <;> exact ⟨rfl, rfl, rfl⟩

/-- Every command is built by the row of its opcode from its own operands. -/
theorem exists_row (i : Instr) :
    ∃ r ∈ opcodeTable, opcOf r.pattern = i.opc ∧ r.build i.unit i.imm = i := by
  have table : ∀ k, (hk : k < opcodeTable.length) → opcodeTable[k] ∈ opcodeTable :=
    fun _ => List.getElem_mem
  cases i with
  | fcfg u n => exact ⟨_, table 0 (by decide), rfl, rfl⟩
  | fsetfs u => exact ⟨_, table 1 (by decide), rfl, rfl⟩
  | fsetfc u => exact ⟨_, table 2 (by decide), rfl, rfl⟩
  | fsetord u n => exact ⟨_, table 3 (by decide), rfl, rfl⟩
  | ffilt u => exact ⟨_, table 4 (by decide), rfl, rfl⟩
  | pcfg fl => exact ⟨_, table 5 (by decide), rfl, rfl⟩
  | psetfs => exact ⟨_, table 6 (by decide), rfl, rfl⟩
  | psetfr => exact ⟨_, table 7 (by decide), rfl, rfl⟩
  | pshift => exact ⟨_, table 8 (by decide), rfl, rfl⟩
  | cinit n => exact ⟨_, table 9 (by decide), rfl, rfl⟩
  | csetfs => exact ⟨_, table 10 (by decide), rfl, rfl⟩
  | csetfr => exact ⟨_, table 11 (by decide), rfl, rfl⟩
  | csetord n => exact ⟨_, table 12 (by decide), rfl, rfl⟩
  | cconn => exact ⟨_, table 13 (by decide), rfl, rfl⟩
  | cacq => exact ⟨_, table 14 (by decide), rfl, rfl⟩
  | cdemod => exact ⟨_, table 15 (by decide), rfl, rfl⟩
  | cstep => exact ⟨_, table 16 (by decide), rfl, rfl⟩

/-! ### From a command to its word and back -/

/-- The operand fields that a command's format does not have are zero in its word (R121). -/
theorem encodeWord_legalFields {i : Instr} (h : i.WellFormed) : LegalFields (encodeWord i) := by
  obtain ⟨r, hr, ho, hb⟩ := exists_row i
  obtain ⟨-, hu, hn⟩ := build_fields r hr i.unit i.imm
  rw [hb, ho] at hu hn
  rw [LegalFields, opcOf_encodeWord, unitOf_encodeWord, immOf_encodeWord h]
  exact ⟨rsvOf_encodeWord i, fun h0 => by rw [hu, if_neg h0], fun h0 => by rw [hn, if_neg h0]⟩

theorem decodeWord_encodeWord {i : Instr} (h : i.WellFormed) : decodeWord (encodeWord i) = .ok i := by
  obtain ⟨r, hr, ho, hb⟩ := exists_row i
  refine (decodeWord_ok_iff _ i).2 ⟨r, hr, (match_row_iff hr _).2 ⟨?_, encodeWord_legalFields h⟩, ?_⟩
  · rw [opcOf_encodeWord, ho]
  · rw [unitOf_encodeWord, immOf_encodeWord h, hb]

theorem encodeWord_of_decodeWord {w : Word} {i : Instr} (h : decodeWord w = .ok i) :
    encodeWord i = w := by
  obtain ⟨r, hr, hm, rfl⟩ := (decodeWord_ok_iff w i).1 h
  obtain ⟨ho, hrsv, hunit, himm⟩ := (match_row_iff hr w).1 hm
  obtain ⟨hopc, hu, hn⟩ := build_fields r hr (unitOf w) (immOf w)
  rw [← ho] at hopc hu hn
  refine encodeWord_of_fields hopc hrsv ?_ ?_
  · rw [hu]
    split
    · rfl
    · exact (hunit ‹_›).symm
  · rw [hn]
    split
    · rfl
    · exact (himm ‹_›).symm

/-! ### Bytes (R82) -/

theorem wordOfBytes_bytesOfWord (w : Word) :
    wordOfBytes (w.extractLsb' 0 8) (w.extractLsb' 8 8) (w.extractLsb' 16 8) (w.extractLsb' 24 8) = w := by
  apply BitVec.eq_of_getLsbD_eq
  intro i hi
  simp only [wordOfBytes, BitVec.getLsbD_append, BitVec.getLsbD_extractLsb']
  split
  · simp [*]
  · split
    · rw [show 8 + (i - 8) = i by omega]; simp; omega
    · split
      · rw [show 16 + (i - 8 - 8) = i by omega]; simp; omega
      · rw [show 24 + (i - 8 - 8 - 8) = i by omega]; simp; omega

theorem decodeBytes_encode {i : Instr} (h : i.WellFormed) (rest : List Byte) :
    decodeBytes (encode i ++ rest) = .ok (i, rest) := by
  simp only [encode, bytesOfWord, List.cons_append, List.nil_append, decodeBytes,
    wordOfBytes_bytesOfWord, decodeWord_encodeWord h]

end Sys2Proof

namespace Sys2Proof.Machine

/-! ### The assembler (R128, R130) -/

theorem parseLine_asmLineOf (i : Instr) : parseLine (asmLineOf i) = some i := by
  cases i <;> rfl

theorem assembleLine_asmLineOf (i : Instr) :
    assembleLine (asmLineOf i) = if i.wf then some (encodeWord i) else none := by
  rw [assembleLine, parseLine_asmLineOf]

/-! ### The settled statements -/

/-- Settles O8, from the row that builds the command. -/
theorem decodeOfEncodeIsTheCommand : Obligations.DecodeOfEncodeIsTheCommand :=
  fun _ h => ⟨decodeWord_encodeWord h, decodeBytes_encode h⟩

/-- Settles O9: the row that matches the word fixes every field of the command. -/
theorem encodeOfDecodeIsTheWord : Obligations.EncodeOfDecodeIsTheWord :=
  fun _ _ h => ⟨decodeWord_wellFormed h, encodeWord_of_decodeWord h⟩

/-- Settles O13: the line of a command parses to it, and its word is emitted where the immediate fits. -/
theorem assemblerEmitsTheEncodedWord : Obligations.AssemblerEmitsTheEncodedWord := by
  refine ⟨fun i h => ?_, fun i h => ?_, rfl⟩
  · rw [assembleLine_asmLineOf, if_pos (wellFormed_iff.2 h)]
  · rw [assembleLine_asmLineOf, if_neg (mt wellFormed_iff.1 (by omega))]

end Sys2Proof.Machine
end

section
/-! SUPPORT. The register window as the host reads it, and what an access does that is not a write to ARG
(20_memory.md): the bytes of a register, the bytes of a read, a run of a command and a refused access. The
settled statements follow. -/

namespace Sys2Proof.Machine

/-! ### Bytes and halves of a register (R82, R83) -/

/-- The bits of a register from one of its bytes on. -/
theorem windowBits_of_regAt {s : State} {r : Reg} {off : Nat} (h : regAt off = some r) (nbits : Nat) :
    windowBits s off nbits = (r.value s).extractLsb' (8 * (off - r.offset)) nbits := by
  rw [← BitVec.setWidth_ushiftRight_eq_extractLsb]
  simp only [windowBits, h]

theorem windowBits_of_none {s : State} {off : Nat} (h : regAt off = none) (nbits : Nat) :
    windowBits s off nbits = 0#nbits := by
  simp only [windowBits, h]

theorem windowBits_register {r : Reg} {k : Nat} (s : State) (hk : k < r.bytes) (nbits : Nat) :
    windowBits s (r.offset + k) nbits = (r.value s).extractLsb' (8 * k) nbits := by
  rw [windowBits_of_regAt (regAt_byte r k hk), Nat.add_sub_cancel_left]

/-! ### Bytes of a read (R82, R84, R89) -/

/-- A register that begins inside an aligned access, and not at its offset, stands after another one. -/
theorem regAt_of_register_inside {off n : Nat} {r : Reg} (ho : off < 256) (h : takenAccess off n)
    (h1 : off < r.offset) (h2 : r.offset < off + n) : ∃ r', regAt off = some r' := by
  have aligned : r.offset % 4 = 0 := by cases r <;> rfl
  simp only [takenAccess] at h
  have middle : off + 4 = r.offset ∧ off % 8 = 0 := by omega
  have : off = 0x00 ∨ off = 0x78 := by
    cases r
    all_goals simp only [Reg.offset] at middle; omega
  rcases this with rfl | rfl
  · exact ⟨.cmd, by decide⟩
  · exact ⟨.orders, by decide⟩

/-- An access that begins in reserved space lies in reserved space. -/
theorem regAt_reserved_extent {off n k : Nat} (h : accessAllowed off n = true) (hr : regAt off = none)
    (hk : k < n) : regAt (off + k) = none := by
  cases hin : regAt (off + k) with
  | none => rfl
  | some r =>
    have ho : off < 256 := by
      simp only [accessAllowed, Bool.and_eq_true, decide_eq_true_eq] at h
      omega
    obtain ⟨h1, h2⟩ := regAt_some hin
    have : ∃ r', regAt off = some r' := by
      by_cases hb : r.offset ≤ off
      · refine ⟨r, ?_⟩
        rw [← Nat.add_sub_cancel' hb]
        exact regAt_byte r _ (by omega)
      · exact regAt_of_register_inside (r := r) ho ((accessAllowed_iff ho).1 h) (by omega) (by omega)
    obtain ⟨r', hr'⟩ := this
    rw [hr] at hr'
    cases hr'

theorem extractLsb'_extractLsb' {m n : Nat} (v : BitVec m) (i j l : Nat) (h : j + l ≤ n) :
    (v.extractLsb' i n).extractLsb' j l = v.extractLsb' (i + j) l := by
  apply BitVec.eq_of_getLsbD_eq
  intro k hk
  simp only [BitVec.getLsbD_extractLsb', hk, show j + k < n by omega, decide_true, Bool.true_and,
    Nat.add_assoc]

/-- Byte `k` of the bits from an offset on is the byte at `k` places after it. -/
theorem windowBits_byte {s : State} {off n k : Nat} (h : accessAllowed off n = true) (hk : k < n) :
    (windowBits s off (8 * n)).extractLsb' (8 * k) 8 = windowByte s (off + k) := by
  cases hr : regAt off with
  | none =>
    rw [windowByte, windowBits_of_none hr, windowBits_of_none (regAt_reserved_extent h hr hk)]
    simp
  | some r =>
    obtain ⟨hle, -⟩ := regAt_some hr
    have extent := accessAllowed_extent h hr
    have hin : regAt (off + k) = some r := by
      rw [show off + k = r.offset + (off + k - r.offset) by omega]
      exact regAt_byte r _ (by omega)
    rw [windowByte, windowBits_of_regAt hr, windowBits_of_regAt hin,
      extractLsb'_extractLsb' _ _ _ _ (by omega),
      show 8 * (off - r.offset) + 8 * k = 8 * (off + k - r.offset) by omega]

theorem windowRead_byte {s : State} {off n k : Nat} (h : accessAllowed off n = true) (hk : k < n) :
    (windowRead s off n).extractLsb' (8 * k) 8 = windowByte s (off + k) := by
  rw [← windowBits_byte h hk, windowRead]
  rcases accessAllowed_size h with rfl | rfl
  · rw [if_neg (by decide)]
    apply BitVec.eq_of_getLsbD_eq
    intro i hi
    simp only [BitVec.getLsbD_extractLsb', BitVec.getLsbD_setWidth, show 8 * k + i < 64 by omega,
      decide_true, Bool.true_and]
  · rw [if_pos rfl]

/-- A 4-byte read inside a register gives the half at its offset. -/
theorem windowRead_half {r : Reg} {k : Nat} (s : State) (hk : k < r.bytes) :
    windowRead s (r.offset + k) 4 = ((r.value s).extractLsb' (8 * k) 32).setWidth 64 := by
  rw [windowRead, if_neg (by decide), windowBits_register s hk]

/-! ### Host accesses as steps -/

theorem step_read {s : State} {rest : List Event} {a n : Nat} (h : s.inputs = .read a n :: rest) :
    step s = busRead a n { s with inputs := rest } := step_of_inputs h

theorem step_write {s : State} {rest : List Event} {a n : Nat} {d : BitVec 64}
    (h : s.inputs = .write a n d :: rest) : step s = busWrite a n d { s with inputs := rest } :=
  step_of_inputs h

/-- What a read returns does not depend on the inputs still to come. -/
theorem windowRead_inputs (s : State) (l : List Event) (off n : Nat) :
    windowRead { s with inputs := l } off n = windowRead s off n := by
  unfold windowRead windowBits
  cases regAt off with
  | none => rfl
  | some r => cases r <;> rfl

theorem windowOffset_outside {s : State} {a : Nat}
    (h : a < s.params.base ∨ s.params.base + 256 ≤ a) : windowOffset s a = none := by
  rw [windowOffset, if_neg (by omega)]

/-! ### The settled statements -/

/-- Settles O14: a write to CMD is a run of its word, and a read of CMD is a read of a register. -/
theorem writeToCmdRunsTheDecodedCommand : Obligations.WriteToCmdRunsTheDecodedCommand := by
  refine ⟨fun s w i rest h hd => ?_, fun s rest h => step_read_register (r := .cmd) h,
    fun s w i hw hd => ?_⟩
  · rw [step_write_cmd h, runCommand_ok hd]
  · rw [← Nat.mod_eq_of_lt hw] at hd
    exact (step_write_cmd rfl).trans (runCommand_ok hd)

/-- Settles O16, from the bits of a register and the extent of an access. -/
theorem windowIsLittleEndian : Obligations.WindowIsLittleEndian := by
  refine ⟨fun s r k hk => windowBits_register s hk 8, fun s off n k h hk => windowRead_byte h hk,
    fun s r h8 => ⟨windowRead_half (k := 0) s (by omega), windowRead_half (k := 4) s (by omega)⟩⟩

/-- Settles O17: the check of an access is the list of R81's offsets. -/
theorem illFormedAccessIsABusError : Obligations.IllFormedAccessIsABusError := by
  refine fun s rest off n d ho => ⟨fun hn => ⟨fun h => ?_, fun h => ?_⟩, fun htk h => ?_⟩
  · exact (step_read h).trans (busRead_refused (s := { s with inputs := rest }) ho hn)
  · exact (step_write h).trans (busWrite_refused (s := { s with inputs := rest }) ho hn)
  · refine (step_read h).trans ((busRead_taken (s := { s with inputs := rest }) ho htk).trans ?_)
    rw [windowRead_inputs]

/-- Settles O18: no input is no change, and an address outside the window has no offset in it. -/
theorem idleAndForeignAccesses : Obligations.IdleAndForeignAccesses := by
  refine fun s rest a n d => ⟨fun h => ?_, fun ha => ⟨fun h => ?_, fun h => ?_⟩⟩
  · rw [step, serveNext, h]
  · rw [step_read h, busRead, windowOffset_inputs, windowOffset_outside ha]
  · rw [step_write h, busWrite, windowOffset_inputs, windowOffset_outside ha]

end Sys2Proof.Machine
end

section
/-! SUPPORT. What each command names (10_state.md R42, 60_exceptions.md R401): the codes it can end with,
and the state that it leaves as it was. The settled statements follow. -/

namespace Sys2Proof.Machine

/-! ### The codes of a command (R401) -/

/-- R316: a demodulation completes, or a filter raises. -/
theorem demodulate_err {r m : F64} {s t : State} (h : demodulate r m s = .next t) :
    t.err = .none ∨ t.err = .numericalInstability := by
  rcases demodulate_next h with ⟨f1, -, rfl⟩ | ⟨f1, x, f2, -, -, rfl⟩ | ⟨f1, x, f2, y, -, -, rfl⟩
  · exact .inr rfl
  · exact .inr rfl
  · exact .inl rfl

/-- R401: a command raises only what its row lists, one case for each row of R125. -/
theorem exec_errAllowed {i : Instr} {s t : State} (h : exec i s = .next t) :
    errAllowed i t.err = true := by
  cases i with
  | fcfg u n => rcases execFcfg_next h with ⟨-, rfl⟩ | rfl <;> rfl
  | fsetfs u => rcases execFsetfs_next h with rfl | ⟨-, -, rfl⟩ | rfl <;> rfl
  | fsetfc u => rcases execFsetfc_next h with rfl | ⟨-, -, rfl⟩ | rfl <;> rfl
  | fsetord u n => rcases execFsetord_next h with rfl | ⟨-, -, rfl⟩ | rfl <;> rfl
  | ffilt u => rcases execFfilt_next h with rfl | ⟨-, f, y, -, rfl⟩ | ⟨-, f, -, rfl⟩ <;> rfl
  | pcfg fl => rcases execPcfg_next h with ⟨-, rfl⟩ | rfl <;> rfl
  | psetfs => rcases execPsetfs_next h with rfl | ⟨-, -, rfl⟩ | rfl <;> rfl
  | psetfr => rcases execPsetfr_next h with rfl | ⟨-, -, rfl⟩ | rfl <;> rfl
  | pshift => rcases execPshift_next h with rfl | ⟨-, rfl⟩ <;> rfl
  | cinit n => rcases execCinit_next h with ⟨src, -, rfl⟩ | ⟨-, -, -, rfl⟩ <;> rfl
  | csetfs => rcases execCsetfs_next h with rfl | ⟨src, -, rfl⟩ | ⟨-, -, -, -, rfl⟩ <;> rfl
  | csetfr => rcases execCsetfr_next h with rfl | ⟨src, -, rfl⟩ | ⟨-, -, -, -, rfl⟩ <;> rfl
  | csetord n => rcases execCsetord_next h with rfl | ⟨src, -, rfl⟩ | ⟨-, -, -, rfl⟩ <;> rfl
  | cconn => rcases execCconn_next h with rfl | ⟨-, c, d, rfl | rfl | rfl⟩ <;> rfl
  | cacq => rcases execCacq_next h with rfl | ⟨-, c, d, ⟨r, m, -, rfl⟩ | rfl | rfl⟩ <;> rfl
  | cdemod =>
    rcases execCdemod_next h with rfl | ⟨-, h⟩
    · rfl
    · rcases demodulate_err h with he | he <;> rw [he] <;> rfl
  | cstep =>
    rcases execCstep_next h with rfl | ⟨-, c, d, ⟨r, m, -, h⟩ | rfl | rfl⟩
    · rfl
    · rcases demodulate_err h with he | he <;> rw [he] <;> rfl
    · rfl
    · rfl

/-! ### The state a command does not name (R42) -/

/-- What the row of `i` does not name is in `t` as it was in `s`. -/
structure KeepsUnnamed (i : Instr) (s t : State) : Prop where
  filter : ∀ u, writesFilter i u = false → t.filter u = s.filter u
  shifter : writesShifter i = false → t.ps = s.ps
  core : writesCore i = false → t.core = s.core
  res0 : writesRes0 i = false → t.res0 = s.res0
  res1 : writesRes1 i = false → t.res1 = s.res1
  sources : asksPorts i = false → t.ref = s.ref ∧ t.med = s.med

theorem KeepsUnnamed.ofReport (i : Instr) (s : State) (k : ErrKind) (src : ErrSrc) :
    KeepsUnnamed i s (s.report k src) where
  filter _ _ := report_filter ..
  shifter _ := rfl
  core _ := rfl
  res0 _ := rfl
  res1 _ := rfl
  sources _ := ⟨rfl, rfl⟩

/-- A command that asks the sources, and ends with a code alone. -/
theorem KeepsUnnamed.ofReportAsked {i : Instr} (asks : asksPorts i = true) (s : State) (c d : Source)
    (k : ErrKind) (src : ErrSrc) : KeepsUnnamed i s ((s.withSources c d).report k src) where
  filter u _ := by simp
  shifter _ := rfl
  core _ := rfl
  res0 _ := rfl
  res1 _ := rfl
  sources h := absurd (asks.symm.trans h) (by decide)

/-- A command on one filter unit, and on RES[0] where its row names it. -/
theorem KeepsUnnamed.ofFilter {i : Instr} {s t : State} {u : FilterUnit} {f : Filter}
    (named : writesFilter i u = true) (same : t = { s.setFilter u f with
      res0 := t.res0, err := t.err, errSrc := t.errSrc })
    (res0 : writesRes0 i = false → t.res0 = s.res0) : KeepsUnnamed i s t where
  filter v h := by
    have hv : v ≠ u := by
      rintro rfl
      exact absurd (named.symm.trans h) (by decide)
    rw [← setFilter_filter_other (s := s) (f := f) hv, same]
    cases v <;> rfl
  shifter _ := by rw [same]; simp
  core _ := by rw [same]; simp
  res0 := res0
  res1 _ := by rw [same]; simp
  sources _ := by rw [same]; simp

/-- A command on the shifter, and on RES[0] where its row names it. -/
theorem KeepsUnnamed.ofShifter {i : Instr} {s t : State} (named : writesShifter i = true)
    (same : t = { s with ps := t.ps, res0 := t.res0, err := t.err, errSrc := t.errSrc })
    (res0 : writesRes0 i = false → t.res0 = s.res0) : KeepsUnnamed i s t where
  filter := fun _ _ => filter_eq_of_units (by rw [same]) (by rw [same]) _
  shifter h := absurd (named.symm.trans h) (by decide)
  core _ := by rw [same]
  res0 := res0
  res1 _ := by rw [same]
  sources _ := by rw [same]; exact ⟨rfl, rfl⟩

/-- A command of the core that sets both filters. -/
theorem KeepsUnnamed.ofBothFilters {i : Instr} {s t : State} (named : ∀ u, writesFilter i u = true)
    (same : t = { s with f1 := t.f1, f2 := t.f2, ps := t.ps, core := t.core, err := t.err,
                         errSrc := t.errSrc })
    (shifter : writesShifter i = false → t.ps = s.ps) (core : writesCore i = false → t.core = s.core) :
    KeepsUnnamed i s t where
  filter u h := absurd ((named u).symm.trans h) (by decide)
  shifter := shifter
  core := core
  res0 _ := by rw [same]
  res1 _ := by rw [same]
  sources _ := by rw [same]; exact ⟨rfl, rfl⟩

/-- A demodulation, of CDEMOD or of CSTEP after it has asked the sources: every field it writes is named. -/
theorem demodulate_keepsUnnamed {i : Instr} {r m : F64} {c d : Source} {s t : State}
    (hi : i = .cdemod ∨ i = .cstep) (asked : asksPorts i = false → c = s.ref ∧ d = s.med)
    (h : demodulate r m (s.withSources c d) = .next t) : KeepsUnnamed i s t := by
  have same := demodulate_frame h
  have sources : asksPorts i = false → t.ref = s.ref ∧ t.med = s.med := by
    rw [same]
    exact asked
  have core : t.core = s.core := by rw [same, withSources_core]
  rcases hi with rfl | rfl
  · exact ⟨nofun, nofun, fun _ => core, nofun, nofun, sources⟩
  · exact ⟨nofun, nofun, fun _ => core, nofun, nofun, sources⟩

/-- R42, one case for each row of R125. -/
theorem exec_keepsUnnamed {i : Instr} {s t : State} (h : exec i s = .next t) : KeepsUnnamed i s t := by
  cases i with
  | fcfg u n =>
    rcases execFcfg_next h with ⟨-, rfl⟩ | rfl
    · exact .ofFilter (u := u) (beq_self_eq_true u) rfl (by simp)
    · exact .ofReport ..
  | fsetfs u =>
    rcases execFsetfs_next h with rfl | ⟨-, -, rfl⟩ | rfl
    · exact .ofReport ..
    · exact .ofFilter (u := u) (beq_self_eq_true u) rfl (by simp)
    · exact .ofReport ..
  | fsetfc u =>
    rcases execFsetfc_next h with rfl | ⟨-, -, rfl⟩ | rfl
    · exact .ofReport ..
    · exact .ofFilter (u := u) (beq_self_eq_true u) rfl (by simp)
    · exact .ofReport ..
  | fsetord u n =>
    rcases execFsetord_next h with rfl | ⟨-, -, rfl⟩ | rfl
    · exact .ofReport ..
    · exact .ofFilter (u := u) (beq_self_eq_true u) rfl (by simp)
    · exact .ofReport ..
  | ffilt u =>
    rcases execFfilt_next h with rfl | ⟨-, f, y, -, rfl⟩ | ⟨-, f, -, rfl⟩
    · exact .ofReport ..
    · exact .ofFilter (u := u) (f := f) (beq_self_eq_true u) rfl nofun
    · exact .ofFilter (u := u) (f := f) (beq_self_eq_true u) rfl nofun
  | pcfg fl =>
    rcases execPcfg_next h with ⟨-, rfl⟩ | rfl
    · exact .ofShifter rfl rfl fun _ => rfl
    · exact .ofReport ..
  | psetfs =>
    rcases execPsetfs_next h with rfl | ⟨-, -, rfl⟩ | rfl
    · exact .ofReport ..
    · exact .ofShifter rfl rfl fun _ => rfl
    · exact .ofReport ..
  | psetfr =>
    rcases execPsetfr_next h with rfl | ⟨-, -, rfl⟩ | rfl
    · exact .ofReport ..
    · exact .ofShifter rfl rfl fun _ => rfl
    · exact .ofReport ..
  | pshift =>
    rcases execPshift_next h with rfl | ⟨-, rfl⟩
    · exact .ofReport ..
    · exact .ofShifter rfl rfl nofun
  | cinit n =>
    rcases execCinit_next h with ⟨src, -, rfl⟩ | ⟨-, -, -, rfl⟩
    · exact .ofReport ..
    · exact .ofBothFilters (fun _ => rfl) rfl nofun nofun
  | csetfs =>
    rcases execCsetfs_next h with rfl | ⟨src, -, rfl⟩ | ⟨-, -, -, -, rfl⟩
    · exact .ofReport ..
    · exact .ofReport ..
    · exact .ofBothFilters (fun _ => rfl) rfl nofun fun _ => rfl
  | csetfr =>
    rcases execCsetfr_next h with rfl | ⟨src, -, rfl⟩ | ⟨-, -, -, -, rfl⟩
    · exact .ofReport ..
    · exact .ofReport ..
    · exact .ofBothFilters (fun _ => rfl) rfl nofun fun _ => rfl
  | csetord n =>
    rcases execCsetord_next h with rfl | ⟨src, -, rfl⟩ | ⟨-, -, -, rfl⟩
    · exact .ofReport ..
    · exact .ofReport ..
    · exact .ofBothFilters (fun _ => rfl) rfl (fun _ => rfl) fun _ => rfl
  | cconn =>
    rcases execCconn_next h with rfl | ⟨-, c, d, rfl | rfl | rfl⟩
    · exact .ofReport ..
    all_goals exact .ofReportAsked rfl ..
  | cacq =>
    rcases execCacq_next h with rfl | ⟨-, c, d, ⟨r, m, -, rfl⟩ | rfl | rfl⟩
    · exact .ofReport ..
    · exact ⟨fun _ _ => filter_eq_of_units rfl rfl _, fun _ => rfl, fun _ => rfl, nofun, nofun, nofun⟩
    · exact .ofReportAsked rfl ..
    · exact .ofReportAsked rfl ..
  | cdemod =>
    rcases execCdemod_next h with rfl | ⟨-, h⟩
    · exact .ofReport ..
    · exact demodulate_keepsUnnamed (c := s.ref) (d := s.med) (.inl rfl) (fun _ => ⟨rfl, rfl⟩) h
  | cstep =>
    rcases execCstep_next h with rfl | ⟨-, c, d, ⟨r, m, -, h⟩ | rfl | rfl⟩
    · exact .ofReport ..
    · exact demodulate_keepsUnnamed (.inr rfl) nofun h
    · exact .ofReportAsked rfl ..
    · exact .ofReportAsked rfl ..

/-! ### The window bytes that no command writes -/

theorem windowByte_congr {s t : State} {off : Nat}
    (h : ∀ r, regAt off = some r → r.value t = r.value s) : windowByte t off = windowByte s off := by
  unfold windowByte windowBits
  cases hr : regAt off with
  | none => rfl
  | some r => simp only [h r hr]

/-- The registers outside STATUS, RES and the read-only copies of unit state. -/
theorem unwritten_of_regAt {off : Nat} {r : Reg} (hr : regAt off = some r)
    (h : off < 0x04 ∨ (0x08 ≤ off ∧ off < 0x20) ∨ (0x30 ≤ off ∧ off < 0x40) ∨ 0x84 ≤ off) :
    r ∈ [.cmd, .arg0, .arg1, .arg2, Reg.caps] := by
  have hoff := regAt_some hr
  cases r
  case cmd | arg0 | arg1 | arg2 | caps => decide
  all_goals simp only [Reg.offset, Reg.bytes] at hoff; omega

/-- R81, R86: CMD, ARG, CAPS and reserved space read as before any command. -/
theorem exec_windowByte {i : Instr} {s t : State} (h : exec i s = .next t) {off : Nat}
    (hoff : off < 0x04 ∨ (0x08 ≤ off ∧ off < 0x20) ∨ (0x30 ≤ off ∧ off < 0x40) ∨ 0x84 ≤ off) :
    windowByte t off = windowByte s off := by
  refine windowByte_congr fun r hr => ?_
  have hmem := unwritten_of_regAt hr hoff
  rw [exec_frame h]
  fin_cases hmem <;> rfl

/-! ### The settled statements -/

/-- Settles O22: the codes by the ends of each command, the source by its effect. -/
theorem commandsEndWithTheirOwnCodes : Obligations.CommandsEndWithTheirOwnCodes :=
  fun _ _ _ h => ⟨exec_errAllowed h, (exec_effect h).status⟩

/-- Settles O24, from what each command leaves as it was. -/
theorem commandsChangeOnlyWhatTheirRowNames : Obligations.CommandsChangeOnlyWhatTheirRowNames := by
  intro i s t h
  have k := exec_keepsUnnamed h
  refine ⟨exec_args h, ?_, k.filter, k.shifter, k.core, k.res0, k.res1, k.sources,
    fun off hoff => exec_windowByte h hoff⟩
  rw [exec_frame h]
  exact ⟨rfl, rfl, rfl⟩

end Sys2Proof.Machine
end

section
/-! SUPPORT. The core's channel commands as equations (43_lockin_core.md section 2,
44_acquisition_interface.md): what two answers in a row make of CCONN, CACQ and CSTEP. The settled
statements follow. -/

namespace Sys2Proof.Machine

section answers
variable {s : State} {c d : Source} {r m : F64}

/-! ### The end of CCONN (R300) -/

theorem exec_cconn_notConfigured (hc : s.core.cfg = false) :
    exec .cconn s = .next { s with err := .notConfigured, errSrc := .core } :=
  if_pos hc

/-- CCONN by the answer of REF. -/
theorem exec_cconn_ref (hc : s.core.cfg = true) :
    exec .cconn s = match s.ref.answerConnect .ref with
      | (.never, _) => .fault (.portNeverAnswers .ref)
      | (.fail, c) => .next { s with ref := c, err := .deviceUnavailable, errSrc := .ref }
      | (.ok, c) => match s.med.answerConnect .med with
        | (.never, _) => .fault (.portNeverAnswers .med)
        | (.fail, d) => .next { s with ref := c, med := d, err := .deviceUnavailable, errSrc := .med }
        | (.ok, d) => .next { s with ref := c, med := d, err := .none, errSrc := .none } := by
  rw [exec, execCconn, if_neg (by simp [hc]), connectPort_eq, source_ref]
  rcases s.ref.answerConnect .ref with ⟨_ | _ | _, c⟩
  · simp only [connectPort_eq, source_med, setSource_ref_med]
    rcases s.med.answerConnect .med with ⟨_ | _ | _, d⟩ <;> rfl
  · rfl
  · rfl

/-! ### Acquiring a pair (R301) -/

theorem acquirePair_pair (hr : s.ref.answerRead .ref = (.volts r, c))
    (hm : s.med.answerRead .med = (.volts m, d)) : acquirePair s = .pair r m (s.withSources c d) := by
  simp only [acquirePair, readPort_eq, source_ref, source_med, setSource_ref_med, hr, hm]
  rfl

theorem acquirePair_ref_fails (hr : s.ref.answerRead .ref = (.fail, c)) :
    acquirePair s = .failed .ref (s.withSources c s.med) := by
  simp only [acquirePair, readPort_eq, source_ref, hr]
  rfl

theorem acquirePair_med_fails (hr : s.ref.answerRead .ref = (.volts r, c))
    (hm : s.med.answerRead .med = (.fail, d)) :
    acquirePair s = .failed .med (s.withSources c d) := by
  simp only [acquirePair, readPort_eq, source_ref, source_med, setSource_ref_med, hr, hm]
  rfl

theorem acquirePair_ref_never (hr : s.ref.answerRead .ref = (.never, c)) :
    acquirePair s = .waits .ref := by
  simp only [acquirePair, readPort_eq, source_ref, hr]

theorem acquirePair_med_never (hr : s.ref.answerRead .ref = (.volts r, c))
    (hm : s.med.answerRead .med = (.never, d)) : acquirePair s = .waits .med := by
  simp only [acquirePair, readPort_eq, source_ref, source_med, setSource_ref_med, hr, hm]

/-! ### The ends of CACQ (R301) and CSTEP (R312) -/

theorem exec_cacq_notConfigured (hc : s.core.cfg = false) :
    exec .cacq s = .next { s with err := .notConfigured, errSrc := .core } :=
  if_pos hc

theorem exec_cstep_notConfigured (hc : s.core.cfg = false) :
    exec .cstep s = .next { s with err := .notConfigured, errSrc := .core } :=
  if_pos hc

theorem exec_cacq_pair {t : State} (hc : s.core.cfg = true) (ha : acquirePair s = .pair r m t) :
    exec .cacq s = .next { t with res0 := r, res1 := m, err := .none, errSrc := .none } := by
  simp only [exec, execCacq, hc, Bool.true_eq_false, if_false, ha, complete_eq]

theorem exec_cstep_pair {t : State} (hc : s.core.cfg = true) (ha : acquirePair s = .pair r m t) :
    exec .cstep s = demodulate r m t := by
  simp only [exec, execCstep, hc, Bool.true_eq_false, if_false, ha]

/-- Both commands end alike where a read fails. -/
theorem exec_acquire_failed {i : Instr} (hi : i = .cacq ∨ i = .cstep) {p : Port} {t : State}
    (hc : s.core.cfg = true) (ha : acquirePair s = .failed p t) :
    exec i s = .next { t with err := .acquisitionError, errSrc := portSrc p } := by
  rcases hi with rfl | rfl
  · simp only [exec, execCacq, hc, Bool.true_eq_false, if_false, ha, raise_eq]
  · simp only [exec, execCstep, hc, Bool.true_eq_false, if_false, ha, raise_eq]

/-- Both commands stop alike where a source never answers (I11). -/
theorem exec_acquire_waits {i : Instr} (hi : i = .cacq ∨ i = .cstep) {p : Port}
    (hc : s.core.cfg = true) (ha : acquirePair s = .waits p) :
    exec i s = .fault (.portNeverAnswers p) := by
  rcases hi with rfl | rfl
  · simp only [exec, execCacq, hc, Bool.true_eq_false, if_false, ha]
  · simp only [exec, execCstep, hc, Bool.true_eq_false, if_false, ha]

end answers

/-! ### A demodulation reads the units and the estimator only (R310) -/

/-- Two states with the same units and parameters demodulate a pair to the same units, the same STATUS and,
where it completes, the same results; where it does not, both keep their results. -/
theorem demodulate_congr {r m : F64} {s s' v : State} (h : demodulate r m s = .next v)
    (hps : s'.ps = s.ps) (h1 : s'.f1 = s.f1) (h2 : s'.f2 = s.f2) (hp : s'.params = s.params) :
    ∃ w, demodulate r m s' = .next w ∧ w.ps = v.ps ∧ w.f1 = v.f1 ∧ w.f2 = v.f2 ∧ w.err = v.err ∧
      w.errSrc = v.errSrc ∧ w.core = s'.core ∧ w.ref = s'.ref ∧ w.med = s'.med ∧
      (v.err = .none → w.res0 = v.res0 ∧ w.res1 = v.res1) ∧
      (v.err ≠ .none → w.res0 = s'.res0 ∧ w.res1 = s'.res1) := by
  rcases demodulate_next h with ⟨f1, hf1, rfl⟩ | ⟨f1, x, f2, hf1, hf2, rfl⟩ |
    ⟨f1, x, f2, y, hf1, hf2, rfl⟩
  · exact ⟨{ s' with ps := (shiftStep s.ps r).1, f1 := f1, err := .numericalInstability,
                     errSrc := .f1 },
      by simp only [demodulate, h1, hps, hf1, raise_eq],
      rfl, rfl, h2, rfl, rfl, rfl, rfl, rfl, nofun, fun _ => ⟨rfl, rfl⟩⟩
  · exact ⟨{ s' with ps := (shiftStep s.ps r).1, f1 := f1, f2 := f2, err := .numericalInstability,
                     errSrc := .f2 },
      by simp only [demodulate, h1, h2, hps, hf1, hf2, raise_eq],
      rfl, rfl, rfl, rfl, rfl, rfl, rfl, rfl, nofun, fun _ => ⟨rfl, rfl⟩⟩
  · exact ⟨{ s' with ps := (shiftStep s.ps r).1, f1 := f1, f2 := f2,
                     res0 := hypot s.params.estimator x y,
                     res1 := normPhase (atan2 s.params.estimator y x), err := .none, errSrc := .none },
      by simp only [demodulate, h1, h2, hps, hp, hf1, hf2, complete_eq],
      rfl, rfl, rfl, rfl, rfl, rfl, rfl, rfl, fun _ => ⟨rfl, rfl⟩, fun hn => absurd rfl hn⟩

/-! ### The settled statements -/

/-- Settles O39, by the two answers. -/
theorem cconnAsksRefThenMed : Obligations.CconnAsksRefThenMed := by
  refine fun s c d => ⟨exec_cconn_notConfigured, fun hc hr => ?_, fun hc hr hm => ?_,
    fun hc hr hm => ?_, fun hc hr => ?_, fun hc hr hm => ?_⟩
  · simp only [exec_cconn_ref hc, hr]
  · simp only [exec_cconn_ref hc, hr, hm]
  · simp only [exec_cconn_ref hc, hr, hm]
  · simp only [exec_cconn_ref hc, hr]
  · simp only [exec_cconn_ref hc, hr, hm]

/-- Settles O40, by the five ends of AcquirePair. -/
theorem cacqReadsRefThenMed : Obligations.CacqReadsRefThenMed :=
  fun _ _ _ _ _ => ⟨exec_cacq_notConfigured,
    fun hc hr => exec_acquire_failed (.inl rfl) hc (acquirePair_ref_fails hr),
    fun hc hr hm => exec_acquire_failed (.inl rfl) hc (acquirePair_med_fails hr hm),
    fun hc hr hm => exec_cacq_pair hc (acquirePair_pair hr hm),
    fun hc hr => exec_acquire_waits (.inl rfl) hc (acquirePair_ref_never hr),
    fun hc hr hm => exec_acquire_waits (.inl rfl) hc (acquirePair_med_never hr hm)⟩

/-- Settles O43, by the five ends of AcquirePair and the three of the demodulation. -/
theorem cstepAcquiresAndDemodulates : Obligations.CstepAcquiresAndDemodulates :=
  fun s c d _ _ => ⟨exec_cstep_notConfigured,
    fun hc hr => exec_acquire_failed (.inr rfl) hc (acquirePair_ref_fails hr),
    fun hc hr hm => exec_acquire_failed (.inr rfl) hc (acquirePair_med_fails hr hm),
    fun hc hr hm =>
      have e := exec_cstep_pair hc (acquirePair_pair hr hm)
      ⟨fun h => e.trans (demodulate_f1_raises (s := s.withSources c d) h),
        fun hf hi h => e.trans (demodulate_f2_raises (s := s.withSources c d) hf hi h),
        fun hf1 hi hf2 hq => e.trans (demodulate_completes (s := s.withSources c d) hf1 hi hf2 hq)⟩,
    fun hc hr => exec_acquire_waits (.inr rfl) hc (acquirePair_ref_never hr),
    fun hc hr hm => exec_acquire_waits (.inr rfl) hc (acquirePair_med_never hr hm)⟩

/-- Settles O44: both demodulate the same pair from the same units. -/
theorem cstepIsCacqThenCdemod : Obligations.CstepIsCacqThenCdemod := by
  intro s t v hacq ok hdemod
  rcases execCacq_next hacq with rfl | ⟨hc, c, d, ⟨r, m, ha, rfl⟩ | rfl | rfl⟩
  case inr.inl =>
    rw [exec_cdemod_configured (by exact hc)] at hdemod
    obtain ⟨w, hw, hps, h1, h2, he, hsrc, hcore, href, hmed, hres, hkept⟩ :=
      demodulate_congr (s' := s.withSources c d) hdemod rfl rfl rfl rfl
    have frame := demodulate_frame hdemod
    refine ⟨w, (exec_cstep_pair hc ha).trans hw, hps, h1, h2, ?_, ?_, ?_, he, hsrc, hres, hkept⟩
    · rw [hcore, frame]
    · rw [href, frame]
    · rw [hmed, frame]
  all_goals cases ok

end Sys2Proof.Machine
end

section
/-! SUPPORT. Runs of one command, each with its own operand (R46, R260), and two filter units compared
(R232): a run pushes its samples into a sequence in turn. The settled statements follow. -/

namespace Sys2Proof.Machine

/-! ### A sequence after a run of pushes -/

/-- The sequence of `n + 1` live entries after the samples have been pushed in turn (R212, R255). -/
def pushAll (n : Nat) (l xs : List F64) : List F64 := xs.foldl (slide n) l

@[simp] theorem pushAll_cons (n : Nat) (l : List F64) (x : F64) (xs : List F64) :
    pushAll n l (x :: xs) = pushAll n (slide n l x) xs := rfl

@[simp] theorem entry_cons_zero (x : F64) (xs : List F64) : entry (x :: xs) 0 = x := rfl

@[simp] theorem entry_cons_succ (x : F64) (xs : List F64) (i : Nat) :
    entry (x :: xs) (i + 1) = entry xs i := rfl

/-- `i` places before the newest entry stands the sample pushed `i` places before the last or, with fewer
samples pushed, an entry of the old sequence. -/
theorem entry_pushAll {n i : Nat} (hi : i ≤ n) (l xs : List F64) :
    entry (pushAll n l xs) (n - i) =
      if i < xs.length then entry xs (xs.length - 1 - i) else entry l (n - (i - xs.length)) := by
  induction xs generalizing l with
  | nil => rfl
  | cons x xs ih =>
    rw [pushAll_cons, ih, List.length_cons]
    rcases lt_trichotomy i xs.length with h | h | h
    · rw [if_pos h, if_pos (by omega), show xs.length + 1 - 1 - i = (xs.length - 1 - i) + 1 by omega,
        entry_cons_succ]
    · rw [if_neg (by omega), if_pos (by omega), show n - (i - xs.length) = n by omega,
        show xs.length + 1 - 1 - i = 0 by omega, entry_slide_last, entry_cons_zero]
    · rw [if_neg (by omega), if_neg (by omega), entry_slide_lt (by omega),
        show n - (i - xs.length) + 1 = n - (i - (xs.length + 1)) by omega]

/-! ### Runs of PSHIFT (R260) -/

theorem pshiftOutputs_cons {s : State} (hc : s.ps.cfg = true) (x : F64) (xs : List F64) :
    pshiftOutputs s (x :: xs) = (shiftStep s.ps x).2 ::
      pshiftOutputs { s with arg0 := x, ps := (shiftStep s.ps x).1, res0 := (shiftStep s.ps x).2,
                             err := .none, errSrc := .none } xs := by
  simp only [pshiftOutputs, exec_pshift_completes (s := { s with arg0 := x }) hc, if_true]

theorem length_pshiftOutputs {s : State} (hc : s.ps.cfg = true) (xs : List F64) :
    (pshiftOutputs s xs).length = xs.length := by
  induction xs generalizing s with
  | nil => rfl
  | cons x xs ih =>
    rw [pshiftOutputs_cons hc]
    exact congrArg (· + 1) (ih (by exact hc))

/-- The k-th output of a run is read from the buffer into which the first `k + 1` samples were pushed. -/
theorem entry_pshiftOutputs {s : State} (hc : s.ps.cfg = true) (xs : List F64) {k : Nat}
    (hk : k < xs.length) :
    entry (pshiftOutputs s xs) k =
      entry (pushAll (s.ps.half - 1) s.ps.buf (xs.take (k + 1))) (s.ps.half - 1 - s.ps.quarter) := by
  induction xs generalizing s k with
  | nil => cases hk
  | cons x xs ih =>
    rw [pshiftOutputs_cons hc]
    cases k with
    | zero => exact shiftStep_out ..
    | succ k => exact ih (by exact hc) (Nat.lt_of_succ_lt_succ hk)

/-! ### Runs of FFILT (R46) -/

/-- FFILT without error is a filter step whose output is RES[0]. -/
theorem ffilt_success {u : FilterUnit} {s t : State} (h : exec (.ffilt u) s = .next t)
    (ok : t.err = .none) : filterStep (s.filter u) s.arg0 = (t.filter u, some t.res0) := by
  rcases execFfilt_next h with rfl | ⟨-, f, y, hf, rfl⟩ | ⟨-, f, -, rfl⟩
  · cases ok
  · cases u <;> exact hf
  · cases ok

/-- A run of FFILT keeps the order, answers each sample, and pushes inputs and outputs into the histories. -/
theorem ffiltRun_histories {u : FilterUnit} {s t : State} {xs ys : List F64}
    (h : ffiltRun u s xs = some (t, ys)) :
    (t.filter u).order = (s.filter u).order ∧ ys.length = xs.length ∧
      (t.filter u).xh = pushAll (s.filter u).order (s.filter u).xh xs ∧
      (t.filter u).yh = pushAll (s.filter u).order (s.filter u).yh ys := by
  induction xs generalizing s ys with
  | nil =>
    simp only [ffiltRun, Option.some.injEq, Prod.mk.injEq] at h
    obtain ⟨rfl, rfl⟩ := h
    exact ⟨rfl, rfl, rfl, rfl⟩
  | cons x xs ih =>
    rw [ffiltRun] at h
    split at h
    · rename_i s₁ hstep
      split at h
      · rename_i ok
        split at h
        · rename_i t' ys' hrun
          simp only [Option.some.injEq, Prod.mk.injEq] at h
          obtain ⟨rfl, rfl⟩ := h
          obtain ⟨horder, hlen, hx, hy⟩ := ih hrun
          have step := ffilt_success hstep ok
          rw [filter_withArg0] at step
          obtain ⟨-, -, -, hnow⟩ := filterStep_some step
          rw [hnow] at horder hx hy
          exact ⟨horder, congrArg (· + 1) hlen, hx, hy⟩
        · cases h
      · cases h
    · cases h

/-! ### Units configured alike (R232) -/

/-- The coefficients of a configured unit are those of Design, so its triple and what it holds fix it. -/
theorem Filter.Inv.eq_of_alike {p : Params} {f g : Filter} (hf : f.Inv p) (hg : g.Inv p)
    (cf : f.cfg = true) (cg : g.cfg = true) (order : f.order = g.order) (fc : f.fc = g.fc)
    (fs : f.fs = g.fs) (xh : f.xh = g.xh) (yh : f.yh = g.yh) (fault : f.fault = g.fault) : f = g := by
  obtain ⟨-, bf, af, -⟩ := hf.2 cf
  obtain ⟨-, bg, ag, -⟩ := hg.2 cg
  rw [order, fc, fs] at bf af
  cases f
  cases g
  simp_all

/-- FFILT on equal units leaves equal units and the same results. -/
theorem exec_ffilt_same {s : State} (same : s.f1 = s.f2) (hc : s.f1.cfg = true) :
    ∃ t v, exec (.ffilt .f1) s = .next t ∧ exec (.ffilt .f2) s = .next v ∧
      t.f1 = v.f2 ∧ t.res0 = v.res0 ∧ t.err = v.err := by
  have hc2 : s.f2.cfg = true := same ▸ hc
  rcases hs : filterStep s.f1 s.arg0 with ⟨f, _ | y⟩
  · have hs2 : filterStep s.f2 s.arg0 = (f, none) := same ▸ hs
    exact ⟨_, _, exec_ffilt_of_none (u := .f1) hc hs, exec_ffilt_of_none (u := .f2) hc2 hs2,
      rfl, rfl, rfl⟩
  · have hs2 : filterStep s.f2 s.arg0 = (f, some y) := same ▸ hs
    exact ⟨_, _, exec_ffilt_of_some (u := .f1) hc hs, exec_ffilt_of_some (u := .f2) hc2 hs2,
      rfl, rfl, rfl⟩

/-! ### The settled statements -/

/-- Settles O45: the k-th output is read q places before the newest entry of the buffer. -/
theorem pshiftDelaysByTheQuarter : Obligations.PshiftDelaysByTheQuarter := by
  refine fun s xs hc hq hbuf => ⟨length_pshiftOutputs hc xs, fun k hk => ?_⟩
  have length_take : (xs.take (k + 1)).length = k + 1 := by
    rw [List.length_take]
    omega
  rw [entry_pshiftOutputs hc xs hk, entry_pushAll (by omega), length_take, hbuf, entry_zeros]
  by_cases hqk : s.ps.quarter ≤ k
  · rw [if_pos hqk, if_pos (by omega), show k + 1 - 1 - s.ps.quarter = k - s.ps.quarter by omega]
    simp only [entry, List.getD_eq_getElem?_getD, List.getElem?_take]
    rw [if_pos (by omega)]
  · rw [if_neg hqk, if_neg (by omega)]

/-- Settles O46: the histories are those into which the inputs and the outputs were pushed. -/
theorem historiesHoldTheLastSamples : Obligations.HistoriesHoldTheLastSamples := by
  intro u s t xs ys hx hy h
  obtain ⟨horder, hlen, hxh, hyh⟩ := ffiltRun_histories h
  refine ⟨horder, hlen, fun i hi => ?_⟩
  rw [hxh, hyh, hx, hy, entry_pushAll hi, entry_pushAll hi, entry_zeros, entry_zeros]
  exact ⟨rfl, rfl⟩

/-- Settles O48: the invariant gives equal coefficients, so the units are equal. -/
theorem equalUnitsStayEqual : Obligations.EqualUnitsStayEqual :=
  fun _ hi c1 c2 order fc fs xh yh fault =>
    exec_ffilt_same (hi.f1.eq_of_alike hi.f2 c1 c2 order fc fs xh yh fault) c1

/-- Settles O51: a finite output of the recursion has a finite input. -/
theorem nonFiniteInputFaultsTheUnit : Obligations.NonFiniteInputFaultsTheUnit := by
  intro u s hc hx
  refine exec_ffilt_raises hc (.inr ?_)
  rw [← filterOutput_eq_recursion, ← Bool.not_eq_true]
  exact fun hy => absurd ((filterOutput_finite hy).symm.trans hx) (by decide)

end Sys2Proof.Machine
end

section
/-! SUPPORT. Rounding as an order of patterns (40_numerics.md section 1): the rounded magnitude is above a
pattern exactly when the real is past the midpoint of that pattern and the next. Everything about rounding
follows from this one equivalence. -/

namespace Sys2Proof.Machine

theorem strictMono_magUnits : StrictMono magUnits := fun _ _ => magUnits_strictMono

theorem magUnits_pos_iff {m : Nat} : 0 < magUnits m ↔ 0 < m := by
  rw [← magUnits_zero]
  exact strictMono_magUnits.lt_iff_lt

/-! ### The pattern below a rational -/

/-- The largest pattern of at most `num / den` units, above infinity too. -/
def floorPattern (num den : Nat) : Nat :=
  binade num den * 2 ^ 52 + num / (den * 2 ^ binade num den)

theorem magUnits_floorPattern (num den : Nat) :
    magUnits (floorPattern num den) = num / (den * 2 ^ binade num den) * 2 ^ binade num den := by
  obtain ⟨hlt, hbin⟩ := binade_significand num den
  exact magUnits_pattern hlt.le hbin

theorem magUnits_floorPattern_succ (num den : Nat) :
    magUnits (floorPattern num den + 1) =
      (num / (den * 2 ^ binade num den) + 1) * 2 ^ binade num den := by
  obtain ⟨hlt, hbin⟩ := binade_significand num den
  rw [floorPattern, Nat.add_assoc, magUnits_pattern (Nat.succ_le_of_lt hlt) (by omega)]

/-- `num / den` units lie from the pattern below on, and before the next one. -/
theorem floorPattern_bracket (num : Nat) {den : Nat} (h : 0 < den) :
    magUnits (floorPattern num den) * den ≤ num ∧ num < magUnits (floorPattern num den + 1) * den := by
  rw [magUnits_floorPattern, magUnits_floorPattern_succ, mul_assoc, mul_assoc,
    mul_comm (2 ^ binade num den)]
  exact ⟨Nat.div_mul_le_self _ _, Nat.lt_mul_of_div_lt (Nat.lt_succ_self _) (by positivity)⟩

/-! ### Midpoints -/

/-- Twice the midpoint of a pattern and the next one, in units. -/
def twiceMid (k : Nat) : Nat := magUnits k + magUnits (k + 1)

/-- `num / den` units round above the pattern `k`: they are past its midpoint, or on it with `k` odd. -/
def RoundsAbove (k num den : Nat) : Prop :=
  twiceMid k * den < 2 * num ∨ twiceMid k * den = 2 * num ∧ k % 2 = 1

/-- Rounding the pattern below a rational up or not is a question of its midpoint. -/
theorem roundMag_cases (num den : Nat) :
    (RoundsAbove (floorPattern num den) num den ∧
      roundMag num den = min (floorPattern num den + 1) infBits) ∨
    (¬ RoundsAbove (floorPattern num den) num den ∧
      roundMag num den = min (floorPattern num den) infBits) := by
  have twice : twiceMid (floorPattern num den) * den =
      2 * (den * 2 ^ binade num den * (num / (den * 2 ^ binade num den))) +
        den * 2 ^ binade num den := by
    rw [twiceMid, magUnits_floorPattern, magUnits_floorPattern_succ]
    ring
  have division := Nat.div_add_mod num (den * 2 ^ binade num den)
  have parity : floorPattern num den % 2 = num / (den * 2 ^ binade num den) % 2 := by
    rw [floorPattern]
    omega
  have up : RoundsAbove (floorPattern num den) num den ↔
      den * 2 ^ binade num den < 2 * (num % (den * 2 ^ binade num den)) ∨
      2 * (num % (den * 2 ^ binade num den)) = den * 2 ^ binade num den ∧
        num / (den * 2 ^ binade num den) % 2 = 1 := by
    rw [RoundsAbove, twice, parity]
    omega
  by_cases hu : RoundsAbove (floorPattern num den) num den
  · refine .inl ⟨hu, ?_⟩
    rw [up] at hu
    simp only [roundMag, Bool.or_eq_true, Bool.and_eq_true, decide_eq_true_eq, if_pos hu,
      floorPattern, Nat.add_assoc]
  · refine .inr ⟨hu, ?_⟩
    rw [up] at hu
    simp only [roundMag, Bool.or_eq_true, Bool.and_eq_true, decide_eq_true_eq, if_neg hu,
      floorPattern]

/-- The rounded magnitude is above a finite pattern exactly when the real rounds above it. -/
theorem lt_roundMag_iff {k num den : Nat} (h : 0 < den) (hk : k < infBits) :
    k < roundMag num den ↔ RoundsAbove k num den := by
  obtain ⟨hle, hlt⟩ := floorPattern_bracket num h
  rcases lt_trichotomy k (floorPattern num den) with hkp | rfl | hkp
  · have below : twiceMid k * den < 2 * num := by
      have h1 := Nat.mul_lt_mul_of_pos_right (magUnits_strictMono hkp) h
      have h2 := Nat.mul_le_mul_right den (strictMono_magUnits.monotone (show k + 1 ≤ _ from hkp))
      rw [twiceMid, add_mul]
      omega
    refine iff_of_true ?_ (.inl below)
    rcases roundMag_cases num den with ⟨-, hr⟩ | ⟨-, hr⟩ <;> rw [hr] <;> omega
  · rcases roundMag_cases num den with ⟨hu, hr⟩ | ⟨hu, hr⟩
    · exact iff_of_true (by rw [hr]; omega) hu
    · exact iff_of_false (by rw [hr]; omega) hu
  · have above : 2 * num < twiceMid k * den := by
      have h1 := Nat.mul_le_mul_right den (strictMono_magUnits.monotone (show _ + 1 ≤ k from hkp))
      have h2 := Nat.mul_le_mul_right den (strictMono_magUnits.monotone (show k ≤ k + 1 by omega))
      rw [twiceMid, add_mul]
      omega
    refine iff_of_false ?_ (by rw [RoundsAbove]; omega)
    rcases roundMag_cases num den with ⟨-, hr⟩ | ⟨-, hr⟩ <;> rw [hr] <;> omega

/-- A rational of at most a pattern's units does not round above it. -/
theorem roundMag_le_of_le {k num den : Nat} (h : 0 < den) (hk : k < infBits)
    (hle : num ≤ magUnits k * den) : roundMag num den ≤ k := by
  rw [← not_lt, lt_roundMag_iff h hk, RoundsAbove, twiceMid, add_mul]
  have := Nat.mul_lt_mul_of_pos_right (magUnits_strictMono (show k < k + 1 by omega)) h
  omega

/-! ### The nearest pattern (R161) -/

/-- Of two values on one side of the other, the one whose midpoint with it is not past `x` is no nearer. -/
theorem abs_sub_le_of_add_le {a b x : Int} (hab : a < b) (h : a + b ≤ 2 * x) :
    |b - x| ≤ |a - x| ∧ (|b - x| = |a - x| → a + b = 2 * x) := by
  rw [abs_of_nonpos (by omega : a - x ≤ 0)]
  rcases abs_cases (b - x) with ⟨hb, -⟩ | ⟨hb, -⟩ <;> omega

theorem abs_sub_le_of_le_add {a b x : Int} (hab : b < a) (h : 2 * x ≤ a + b) :
    |b - x| ≤ |a - x| ∧ (|b - x| = |a - x| → a + b = 2 * x) := by
  rw [abs_of_nonneg (by omega : 0 ≤ a - x)]
  rcases abs_cases (b - x) with ⟨hb, -⟩ | ⟨hb, -⟩ <;> omega

/-- No other pattern is nearer than the rounded one, and one as near leaves it even. -/
theorem roundMag_nearest {num den k : Nat} (h : 0 < den) (hfin : roundMag num den < infBits)
    (hne : k ≠ roundMag num den) :
    |(magUnits (roundMag num den) : Int) * den - num| ≤ |(magUnits k : Int) * den - num| ∧
    (|(magUnits (roundMag num den) : Int) * den - num| = |(magUnits k : Int) * den - num| →
      roundMag num den % 2 = 0) := by
  have units {a b : Nat} (hab : a < b) : (magUnits a : Int) * den < magUnits b * den := by
    exact_mod_cast Nat.mul_lt_mul_of_pos_right (magUnits_strictMono hab) h
  generalize hm : roundMag num den = m at *
  rcases Nat.lt_or_gt_of_ne hne with hlt | hlt
  · obtain ⟨j, rfl⟩ : ∃ j, m = j + 1 := ⟨m - 1, by omega⟩
    have above := (lt_roundMag_iff (num := num) (k := j) h (by omega)).1 (by omega)
    rw [RoundsAbove, twiceMid, add_mul] at above
    have hkj : (magUnits k : Int) * den ≤ magUnits j * den := by
      exact_mod_cast Nat.mul_le_mul_right den (strictMono_magUnits.monotone (by omega : k ≤ j))
    obtain ⟨hle, htie⟩ := abs_sub_le_of_add_le (x := num) (units hlt) (by omega)
    exact ⟨hle, fun heq => by have := htie heq; omega⟩
  · have notAbove := mt (lt_roundMag_iff (num := num) (k := m) h hfin).2 (by omega)
    rw [RoundsAbove, twiceMid, add_mul] at notAbove
    have hmk : (magUnits (m + 1) : Int) * den ≤ magUnits k * den := by
      exact_mod_cast Nat.mul_le_mul_right den (strictMono_magUnits.monotone (by omega : m + 1 ≤ k))
    obtain ⟨hle, htie⟩ := abs_sub_le_of_le_add (x := num) (units hlt) (by omega)
    exact ⟨hle, fun heq => by have := htie heq; omega⟩

/-! ### Infinity (R161) -/

theorem twiceMid_largest : twiceMid (infBits - 1) = 2 * hypotLimit := by
  rw [twiceMid, show infBits - 1 + 1 = infBits by decide, magUnits_infBits, magUnits_largest]
  decide +kernel

/-- The rounded magnitude is infinite exactly from 2^1024 − 2^970 on. -/
theorem roundMag_eq_infBits_iff {num den : Nat} (h : 0 < den) :
    roundMag num den = infBits ↔ hypotLimit * den ≤ num := by
  have inf : infBits - 1 < infBits ∧ (infBits - 1) % 2 = 1 := by decide
  have top := lt_roundMag_iff (num := num) h inf.1
  have le := roundMag_le num den
  rw [RoundsAbove, twiceMid_largest, mul_assoc] at top
  omega

/-- Settles O53, from the midpoint that a rounded magnitude is past. -/
theorem roundingIsToNearestEven : Obligations.RoundingIsToNearestEven := by
  refine fun num den h => ⟨roundMag_eq_infBits_iff h, fun hfin k _ hne => roundMag_nearest h hfin hne,
    ?_, fun b => ⟨signBit_rne b num den, magBits_rne b num den⟩⟩
  rw [rne, roundMag_zero]
  rfl

end Sys2Proof.Machine
end

section
/-! SUPPORT. The basic operations and the exact-real checks (40_numerics.md sections 1 and 2): the class of
a result from the classes of its operands, the range of a quotient, and what the core's shifter check says of
its cutoff. The settled statements follow. -/

namespace Sys2Proof.Machine

/-! ### Classes and real values under a change of sign (R162, R164) -/

@[simp] theorem isNaN_neg64 (v : F64) : isNaN (neg64 v) = isNaN v := by simp [isNaN]

@[simp] theorem isInf_neg64 (v : F64) : isInf (neg64 v) = isInf v := by simp [isInf]

@[simp] theorem natAbs_real (v : F64) : (real v).natAbs = magUnits (magBits v) := by
  unfold real
  split
  · rw [Int.natAbs_neg, Int.natAbs_natCast]
  · rw [Int.natAbs_natCast]

@[simp] theorem real_neg64 (v : F64) : real (neg64 v) = -real v := by
  rw [real, real, signBit_neg64, magBits_neg64]
  cases signBit v <;> simp

theorem isZero_iff_real (v : F64) : isZero v = true ↔ real v = 0 := by
  rw [← Int.natAbs_eq_zero, natAbs_real, isZero, decide_eq_true_eq, ← Nat.le_zero, ← Nat.le_zero,
    ← not_lt, ← not_lt, magUnits_pos_iff]

theorem inf_classes {v : F64} (h : isInf v = true) : isNaN v = false ∧ isZero v = false := by
  rw [isInf_iff] at h
  rw [isNaN, isZero, h]
  decide

/-! ### The operations by the classes of their operands (R162) -/

section operations
variable {x y : F64}

theorem add64_of_finite (hx : isFinite x = true) (hy : isFinite y = true) :
    add64 x y = addFinite x y := by
  simp [add64, finite_classes hx, finite_classes hy]

theorem add64_of_nan (h : isNaN x = true ∨ isNaN y = true) : add64 x y = nanResult := by
  rcases h with h | h <;> simp [add64, h]

theorem mul64_of_nan (h : isNaN x = true ∨ isNaN y = true) : mul64 x y = nanResult := by
  rcases h with h | h <;> simp [mul64, h]

theorem div64_of_nan (h : isNaN x = true ∨ isNaN y = true) : div64 x y = nanResult := by
  rcases h with h | h <;> simp [div64, h]

theorem add64_of_inf_finite (hx : isInf x = true) (hy : isFinite y = true) : add64 x y = x := by
  simp [add64, inf_classes hx, hx, finite_classes hy]

theorem add64_of_inf_inf (hx : isInf x = true) (hy : isInf y = true) :
    add64 x y = if signBit x = signBit y then x else nanResult := by
  simp [add64, inf_classes hx, inf_classes hy, hx, hy]

theorem mul64_of_inf_finite (hx : isInf x = true) (hy : isFinite y = true) :
    mul64 x y = if isZero y then nanResult else pack (signBit x != signBit y) infBits := by
  simp [mul64, inf_classes hx, hx, finite_classes hy]

theorem mul64_of_inf_inf (hx : isInf x = true) (hy : isInf y = true) :
    mul64 x y = pack (signBit x != signBit y) infBits := by
  simp [mul64, inf_classes hx, inf_classes hy, hx]

theorem mul64_of_finite (hx : isFinite x = true) (hy : isFinite y = true) :
    mul64 x y = rne (signBit x != signBit y) (real x * real y).natAbs (2 ^ 1074) := by
  rw [Int.natAbs_mul, natAbs_real, natAbs_real]
  simp [mul64, finite_classes hx, finite_classes hy, unitsOne]

theorem div64_of_finite (hx : isFinite x = true) (hy : isFinite y = true) (h0 : isZero y = false) :
    div64 x y = rne (signBit x != signBit y) ((real x).natAbs * 2 ^ 1074) (real y).natAbs := by
  rw [natAbs_real, natAbs_real]
  simp [div64, finite_classes hx, finite_classes hy, h0, unitsOne]

theorem div64_of_inf_inf (hx : isInf x = true) (hy : isInf y = true) : div64 x y = nanResult := by
  simp [div64, inf_classes hx, inf_classes hy, hx, hy]

theorem div64_of_inf_finite (hx : isInf x = true) (hy : isFinite y = true) :
    div64 x y = pack (signBit x != signBit y) infBits := by
  simp [div64, inf_classes hx, hx, finite_classes hy]

theorem div64_of_finite_inf (hx : isFinite x = true) (hy : isInf y = true) :
    div64 x y = pack (signBit x != signBit y) 0 := by
  simp [div64, inf_classes hy, hy, finite_classes hx]

theorem div64_of_zero (hx : isFinite x = true) (hy : isZero y = true) :
    div64 x y = if isZero x then nanResult else pack (signBit x != signBit y) infBits := by
  simp [div64, finite_classes hx, finite_classes (isZero_finite hy), hy]

end operations

/-- Settles O54, by the classes of the operands; a difference is the sum with the other sign. -/
theorem basicOperationsFollowTheStandard : Obligations.BasicOperationsFollowTheStandard := by
  refine ⟨fun x y hx hy => ?_, fun x y h => ?_, fun x y hx hy => ?_, fun x y hx hy => ?_,
    fun x y hx hy => ?_⟩
  · have hny : isFinite (neg64 y) = true := (isFinite_neg64 y).trans hy
    rw [sub64, add64_of_finite hx hy, add64_of_finite hx hny, addFinite, addFinite, real_neg64,
      signBit_neg64, ← sub_eq_add_neg]
    refine ⟨fun h => if_neg h, fun h => if_neg h, fun h => ?_, fun h => ?_, mul64_of_finite hx hy,
      fun h => div64_of_finite hx hy ?_⟩
    · simp [h]
    · simp [h]
    · rw [← Bool.not_eq_true, isZero_iff_real]
      exact h
  · rw [sub64, add64_of_nan h, add64_of_nan (by rwa [isNaN_neg64]), mul64_of_nan h, div64_of_nan h]
    decide
  · have hny : isInf (neg64 y) = true := (isInf_neg64 y).trans hy
    rw [sub64, add64_of_inf_inf hx hy, add64_of_inf_inf hx hny, signBit_neg64, div64_of_inf_inf hx hy]
    refine ⟨fun hs => ?_, fun hs => ?_, mul64_of_inf_inf hx hy, nanResult_isNaN⟩
    · rw [if_neg hs, if_pos (Bool.eq_not_of_ne hs)]
      exact ⟨nanResult_isNaN, rfl⟩
    · rw [if_pos hs, hs, if_neg (by simp)]
      exact ⟨rfl, nanResult_isNaN⟩
  · have hny : isFinite (neg64 y) = true := (isFinite_neg64 y).trans hy
    have hnx : isInf (neg64 x) = true := (isInf_neg64 x).trans hx
    rw [sub64, sub64, add64_comm y x, add64_comm y (neg64 x), mul64_comm y x, add64_of_inf_finite hx hy,
      add64_of_inf_finite hx hny, add64_of_inf_finite hnx hy, mul64_of_inf_finite hx hy,
      div64_of_inf_finite hx hy, div64_of_finite_inf hy hx, bne_comm (a := signBit y)]
    refine ⟨rfl, rfl, rfl, rfl, fun h0 => ?_, fun h0 => ?_, rfl, rfl⟩
    · rw [if_pos h0]
      exact ⟨nanResult_isNaN, nanResult_isNaN⟩
    · rw [h0]
      exact ⟨rfl, rfl⟩
  · rw [div64_of_zero hx hy]
    refine ⟨fun h0 => ?_, fun h0 => ?_⟩
    · rw [if_pos h0, nanResult_isNaN]
    · rw [h0]
      rfl

/-! ### Frequencies (R166, R170) -/

theorem validFreq_iff (v : F64) :
    validFreq v = true ↔ signBit v = false ∧ 0 < magBits v ∧ magBits v < infBits := by
  rw [validFreq, Bool.and_eq_true, isFinite_iff, decide_eq_true_eq]
  constructor
  · rintro ⟨hfin, hpos⟩
    have hs := signBit_of_real_pos hpos
    rw [real_of_signBit_false hs, Int.natCast_pos, magUnits_pos_iff] at hpos
    exact ⟨hs, hpos, hfin⟩
  · rintro ⟨hs, hpos, hfin⟩
    rw [real_of_signBit_false hs, Int.natCast_pos, magUnits_pos_iff]
    exact ⟨hfin, hpos⟩

/-- A valid frequency as a number of units. -/
theorem real_of_validFreq {v : F64} (h : validFreq v = true) : real v = magUnits (magBits v) :=
  real_of_signBit_false (signBit_of_real_pos (validFreq_pos h))

theorem magUnits_pos_of_validFreq {v : F64} (h : validFreq v = true) : 0 < magUnits (magBits v) :=
  magUnits_pos_iff.2 ((validFreq_iff v).1 h).2.1

/-- Settles O55: each check is a comparison of integers. -/
theorem frequencyChecksAreExact : Obligations.FrequencyChecksAreExact := by
  refine ⟨validFreq_iff, fun fc fs h => ?_, fun fs fr fl h => ?_,
    fun v w hv _ => ⟨eq_of_real_eq (validFreq_pos hv), congrArg real⟩⟩
  · rw [belowNyquist, h]
    exact decide_eq_false (lt_irrefl _)
  · rw [oversampled, h]
    exact decide_eq_true le_rfl

/-! ### The normalized cutoff (R168) -/

/-- The pattern of 1.0. -/
def oneBits : Nat := 0x3FF0000000000000

theorem magUnits_oneBits : magUnits oneBits = 2 ^ 1074 := by decide +kernel

theorem twiceMid_below_one : twiceMid (oneBits - 1) = (2 ^ 54 - 1) * 2 ^ 1021 := by decide +kernel

theorem oneBits_finite : oneBits < infBits := by decide

section cutoff
variable {c f : Nat}

/-- RNE(2c/f) is +0.0 exactly where 2c/f is at most 2^-1075. -/
theorem roundMag_ratio_eq_zero_iff (hf : 0 < f) :
    roundMag (2 * c * unitsOne) f = 0 ↔ 2 * c * 2 ^ 1075 ≤ f := by
  have zero := lt_roundMag_iff (num := 2 * c * unitsOne) (k := 0) hf (by decide)
  have unit : twiceMid 0 = 1 := by decide
  have double : 2 * c * 2 ^ 1075 = 2 * (2 * c * unitsOne) := by
    rw [unitsOne, pow_succ' 2 1074]
    ring
  rw [RoundsAbove, unit] at zero
  omega

/-- RNE(2c/f) is at least 1.0 exactly where 2c/f is at least 1 − 2^-54. -/
theorem oneBits_le_roundMag_ratio_iff (hf : 0 < f) :
    oneBits ≤ roundMag (2 * c * unitsOne) f ↔ (2 ^ 54 - 1) * f ≤ 2 ^ 54 * (2 * c) := by
  have below : oneBits - 1 < infBits ∧ (oneBits - 1) % 2 = 1 ∧ oneBits - 1 + 1 = oneBits := by decide
  have scale : 2 * (2 * c * unitsOne) = 2 ^ 54 * (2 * c) * 2 ^ 1021 := by
    rw [unitsOne, pow_add 2 53 1021]
    ring
  calc oneBits ≤ roundMag (2 * c * unitsOne) f
      ↔ oneBits - 1 < roundMag (2 * c * unitsOne) f := by omega
    _ ↔ twiceMid (oneBits - 1) * f ≤ 2 * (2 * c * unitsOne) := by
      rw [lt_roundMag_iff hf below.1, RoundsAbove, and_iff_left below.2.1, le_iff_lt_or_eq]
    _ ↔ (2 ^ 54 - 1) * f ≤ 2 ^ 54 * (2 * c) := by
      rw [twiceMid_below_one, scale, mul_right_comm]
      exact Nat.mul_le_mul_right_iff (Nat.two_pow_pos 1021)

/-- Below Nyquist, RNE(2c/f) is at most 1.0. -/
theorem roundMag_ratio_le_one (hf : 0 < f) (h : 2 * c < f) :
    roundMag (2 * c * unitsOne) f ≤ oneBits := by
  refine roundMag_le_of_le hf oneBits_finite ?_
  rw [magUnits_oneBits, mul_comm (2 ^ 1074)]
  exact Nat.mul_le_mul_right _ h.le

end cutoff

/-- Settles O56: each bound is a midpoint of the rounding. -/
theorem normalizedCutoffIsInTheUnitInterval : Obligations.NormalizedCutoffIsInTheUnitInterval := by
  intro fc fs hfc hfs hn
  rw [belowNyquist, decide_eq_true_eq, real_of_validFreq hfc, real_of_validFreq hfs] at hn
  have hf := magUnits_pos_of_validFreq hfs
  have hle := roundMag_ratio_le_one hf (by exact_mod_cast hn)
  have zero := roundMag_ratio_eq_zero_iff (c := magUnits (magBits fc)) hf
  have one := oneBits_le_roundMag_ratio_iff (c := magUnits (magBits fc)) hf
  rw [wnOf, real_of_validFreq hfc, real_of_validFreq hfs, signBit_rne, magBits_rne, Int.toNat_natCast,
    Int.toNat_natCast]
  refine ⟨rfl, hle, zero.trans ?_, Iff.trans ?_ (one.trans ?_)⟩
  · exact_mod_cast Iff.rfl
  · exact le_antisymm_iff.trans (and_iff_right hle)
  · omega

/-! ### The core's cutoff (R169, R290) -/

theorem ten64_units : magUnits (magBits ten64) = 10 * unitsOne := by decide +kernel

theorem cutoffOf_eq {fr : F64} (h : validFreq fr = true) :
    cutoffOf fr = rne false (magUnits (magBits fr) * unitsOne) (10 * unitsOne) := by
  have hs := signBit_of_real_pos (validFreq_pos h)
  rw [cutoffOf, div64_of_finite (validFreq_finite h) (by decide) (by decide), natAbs_real, natAbs_real,
    ten64_units, hs]
  rfl

/-- A tenth of a frequency does not round above the frequency. -/
theorem magBits_cutoffOf_le {fr : F64} (h : validFreq fr = true) : magBits (cutoffOf fr) ≤ magBits fr := by
  rw [cutoffOf_eq h, magBits_rne]
  have one : 0 < unitsOne := by rw [unitsOne]; positivity
  refine roundMag_le_of_le (by omega) ((validFreq_iff fr).1 h).2.2 ?_
  exact Nat.mul_le_mul_left _ (by omega)

theorem signBit_cutoffOf {fr : F64} (h : validFreq fr = true) : signBit (cutoffOf fr) = false := by
  rw [cutoffOf_eq h, signBit_rne]

theorem validFreq_cutoffOf_iff {fr : F64} (h : validFreq fr = true) :
    validFreq (cutoffOf fr) = true ↔ isZero (cutoffOf fr) = false := by
  have hle := magBits_cutoffOf_le h
  have hfin := ((validFreq_iff fr).1 h).2.2
  rw [validFreq_iff, isZero, decide_eq_false_iff_not, signBit_cutoffOf h, eq_self, true_and]
  omega

theorem belowNyquist_cutoffOf {p : Params} {fs fr : F64} (h : shiftValid p fs fr 4 = true) :
    belowNyquist (cutoffOf fr) fs = true := by
  obtain ⟨-, -, hfr, hover, -⟩ := shiftValid_parts h
  have hpos := magUnits_pos_of_validFreq hfr
  have hle := strictMono_magUnits.monotone (magBits_cutoffOf_le hfr)
  rw [real_of_validFreq hfr] at hover
  rw [belowNyquist, decide_eq_true_eq, real_of_signBit_false (signBit_cutoffOf hfr)]
  omega

/-- Settles O57: a quarter of the sample frequency is above the reference, and so above its tenth. -/
theorem coreCutoffIsBelowNyquist : Obligations.CoreCutoffIsBelowNyquist := by
  intro p n fs fr h
  have nyquist := belowNyquist_cutoffOf h
  obtain ⟨-, hfs, hfr, -, -⟩ := shiftValid_parts h
  refine ⟨nyquist, ?_⟩
  rw [filterValid, nyquist, hfs, Bool.and_true, Bool.and_true, Bool.and_eq_false_iff,
    Bool.and_eq_false_iff, decide_eq_false_iff_not, decide_eq_false_iff_not, not_le, not_le,
    ← Bool.not_eq_true, validFreq_cutoffOf_iff hfr, Bool.not_eq_false, or_assoc]

end Sys2Proof.Machine
end

section
/-! SUPPORT. Magnitude (40_numerics.md R175): the pattern below a square root, the patterns Hypot may return
around it, and their distance from the root. The settled statements follow. -/

namespace Sys2Proof.Machine

/-! ### The pattern below a square root -/

/-- The largest pattern of at most `sqrt n` units. -/
def rootPattern (n : Nat) : Nat := (n.log2 / 2 - 52) * 2 ^ 52 + isqrt (n / 4 ^ (n.log2 / 2 - 52))

theorem le_isqrt {n m : Nat} (h : m * m ≤ n) : m ≤ isqrt n := by
  have hlt := h.trans_lt (isqrt_spec n).2
  exact Nat.le_of_lt_succ (Nat.mul_self_lt_mul_self_iff.1 hlt)

/-- Above the lowest binade the significand is normal. -/
theorem root_significand_normal (n : Nat) :
    n.log2 / 2 - 52 = 0 ∨ 2 ^ 52 ≤ isqrt (n / 4 ^ (n.log2 / 2 - 52)) := by
  rcases Nat.eq_zero_or_pos (n.log2 / 2 - 52) with he | he
  · exact .inl he
  · refine .inr (le_isqrt ?_)
    have hn : n ≠ 0 := by
      rintro rfl
      simp at he
    rw [Nat.le_div_iff_mul_le (by positivity), show (4 : Nat) = 2 ^ 2 by norm_num, ← pow_mul, ← pow_add,
      ← pow_add]
    exact (Nat.pow_le_pow_right (by norm_num) (by omega)).trans (Nat.log2_self_le hn)

section root
variable {n : Nat}

theorem magUnits_rootPattern (h : n < hypotLimit * hypotLimit) : magUnits (rootPattern n) =
    isqrt (n / 4 ^ (n.log2 / 2 - 52)) * 2 ^ (n.log2 / 2 - 52) :=
  magUnits_pattern (hypot_significand h).1.le (root_significand_normal n)

theorem magUnits_rootPattern_succ (h : n < hypotLimit * hypotLimit) : magUnits (rootPattern n + 1) =
    (isqrt (n / 4 ^ (n.log2 / 2 - 52)) + 1) * 2 ^ (n.log2 / 2 - 52) := by
  have normal := root_significand_normal n
  rw [rootPattern, Nat.add_assoc, magUnits_pattern (hypot_significand h).1 (by omega)]

theorem square_scaled (t e : Nat) : t * t * 4 ^ e = t * 2 ^ e * (t * 2 ^ e) := by
  rw [show (4 : Nat) = 2 * 2 by norm_num, mul_pow]
  ring

/-- The square root lies from the pattern below on, and before the next one. -/
theorem rootPattern_bracket (h : n < hypotLimit * hypotLimit) :
    magUnits (rootPattern n) * magUnits (rootPattern n) ≤ n ∧
      n < magUnits (rootPattern n + 1) * magUnits (rootPattern n + 1) := by
  obtain ⟨hle, hlt⟩ := isqrt_spec (n / 4 ^ (n.log2 / 2 - 52))
  rw [magUnits_rootPattern h, magUnits_rootPattern_succ h, ← square_scaled, ← square_scaled]
  exact ⟨Nat.mul_le_of_le_div _ _ _ hle, Nat.lt_mul_of_div_lt hlt (by positivity)⟩

theorem magUnits_largest_lt_limit : magUnits (infBits - 1) < hypotLimit := by
  rw [magUnits_largest]
  decide +kernel

theorem limit_lt_magUnits_infBits : hypotLimit < magUnits infBits := by
  rw [magUnits_infBits]
  decide +kernel

theorem rootPattern_finite (h : n < hypotLimit * hypotLimit) : rootPattern n < infBits := by
  have hlt := Nat.mul_self_lt_mul_self_iff.1 ((rootPattern_bracket h).1.trans_lt h)
  exact strictMono_magUnits.lt_iff_lt.1 (hlt.trans limit_lt_magUnits_infBits)

/-- The square of a pattern's units has that pattern below its root. -/
theorem rootPattern_square {k : Nat} (h : magUnits k * magUnits k < hypotLimit * hypotLimit) :
    rootPattern (magUnits k * magUnits k) = k := by
  obtain ⟨hle, hlt⟩ := rootPattern_bracket h
  have h1 := strictMono_magUnits.le_iff_le.1 (Nat.mul_self_le_mul_self_iff.1 hle)
  have h2 := strictMono_magUnits.lt_iff_lt.1 (Nat.mul_self_lt_mul_self_iff.1 hlt)
  omega

end root

/-! ### The allowed patterns (R175) -/

/-- Twice the midpoint of the patterns on either side of `m`, in units. -/
def twiceMidAround (m : Nat) : Nat := magUnits (m - 1) + magUnits (m + 1)

/-- A choice is one of the allowed patterns. -/
theorem choose_mem {a : Allowed} (h : a.lo ≤ a.hi)
    (hn : ∀ m, a.nearest = some m → a.lo ≤ m ∧ m ≤ a.hi) (e : Estimator) (free : Nat) :
    a.lo ≤ a.choose e free ∧ a.choose e free ≤ a.hi := by
  have hpick : a.lo ≤ a.pick free ∧ a.pick free ≤ a.hi := by
    unfold Allowed.pick
    split
    · exact ⟨le_rfl, h⟩
    · split
      · assumption
      · exact ⟨le_rfl, h⟩
  unfold Allowed.choose
  split
  · exact hn _ ‹_›
  · exact hpick
  · exact hpick

theorem choose_only (k : Nat) (e : Estimator) (free : Nat) :
    Allowed.choose ⟨k, k, some k⟩ e free = k := by
  obtain ⟨h1, h2⟩ := choose_mem (a := ⟨k, k, some k⟩) le_rfl (by simp) e free
  exact le_antisymm h2 h1

/-- The patterns allowed for a root between `m` and `m + 1`, when it is neither. -/
def allowedAround (n m : Nat) (nearest : Nat) : Allowed :=
  if m + 1 = infBits ∨ 4 * n < twiceMidAround m * twiceMidAround m then ⟨m - 1, m, some nearest⟩
  else if 4 * n = twiceMidAround m * twiceMidAround m then ⟨m - 1, m + 1, some nearest⟩
  else ⟨m, m + 1, some nearest⟩

section allowed
variable {n : Nat}

theorem hypotAllowed_infinite (h : hypotLimit * hypotLimit ≤ n) :
    hypotAllowed n = ⟨infBits, infBits, some infBits⟩ := by
  simp only [hypotAllowed, if_pos h]

theorem hypotAllowed_exact (h : n < hypotLimit * hypotLimit)
    (hexact : magUnits (rootPattern n) * magUnits (rootPattern n) = n) :
    hypotAllowed n = ⟨rootPattern n, rootPattern n, some (rootPattern n)⟩ := by
  rw [magUnits_rootPattern h, ← square_scaled] at hexact
  rw [hypotAllowed, if_neg (not_le.2 h), if_pos hexact]
  rfl

/-- Where the root is no pattern, the correctly rounded one is a neighbour of it, and the one below where
the root is before the midpoint. -/
theorem hypotAllowed_inexact (h : n < hypotLimit * hypotLimit)
    (inexact : magUnits (rootPattern n) * magUnits (rootPattern n) ≠ n) :
    ∃ nearest, hypotAllowed n = allowedAround n (rootPattern n) nearest ∧
      rootPattern n ≤ nearest ∧ nearest ≤ rootPattern n + 1 ∧
      (4 * n < twiceMid (rootPattern n) * twiceMid (rootPattern n) → nearest = rootPattern n) := by
  have mid : twiceMid (rootPattern n) = (2 * isqrt (n / 4 ^ (n.log2 / 2 - 52)) + 1) *
      2 ^ (n.log2 / 2 - 52) := by
    rw [twiceMid, magUnits_rootPattern h, magUnits_rootPattern_succ h]
    ring
  rw [magUnits_rootPattern h, ← square_scaled] at inexact
  rw [mid, ← square_scaled, hypotAllowed, if_neg (not_le.2 h), if_neg inexact]
  refine ⟨_, rfl, ?_⟩
  rw [← rootPattern]
  split
  · exact ⟨by omega, le_rfl, fun hlt => by omega⟩
  · exact ⟨le_rfl, by omega, fun _ => rfl⟩

/-- Below the limit Hypot returns the pattern below the root, or the one before it where that one is nearer
than the next, or the next one where it is nearer than the one before. -/
theorem hypot_choose_cases (h : n < hypotLimit * hypotLimit) (e : Estimator) (free : Nat) :
    (hypotAllowed n).choose e free = rootPattern n ∨
    ((hypotAllowed n).choose e free + 1 = rootPattern n ∧ (rootPattern n + 1 = infBits ∨
      4 * n ≤ twiceMidAround (rootPattern n) * twiceMidAround (rootPattern n))) ∨
    ((hypotAllowed n).choose e free = rootPattern n + 1 ∧ rootPattern n + 1 ≠ infBits ∧
      twiceMidAround (rootPattern n) * twiceMidAround (rootPattern n) ≤ 4 * n) := by
  by_cases hexact : magUnits (rootPattern n) * magUnits (rootPattern n) = n
  · rw [hypotAllowed_exact h hexact, choose_only]
    exact .inl rfl
  · obtain ⟨nearest, hallowed, hlo, hhi, hbelow⟩ := hypotAllowed_inexact h hexact
    rw [hallowed, allowedAround]
    split
    · rename_i hb
      have below : 4 * n < twiceMid (rootPattern n) * twiceMid (rootPattern n) := by
        rcases hb with hinf | hb
        · rw [show rootPattern n = infBits - 1 by omega, twiceMid_largest, mul_mul_mul_comm]
          omega
        · refine hb.trans_le (Nat.mul_self_le_mul_self ?_)
          exact Nat.add_le_add_right (strictMono_magUnits.monotone (Nat.sub_le _ _)) _
      have near := hbelow below
      have mem := choose_mem (a := ⟨rootPattern n - 1, rootPattern n, some nearest⟩) (Nat.sub_le _ _)
        (by simp [near]) e free
      dsimp only at mem
      omega
    · split
      · have mem := choose_mem (a := ⟨rootPattern n - 1, rootPattern n + 1, some nearest⟩)
          (show _ - 1 ≤ _ + 1 by omega) (by rintro m ⟨⟩; dsimp only; omega) e free
        dsimp only at mem
        omega
      · have mem := choose_mem (a := ⟨rootPattern n, rootPattern n + 1, some nearest⟩)
          (Nat.le_succ _) (by rintro m ⟨⟩; dsimp only; omega) e free
        dsimp only at mem
        omega

theorem hypot_choose_finite (h : n < hypotLimit * hypotLimit) (e : Estimator) (free : Nat) :
    (hypotAllowed n).choose e free < infBits := by
  have := rootPattern_finite h
  rcases hypot_choose_cases h e free with hr | ⟨hr, -⟩ | ⟨hr, hne, -⟩ <;> omega

end allowed

/-! ### Hypot as a function of its operands -/

/-- The sum of the squares of two values, in squared units. -/
def sumOfSquares (x y : F64) : Nat :=
  magUnits (magBits x) * magUnits (magBits x) + magUnits (magBits y) * magUnits (magBits y)

theorem sumOfSquares_eq (x y : F64) : (sumOfSquares x y : Int) = real x * real x + real y * real y := by
  rw [sumOfSquares, ← natAbs_real, ← natAbs_real, Nat.cast_add, Nat.cast_mul, Nat.cast_mul,
    Int.natAbs_mul_self', Int.natAbs_mul_self']

/-- Hypot is one of the patterns allowed for the sum of the squares. -/
theorem hypot_eq (e : Estimator) (x y : F64) :
    ∃ free, hypot e x y = pack false ((hypotAllowed (sumOfSquares x y)).choose e free) :=
  ⟨_, rfl⟩

theorem signBit_hypot (e : Estimator) (x y : F64) : signBit (hypot e x y) = false := by
  obtain ⟨free, h⟩ := hypot_eq e x y
  rw [h, signBit_pack]

theorem magBits_hypot_le (e : Estimator) (x y : F64) : magBits (hypot e x y) ≤ infBits := by
  obtain ⟨free, h⟩ := hypot_eq e x y
  have hle := hypotAllowed_le (sumOfSquares x y) e free
  rw [h, magBits_pack (hle.trans_lt infBits_lt)]
  exact hle

theorem not_nan_hypot (e : Estimator) (x y : F64) : isNaN (hypot e x y) = false := by
  rw [← Bool.not_eq_true, isNaN_iff, not_lt]
  exact magBits_hypot_le e x y

theorem hypot_comm (e : Estimator) (x y : F64) : hypot e x y = hypot e y x := by
  rw [hypot, hypot, max_comm, min_comm, Nat.add_comm]

theorem hypot_magnitudes (e : Estimator) (x y : F64) :
    hypot e x y = hypot e (pack false (magBits x)) (pack false (magBits y)) := by
  simp only [hypot, magBits_pack (magBits_lt x), magBits_pack (magBits_lt y)]

/-- Where the root is a finite pattern, Hypot is that pattern (R175 (b)). -/
theorem hypot_exact (e : Estimator) {x y : F64} {k : Nat} (hk : k < infBits)
    (h : sumOfSquares x y = magUnits k * magUnits k) : hypot e x y = pack false k := by
  have hle : magUnits k < hypotLimit :=
    (strictMono_magUnits.monotone (by omega : k ≤ infBits - 1)).trans_lt magUnits_largest_lt_limit
  have hlt := Nat.mul_self_lt_mul_self hle
  have root := rootPattern_square hlt
  obtain ⟨free, hf⟩ := hypot_eq e x y
  rw [hf, h, hypotAllowed_exact hlt (by rw [root]), choose_only, root]

/-- Settles O58, from the one pattern allowed for an exact root. -/
theorem hypotIsSymmetricAndExactWhereItCanBe : Obligations.HypotIsSymmetricAndExactWhereItCanBe := by
  refine fun e x y _ _ => ⟨hypot_comm e x y, hypot_magnitudes e x y, fun k hk h => ?_,
    signBit_hypot e x y, not_nan_hypot e x y⟩
  rw [← sumOfSquares_eq] at h
  exact hypot_exact e hk (by exact_mod_cast h)

/-! ### The distance from the root (R175 (c)) -/

/-- The gaps between patterns do not shrink upward. -/
theorem twice_magUnits_le (m : Nat) : 2 * magUnits (m + 1) ≤ magUnits m + magUnits (m + 2) := by
  obtain ⟨e, t, rfl, ht, hn⟩ : ∃ e t, m = e * 2 ^ 52 + t ∧ t < 2 ^ 53 ∧ (e = 0 ∨ 2 ^ 52 ≤ t) :=
    ⟨m / 2 ^ 52 - 1, m - (m / 2 ^ 52 - 1) * 2 ^ 52, by omega, by omega, by omega⟩
  rw [Nat.add_assoc, Nat.add_assoc, magUnits_pattern ht.le hn, magUnits_pattern (t := t + 1) ht (by omega)]
  by_cases htop : t + 2 ≤ 2 ^ 53
  · rw [magUnits_pattern htop (by omega)]
    apply le_of_eq
    ring
  · obtain rfl : t = 2 ^ 53 - 1 := by omega
    rw [show e * 2 ^ 52 + (2 ^ 53 - 1 + 2) = (e + 1) * 2 ^ 52 + (2 ^ 52 + 1) by omega,
      magUnits_pattern (by norm_num) (by norm_num), pow_succ]
    omega

section distance
variable {n r : Nat}

theorem sqrt_bracket (h : n < hypotLimit * hypotLimit) :
    (magUnits (rootPattern n) : ℝ) ≤ √n ∧ √n < magUnits (rootPattern n + 1) := by
  obtain ⟨hle, hlt⟩ := rootPattern_bracket h
  refine ⟨Real.le_sqrt_of_sq_le ?_, (Real.sqrt_lt' ?_).2 ?_⟩
  · rw [sq]
    exact_mod_cast hle
  · exact_mod_cast magUnits_pos_iff.2 (Nat.succ_pos _)
  · rw [sq]
    exact_mod_cast hlt

theorem twice_sqrt_le {m : Nat} (h : 4 * n ≤ m * m) : 2 * √n ≤ (m : ℝ) := by
  have : (4 * n : ℝ) ≤ m * m := by exact_mod_cast h
  nlinarith [Real.sq_sqrt (Nat.cast_nonneg (α := ℝ) n), Real.sqrt_nonneg (n : ℝ),
    Nat.cast_nonneg (α := ℝ) m]

theorem le_twice_sqrt {m : Nat} (h : m * m ≤ 4 * n) : (m : ℝ) ≤ 2 * √n := by
  have : (m * m : ℝ) ≤ 4 * n := by exact_mod_cast h
  nlinarith [Real.sq_sqrt (Nat.cast_nonneg (α := ℝ) n), Real.sqrt_nonneg (n : ℝ),
    Nat.cast_nonneg (α := ℝ) m]

theorem magUnits_real_mono {a b : Nat} (h : a ≤ b) : (magUnits a : ℝ) ≤ magUnits b := by
  exact_mod_cast strictMono_magUnits.monotone h

/-- A pattern Hypot may return is as near the root as every finite pattern but one, and no farther from it
than zero is. -/
theorem hypot_choose_nearest (h : n < hypotLimit * hypotLimit) (e : Estimator) (free : Nat) :
    |(magUnits ((hypotAllowed n).choose e free) : ℝ) - √n| ≤ √n ∧
    ∃ j ≤ infBits, ∀ k < infBits, k ≠ j →
      |(magUnits ((hypotAllowed n).choose e free) : ℝ) - √n| ≤ |(magUnits k : ℝ) - √n| := by
  obtain ⟨hle, hlt⟩ := sqrt_bracket h
  have hfin := rootPattern_finite h
  have hgap : (2 * magUnits (rootPattern n + 1) : ℝ) ≤
      magUnits (rootPattern n) + magUnits (rootPattern n + 2) := by
    exact_mod_cast twice_magUnits_le (rootPattern n)
  have hcases := hypot_choose_cases h e free
  generalize (hypotAllowed n).choose e free = r at *
  generalize rootPattern n = m at *
  have hpos (k : Nat) : (0 : ℝ) ≤ magUnits k := Nat.cast_nonneg _
  rcases hcases with rfl | ⟨rfl, hends⟩ | ⟨rfl, hinf, hends⟩
  · have dist : |(magUnits r : ℝ) - √n| = √n - magUnits r := by
      rw [abs_of_nonpos (by linarith), neg_sub]
    rw [dist]
    refine ⟨by linarith [hpos r], r + 1, by omega, fun k _ hne => ?_⟩
    rcases Nat.lt_or_gt_of_ne hne with hk | hk
    · have := magUnits_real_mono (by omega : k ≤ r)
      exact (by linarith : √n - magUnits r ≤ -(magUnits k - √n)).trans (neg_le_abs _)
    · have := magUnits_real_mono (by omega : r + 2 ≤ k)
      exact (by linarith : √n - magUnits r ≤ magUnits k - √n).trans (le_abs_self _)
  · have hr := magUnits_real_mono (Nat.le_succ r)
    have dist : |(magUnits r : ℝ) - √n| = √n - magUnits r := by
      rw [abs_of_nonpos (by rw [Nat.succ_eq_add_one] at hr; linarith), neg_sub]
    rw [dist]
    refine ⟨by linarith [hpos r], r + 1, by omega, fun k hk hne => ?_⟩
    rcases Nat.lt_or_gt_of_ne hne with hlt' | hgt
    · have := magUnits_real_mono (by omega : k ≤ r)
      exact (by linarith : √n - magUnits r ≤ -(magUnits k - √n)).trans (neg_le_abs _)
    · have := magUnits_real_mono (by omega : r + 1 + 1 ≤ k)
      have hends := twice_sqrt_le (hends.resolve_left (by omega))
      rw [twiceMidAround, Nat.cast_add, Nat.add_sub_cancel] at hends
      exact (by linarith : √n - magUnits r ≤ magUnits k - √n).trans (le_abs_self _)
  · have dist : |(magUnits (m + 1) : ℝ) - √n| = magUnits (m + 1) - √n :=
      abs_of_nonneg (by linarith)
    have hends := le_twice_sqrt hends
    rw [twiceMidAround, Nat.cast_add] at hends
    rw [dist]
    refine ⟨by linarith [hpos (m - 1)], m, by omega, fun k _ hne => ?_⟩
    rcases Nat.lt_or_gt_of_ne hne with hk | hk
    · have := magUnits_real_mono (by omega : k ≤ m - 1)
      exact (by linarith : (magUnits (m + 1) : ℝ) - √n ≤ -(magUnits k - √n)).trans (neg_le_abs _)
    · have := magUnits_real_mono (by omega : m + 1 ≤ k)
      exact (by linarith : (magUnits (m + 1) : ℝ) - √n ≤ magUnits k - √n).trans (le_abs_self _)

end distance

theorem hypotLimit_real : ((2 ^ 54 - 1) * 2 ^ 2044 : ℝ) = hypotLimit := by
  rw [hypotLimit, Nat.cast_mul, Nat.cast_sub Nat.one_le_two_pow, Nat.cast_pow, Nat.cast_pow,
    Nat.cast_ofNat, Nat.cast_one]

theorem sumOfSquares_real (x y : F64) :
    (real x : ℝ) * real x + (real y : ℝ) * real y = (sumOfSquares x y : ℝ) := by
  exact_mod_cast (sumOfSquares_eq x y).symm

theorem hypotLimit_le_sqrt_iff {n : Nat} : (hypotLimit : ℝ) ≤ √n ↔ hypotLimit * hypotLimit ≤ n := by
  rw [Real.le_sqrt (Nat.cast_nonneg _) (Nat.cast_nonneg _), sq]
  exact_mod_cast Iff.rfl

theorem real_pack {b : Bool} {m : Nat} (h : m < 2 ^ 63) :
    real (pack b m) = if b then -(magUnits m : Int) else magUnits m := by
  rw [real, signBit_pack, magBits_pack h]

/-- Settles O59: the value left out is the pattern on the other side of the root. -/
theorem hypotIsOneOfTheTwoNearest : Obligations.HypotIsOneOfTheTwoNearest := by
  intro e x y _ _
  dsimp only
  rw [sumOfSquares_real, hypotLimit_real, ← not_le, hypotLimit_le_sqrt_iff, not_le]
  obtain ⟨free, hf⟩ := hypot_eq e x y
  rw [hf]
  refine ⟨fun h => ?_, fun h => ?_⟩
  · rw [hypotAllowed_infinite h, choose_only]
  · have hfin := hypot_choose_finite h e free
    obtain ⟨hzero, j, hj, hnear⟩ := hypot_choose_nearest h e free
    have hbits := hfin.trans infBits_lt
    refine ⟨by rwa [isFinite_iff, magBits_pack hbits], pack false j, fun v hv hne => ?_⟩
    rw [real_pack (hj.trans_lt infBits_lt)] at hne
    rw [real_pack hbits]
    simp only [Bool.false_eq_true, if_false, Int.cast_natCast] at hne ⊢
    rw [real] at hne ⊢
    split
    · refine hzero.trans (le_trans ?_ (neg_le_abs _))
      have := Nat.cast_nonneg (α := ℝ) (magUnits (magBits v))
      push_cast
      linarith
    · rename_i hs
      rw [if_neg hs] at hne
      exact hnear _ ((isFinite_iff v).1 hv) fun hk => hne (by rw [hk])

end Sys2Proof.Machine
end

section
/-! SUPPORT. Angle and the results of a demodulation (40_numerics.md R176 to R178, 43_lockin_core.md
section 4): the magnitude of Atan2, which does not depend on the sign of y, and what a demodulation leaves in
RES. The settled statements follow. -/

namespace Sys2Proof.Machine

/-! ### Atan2 as a sign and a magnitude (R176) -/

/-- The magnitude pattern of Atan2 for an ordinate of magnitude pattern `my`. -/
def angleMag (e : Estimator) (my : Nat) (x : F64) : Nat :=
  if my = 0 then (if signBit x then piBits else 0)
  else if magBits x = 0 then magBits halfPi64
  else (angleAllowed (angleEnclosure (magUnits my) (magUnits (magBits x)) (signBit x))).choose e
    (magBits (Config.atan2Choice (pack false my) x))

theorem atan2_eq (e : Estimator) (y x : F64) :
    atan2 e y x = pack (signBit y) (angleMag e (magBits y) x) := by
  simp only [atan2, angleMag]
  split
  · rfl
  · split <;> rfl

theorem angleMag_le (e : Estimator) (my : Nat) (x : F64) : angleMag e my x ≤ piBits := by
  unfold angleMag
  split
  · split
    · exact le_rfl
    · exact Nat.zero_le _
  · split
    · decide
    · exact angleAllowed_le _ _ _

theorem angleMag_lt (e : Estimator) (my : Nat) (x : F64) : angleMag e my x < 2 ^ 63 :=
  (angleMag_le e my x).trans_lt (by decide)

theorem angleMag_of_zero {e : Estimator} {my : Nat} {x : F64} (h : my = 0) :
    angleMag e my x = if signBit x then piBits else 0 := if_pos h

theorem angleMag_of_zero_abscissa {e : Estimator} {my : Nat} {x : F64} (hy : my ≠ 0)
    (hx : magBits x = 0) : angleMag e my x = magBits halfPi64 := by
  rw [angleMag, if_neg hy, if_pos hx]

theorem isZero_iff (v : F64) : isZero v = true ↔ magBits v = 0 := decide_eq_true_iff

theorem neg64_pack {b : Bool} {m : Nat} (h : m < 2 ^ 63) : neg64 (pack b m) = pack (!b) m :=
  eq_of_sign_mag (by simp) (by rw [magBits_neg64, magBits_pack h, magBits_pack h])

theorem pack_piBits (b : Bool) : pack b piBits = if b = true then negPi64 else pi64 := by
  cases b <;> decide

theorem pack_halfPi (b : Bool) :
    pack b (magBits halfPi64) = if b = true then neg64 halfPi64 else halfPi64 := by
  cases b <;> decide

theorem magBits_atan2_le (e : Estimator) (y x : F64) : magBits (atan2 e y x) ≤ magBits pi64 := by
  rw [atan2_eq, magBits_pack (angleMag_lt ..)]
  exact angleMag_le ..

/-- (a): on the positive axis the angle is y itself, a zero. -/
theorem atan2_zero_right {e : Estimator} {y x : F64} (hy : isZero y = true) (hx : signBit x = false) :
    atan2 e y x = y := by
  rw [isZero_iff] at hy
  rw [atan2_eq, angleMag_of_zero hy, hx, if_neg (by decide), ← hy, pack_sign_mag]

/-- (b): on the negative axis it is π with the sign of y. -/
theorem atan2_zero_left {e : Estimator} {y x : F64} (hy : isZero y = true) (hx : signBit x = true) :
    atan2 e y x = if signBit y = true then negPi64 else pi64 := by
  rw [isZero_iff] at hy
  rw [atan2_eq, angleMag_of_zero hy, hx, if_pos rfl, pack_piBits]

/-- Settles O60, from the sign and the magnitude of Atan2. -/
theorem atan2SpecialCases : Obligations.Atan2SpecialCases := by
  refine fun e y x _ _ => ⟨atan2_zero_right, atan2_zero_left, fun hy hx => ?_, ?_,
    magBits_atan2_le e y x⟩
  · rw [isZero_iff] at hx
    rw [← Bool.not_eq_true, isZero_iff] at hy
    rw [atan2_eq, angleMag_of_zero_abscissa hy hx, pack_halfPi]
  · rw [atan2_eq, atan2_eq, magBits_neg64, signBit_neg64, neg64_pack (angleMag_lt ..)]

/-! ### The phase (R177) -/

theorem magBits_normPhase_le {p : F64} (h : magBits p ≤ magBits pi64) :
    magBits (normPhase p) ≤ magBits pi64 := by
  unfold normPhase
  split
  · exact le_rfl
  · exact h

theorem normPhase_ne_negPi64 (p : F64) : normPhase p ≠ negPi64 := by
  unfold normPhase
  split
  · decide
  · assumption

/-- A phase of ±π is π. -/
theorem normPhase_pi (b : Bool) : normPhase (if b = true then negPi64 else pi64) = pi64 := by
  cases b <;> decide

theorem normPhase_of_isZero {p : F64} (h : isZero p = true) : normPhase p = p := by
  refine if_neg ?_
  rintro rfl
  exact absurd h (by decide)

/-! ### The results of a demodulation (R310) -/

/-- A demodulation without error leaves a Hypot and a normalized Atan2 in RES. -/
theorem demodulate_results {r m : F64} {s t : State} (h : demodulate r m s = .next t)
    (ok : t.err = .none) :
    ∃ e i q, t.res0 = hypot e i q ∧ t.res1 = normPhase (atan2 e q i) := by
  rcases demodulate_next h with ⟨f1, -, rfl⟩ | ⟨f1, x, f2, -, -, rfl⟩ | ⟨f1, x, f2, y, -, -, rfl⟩
  · cases ok
  · cases ok
  · exact ⟨_, x, y, rfl, rfl⟩

/-- CDEMOD or CSTEP without error demodulated a pair. -/
theorem exec_demodulated {i : Instr} {s t : State} (hi : i = .cdemod ∨ i = .cstep)
    (h : exec i s = .next t) (ok : t.err = .none) : ∃ r m s', demodulate r m s' = .next t := by
  rcases hi with rfl | rfl
  · rcases execCdemod_next h with rfl | ⟨-, hd⟩
    · cases ok
    · exact ⟨_, _, _, hd⟩
  · rcases execCstep_next h with rfl | ⟨-, c, d, ⟨r, m, -, hd⟩ | rfl | rfl⟩
    · cases ok
    · exact ⟨_, _, _, hd⟩
    · cases ok
    · cases ok

/-- Settles O52, from the ranges of Hypot and of the normalized Atan2. -/
theorem magnitudeAndPhaseAreInRange : Obligations.MagnitudeAndPhaseAreInRange := by
  intro i s t hi h ok
  obtain ⟨r, m, s', hd⟩ := exec_demodulated hi h ok
  obtain ⟨e, x, y, h0, h1⟩ := demodulate_results hd ok
  rw [h0, h1]
  exact ⟨signBit_hypot e x y, not_nan_hypot e x y, magBits_normPhase_le (magBits_atan2_le e y x),
    normPhase_ne_negPi64 _⟩

/-! ### A zero measured sample (R321) -/

theorem hypot_zeros (e : Estimator) {x y : F64} (hx : isZero x = true) (hy : isZero y = true) :
    hypot e x y = posZero := by
  rw [isZero_iff] at hx hy
  rw [hypot_exact e (k := 0) (by decide) (by rw [sumOfSquares, hx, hy, magUnits_zero])]
  decide

/-- The phase of two zeros is π where I has sign 1, and Q itself elsewhere. -/
theorem phase_zeros (e : Estimator) {i q : F64} (hq : isZero q = true) :
    normPhase (atan2 e q i) = if signBit i = true then pi64 else q := by
  cases hs : signBit i
  · rw [atan2_zero_right hq hs, normPhase_of_isZero hq]
    rfl
  · rw [atan2_zero_left hq hs, normPhase_pi]
    rfl

theorem order_pos_of_filterValid {p : Params} {n : Nat} {fc fs : F64}
    (h : filterValid p n fc fs = true) : 1 ≤ n := by
  simp only [filterValid, Bool.and_eq_true, decide_eq_true_eq] at h
  omega

/-- A unit of a configured core with finite coefficients and zero histories is silent (R230). -/
theorem Filter.Inv.silent {p : Params} {f : Filter} (hi : f.Inv p) (cfg : f.cfg = true)
    (healthy : f.fault = false) (coeffs : finiteCoeffs f) (history : zeroHistory f) :
    SilentFilter f where
  cfg := cfg
  healthy := healthy
  order := order_pos_of_filterValid (hi.2 cfg).1
  coeffs := coeffs
  history := history

theorem advancedShifter_finite {h : Shifter} {x : F64} (hb : ∀ v ∈ h.buf, isFinite v = true)
    (hx : isFinite x = true) : ∀ v ∈ (advancedShifter h x).buf, isFinite v = true := by
  rw [advancedShifter, pushed, ← slide_eq]
  exact forall_slide hb posZero_finite hx

theorem delayedSample_finite {h : Shifter} {x : F64} (hb : ∀ v ∈ h.buf, isFinite v = true)
    (hx : isFinite x = true) : isFinite (delayedSample h x) = true :=
  entry_finite (advancedShifter_finite hb hx) _

/-- Settles O50: both filters are silent and their inputs are zeros, so the outputs are. -/
theorem zeroMeasuredGivesZeroMagnitude : Obligations.ZeroMeasuredGivesZeroMagnitude := by
  intro s hi hc hf1 hf2 hc1 hc2 hz1 hz2 hbuf hr hm i q
  obtain ⟨cfg1, cfg2, -, -⟩ := hi.coreUnits hc
  have silent1 := hi.f1.silent cfg1 hf1 hc1 hz1
  have silent2 := hi.f2.silent cfg2 hf2 hc2 hz2
  have in1 := mul64_isZero_left hm hr
  have in2 := mul64_isZero_left hm (delayedSample_finite hbuf hr)
  have zi : isZero i = true := recursionOutput_isZero silent1.order hc1 hz1 in1
  have zq : isZero q = true := recursionOutput_isZero silent2.order hc2 hz2 in2
  refine ⟨zi, zq, _, (exec_cdemod_configured hc).trans
    (demodulate_completes hf1 (isZero_finite zi) hf2 (isZero_finite zq)), rfl,
    hypot_zeros _ zi zq, phase_zeros _ zq, (silent1.advanced in1 zi).history,
    (silent2.advanced in2 zq).history, hf1, hf2, advancedShifter_finite hbuf hr⟩

end Sys2Proof.Machine
end
